-- ==== Sys2Proof/Word.lean ====
section
/-! DEFINITION. The bit-vector types of the model (10_state.md R21, R22, R26; 30_encoding.md R270). -/

namespace Sys2Proof

/-- An XLEN-bit value, held in 64 bits; with XLEN = 32 the upper 32 bits read zero (log 2). -/
abbrev Word := BitVec 64

/-- The smallest addressable unit of memory (20_memory.md R180). -/
abbrev Byte := BitVec 8

/-- An instruction word (30_encoding.md R280). -/
abbrev Insn := BitVec 32

/-- The number of an integer register, a 5-bit field (10_state.md R21). -/
abbrev Reg := BitVec 5

/-- A 12-bit CSR address (10_state.md R26). -/
abbrev CsrAddr := BitVec 12

end Sys2Proof
end

