-- ==== Sys2Proof/Config.lean ====
section
/-! DEFINITION. The implementation parameters (00_scope.md R7), the privilege modes and virtualization
schemes they name, and the one free value. -/

namespace Sys2Proof

/-- The base ISA, `mcpuid.Base` (R62). RV128I is refused (D2; log 2). -/
inductive Base where
  | rv32i | rv32e | rv64i
deriving DecidableEq, Repr

/-- The privilege modes a configuration may have (10_state.md R25). H-mode is refused (D4; log 17). -/
inductive Priv where
  | user | supervisor | machine
deriving DecidableEq, Repr

/-- The mode combinations a model accepts (R6; 92_eei_decisions.md D4). -/
inductive Modes where
  /-- {M} -/
  | m
  /-- {M, U} -/
  | mu
  /-- {M, S, U} -/
  | msu
deriving DecidableEq, Repr

/-- The virtualization schemes `mstatus.VM` can hold (11_machine_csrs.md R78). -/
inductive Scheme where
  | mbare | mbb | mbbid | sv32 | sv39 | sv48
deriving DecidableEq, Repr

/-- The kinds of memory access (20_memory.md R182). -/
inductive Access where
  | fetch | load | store
deriving DecidableEq, Repr

/-- The two standard trap-vector locations (11_machine_csrs.md R93). -/
inductive TvecHome where
  | high | low
deriving DecidableEq, Repr

/-- One region of physical memory. Regions are the plain data in place of the function `PhysCheck` (R201; log 10):
an access passes in a region that lists it, so every function of address, size, kind and privilege is some list of
regions, in the last resort one region for each access. -/
structure Region where
  base : Nat
  size : Nat
  /-- the attributes (R196, R197): the kinds of access supported, each with the widths in bytes supported for it -/
  supported : List (Access × Nat)
  /-- the access control (R199, R200): the kinds of access granted, each with the effective privileges it is granted
  at; it applies to controlled accesses alone -/
  granted : List (Access × Priv)
deriving DecidableEq, Repr

/-- Every kind of access at every width of R202. -/
def Region.everyAccess : List (Access × Nat) :=
  [(.fetch, 4), (.load, 1), (.load, 2), (.load, 4), (.load, 8), (.store, 1), (.store, 2), (.store, 4), (.store, 8)]

/-- Every kind of access at every privilege. -/
def Region.everyGrant : List (Access × Priv) :=
  [ (.fetch, .user), (.fetch, .supervisor), (.fetch, .machine), (.load, .user), (.load, .supervisor), (.load, .machine)
  , (.store, .user), (.store, .supervisor), (.store, .machine) ]

/-- The parameters of 00_scope.md R7. They do not change while the hart runs (10_state.md R43; log 1). -/
structure Config where
  /-- `BASE`, which fixes `XLEN` -/
  base : Base
  /-- `MODES` -/
  modes : Modes
  /-- `VMS`: the supported schemes besides Mbare -/
  hasMbb : Bool
  hasMbbid : Bool
  hasSv32 : Bool
  hasSv39 : Bool
  hasSv48 : Bool
  /-- `PALEN` -/
  palen : Nat
  /-- `PhysCheck` -/
  regions : List Region
  /-- `MCPUID`, `MIMPID`, `HARTID` -/
  mcpuid : Word
  mimpid : Word
  mhartid : Word
  /-- `MTVEC_RESET`, `MTVEC_WMASK` -/
  mtvecHome : TvecHome
  mtvecMask : Word
  /-- `MTDELEG_WMASK` -/
  mtdelegMask : Word
  /-- `ASIDLEN` -/
  asidLen : Nat
  /-- `HAS_F`, `HAS_XS` -/
  hasF : Bool
  hasXs : Bool
  /-- `MISALIGNED_OK` (default false: D22) -/
  misalignedOk : Bool
  /-- `CSRRWI_ZERO_WRITES` (default false: D19) -/
  csrrwiZeroWrites : Bool
  /-- `SCAUSE_ADDR`, `SBADADDR_ADDR` (D25) -/
  scauseAddr : CsrAddr
  sbadaddrAddr : CsrAddr
  /-- `CSR_TRAP_LOWER`: (address, privilege, is a write), of privileges below M (R33) -/
  trapLower : List (CsrAddr × Priv × Bool)
  /-- whether a host interface supplies `mtohost` and `mfromhost` (R130, D26; log 16) -/
  hostInterface : Bool
deriving DecidableEq, Repr

/-- The free value: `UNSPEC(XLEN)` of 60_exceptions.md R461, drawn fresh at each use by applying it to the
counter `State.free`. It has no body, so nothing can be proved of it (log 5). -/
opaque Config.freeWord : Nat → Word

/-- The configuration of `State.reset`: RV64I with M, S and U, every 64-bit scheme, one region of ordinary
memory over the whole physical space, movable low trap vector. DESIGN CHOICE (log 1). -/
def Config.standard : Config where
  base := .rv64i
  modes := .msu
  hasMbb := true
  hasMbbid := true
  hasSv32 := false
  hasSv39 := true
  hasSv48 := true
  palen := 50
  regions :=
    [{ base := 0, size := 2 ^ 50, supported := Region.everyAccess, granted := Region.everyGrant }]
  mcpuid := 0x8000000000140100#64
  mimpid := 0
  mhartid := 0
  mtvecHome := .low
  mtvecMask := 0xFFFFFFFFFFFFFFFC#64
  mtdelegMask := 0x0000000000AA0FFF#64
  asidLen := 8
  hasF := false
  hasXs := false
  misalignedOk := false
  csrrwiZeroWrites := false
  scauseAddr := 0x142#12
  sbadaddrAddr := 0x143#12
  trapLower := []
  hostInterface := false

end Sys2Proof
end

