-- ==== Sys2Proof/Machine/Params.lean ====
section
/-! DEFINITION. What the parameters of 00_scope.md R7 determine: XLEN, the modes, the privilege-stack depth,
the supported schemes, and which configurations the spec admits. -/

namespace Sys2Proof

/-- The numeric level of a mode (10_state.md R25). -/
def Priv.level : Priv → Nat
  | .user => 0
  | .supervisor => 1
  | .machine => 3

/-- The 2-bit encoding of a mode (10_state.md R25). -/
def Priv.code (p : Priv) : BitVec 2 := BitVec.ofNat 2 p.level

/-- The mode a 2-bit field names, H (2) being refused (R25, D4). -/
def Priv.ofCode (b : BitVec 2) : Option Priv :=
  if b = 0#2 then some .user else if b = 1#2 then some .supervisor else if b = 3#2 then some .machine else none

/-- The value of `mstatus.VM` that names a scheme (11_machine_csrs.md R78). -/
def Scheme.code : Scheme → BitVec 5
  | .mbare => 0#5
  | .mbb => 1#5
  | .mbbid => 2#5
  | .sv32 => 8#5
  | .sv39 => 9#5
  | .sv48 => 10#5

/-- The scheme a value of `mstatus.VM` names; the other values are reserved (R78, R260). -/
def Scheme.ofCode (b : BitVec 5) : Option Scheme :=
  [Scheme.mbare, .mbb, .mbbid, .sv32, .sv39, .sv48].find? (fun v => v.code == b)

namespace Config

/-- Whether XLEN is 64. -/
def rv64 (c : Config) : Bool :=
  match c.base with
  | .rv64i => true
  | .rv32i => false
  | .rv32e => false

/-- XLEN (R62). -/
def xlen (c : Config) : Nat := if c.rv64 then 64 else 32

/-- A value modulo 2^XLEN (log 2). -/
def norm (c : Config) (v : Word) : Word := if c.rv64 then v else (v.setWidth 32).setWidth 64

/-- A value read as signed XLEN bits, sign-extended to 64. -/
def sext (c : Config) (v : Word) : Word := if c.rv64 then v else (v.setWidth 32).signExtend 64

/-- The sign bit, bit XLEN-1. -/
def signBit (c : Config) : Word := if c.rv64 then 0x8000000000000000#64 else 0x80000000#64

/-- Whether a register number names a register: RV32E has x0 to x15 (10_state.md R21, R298; log 12). -/
def hasReg (c : Config) (r : Reg) : Bool :=
  match c.base with
  | .rv32e => decide (r.toNat < 16)
  | .rv32i => true
  | .rv64i => true

/-- Whether a mode is in `MODES` (R6). -/
def supports (c : Config) (p : Priv) : Bool :=
  match c.modes, p with
  | _, .machine => true
  | .msu, _ => true
  | .mu, .user => true
  | .mu, .supervisor => false
  | .m, .user => false
  | .m, .supervisor => false

/-- Whether S is in `MODES`. -/
def hasS (c : Config) : Bool := c.supports .supervisor

/-- `DEPTH`: the number of modes, but 2 when only M exists (11_machine_csrs.md R74). -/
def depth (c : Config) : Nat :=
  match c.modes with
  | .m => 2
  | .mu => 2
  | .msu => 3

/-- `LOWEST` (11_machine_csrs.md R76). -/
def lowest (c : Config) : Priv :=
  match c.modes with
  | .m => .machine
  | .mu => .user
  | .msu => .user

/-- Whether a scheme is in `VMS` (R78). -/
def supportsScheme (c : Config) : Scheme → Bool
  | .mbare => true
  | .mbb => c.hasMbb
  | .mbbid => c.hasMbbid
  | .sv32 => c.hasSv32
  | .sv39 => c.hasSv39
  | .sv48 => c.hasSv48

/-- Whether a paged scheme is supported (12_supervisor_csrs.md R162). -/
def hasPaging (c : Config) : Bool := c.hasSv32 || c.hasSv39 || c.hasSv48

/-- `MTVEC_RESET` (10_state.md R46; 11_machine_csrs.md R93). -/
def mtvecReset (c : Config) : Word :=
  match c.mtvecHome with
  | .high => c.norm (0 - 0x200#64)
  | .low => 0x100#64

/-- The letters of the extensions the machine has, as bits of `mcpuid.Extensions` (11_machine_csrs.md R63): I or E,
U and S by `MODES`, F by `HAS_F`, and X where there is other extension state or a host interface. EXT has no other
letter, because file 46 gives no other extension (46_base_isa_general_knowledge.md R370; log 37). -/
def letters (c : Config) : Nat :=
  (if c.base = .rv32e then 2 ^ 4 else 2 ^ 8) + (if c.supports .user then 2 ^ 20 else 0) +
  (if c.hasS then 2 ^ 18 else 0) + (if c.hasF then 2 ^ 5 else 0) + (if c.hasXs || c.hostInterface then 2 ^ 23 else 0)

/-- The value of `mcpuid.Base` (R62). -/
def baseCode (c : Config) : Nat :=
  match c.base with
  | .rv32i => 0
  | .rv32e => 1
  | .rv64i => 2

/-- `MCPUID` is 0, or agrees with the other parameters (R60 to R64; log 37). -/
def mcpuidOk (c : Config) : Bool :=
  decide (c.mcpuid = 0) || decide (c.mcpuid.toNat = c.baseCode * 2 ^ (c.xlen - 2) + c.letters)

/-- `CSR_TRAP_LOWER` is about accesses of levels that have a higher one (10_state.md R33; log 38). -/
def trapLowerOk (c : Config) : Bool := c.trapLower.all fun entry => decide (entry.2.1 ≠ .machine)

/-- `MTVEC_WMASK`: none writable; or the sign bit and bits from 8 up to the next writable bit below it, so
that both standard values can be written, and never bits 1:0 (11_machine_csrs.md R94). -/
def mtvecMaskOk (c : Config) : Bool :=
  c.mtvecMask == 0 ||
    (let upper := c.mtvecMask.toNat % 2 ^ (c.xlen - 1) / 256
     c.norm c.mtvecMask == c.mtvecMask &&
     c.mtvecMask &&& 3 == 0 &&
     c.mtvecMask &&& c.signBit != 0 &&
     upper != 0 &&
     upper &&& (upper + 1) == 0)

/-- The configurations the spec admits: R7's constraints, R63, R64, R78, R94, R102, R129; XLEN 128 and H-mode
cannot be written (D2, D4). That an implementation with Sv48 should have Sv39 (21_paged_vm.md R255) is advice: both
are admitted (log 32). The step refuses the others. -/
def admitted (c : Config) : Bool :=
  (!c.hasMbb || c.supports .user) &&
  (!c.hasMbbid || c.hasMbb) &&
  (!c.hasSv32 || (c.hasS && !c.rv64)) &&
  (!c.hasSv39 || (c.hasS && c.rv64)) &&
  (!c.hasSv48 || (c.hasS && c.rv64)) &&
  c.mcpuidOk &&
  c.trapLowerOk &&
  c.norm c.mimpid == c.mimpid &&
  c.norm c.mhartid == c.mhartid &&
  c.mtvecMaskOk &&
  c.norm c.mtdelegMask == c.mtdelegMask &&
  (c.hasS || c.mtdelegMask == 0) &&
  decide (c.asidLen ≤ c.xlen) &&
  ((c.scauseAddr == 0x142#12 && c.sbadaddrAddr == 0x143#12) ||
    (c.scauseAddr == 0xD42#12 && c.sbadaddrAddr == 0xD43#12))

end Config

end Sys2Proof
end

