-- ==== Sys2Proof/Machine/State.lean ====
section
/-! DEFINITION. The state of one hart (10_state.md R20) and of what surrounds it, as plain data, and reset. -/

namespace Sys2Proof.Machine

/-- The machine stops. Every abnormal event the spec describes is a trap, which is a next state; so there
is one fault. -/
inductive Fault where
  /-- Raised by `step` alone: the state's configuration is none the spec admits (D4, R7; log 32). Safe: no
  machine of the spec is in such a state. -/
  | inadmissibleConfig
deriving DecidableEq, Repr

/-- The model has no meaning to give. -/
inductive Refusal where
  /-- Raised by `exec` for an instruction without a meaning; no arm raises it now. Safe. -/
  | notModelled (mnemonic : String)
  /-- Raised by a CSR instruction that writes `mstatus` with a PRV, PRVn or VM value the configuration does
  not support: "the write is refused by a model" (R32, R89, R302; log 11). Safe: nothing is claimed of the
  hardware there. -/
  | unsupportedStatusValue
deriving DecidableEq, Repr

/-- The status of extension state (11_machine_csrs.md R82), encoded 0 to 3. -/
inductive CtxStatus where
  | off | initial | clean | dirty
deriving DecidableEq, Repr

/-- The interrupt sources (60_exceptions.md R470); HSIP and HTIP need H-mode (log 17). -/
inductive Irq where
  /-- supervisor software -/
  | ssi
  /-- machine software -/
  | msi
  /-- supervisor timer -/
  | sti
  /-- machine timer -/
  | mti
deriving DecidableEq, Repr

/-- The synchronous exceptions (60_exceptions.md R450); code 10 needs H-mode (log 17). -/
inductive Exc where
  | instrMisaligned | instrAccess | illegal | breakpoint
  | loadMisaligned | loadAccess | storeMisaligned | storeAccess
  | ecallU | ecallS | ecallM
deriving DecidableEq, Repr

/-- One entry of the privilege stack (11_machine_csrs.md R74). -/
structure StackEntry where
  prv : Priv
  ie : Bool
deriving DecidableEq, Repr

/-- The stored fields of `mstatus` (11_machine_csrs.md R71). `SD` is computed at each read (R88); entry 2
exists when DEPTH = 3, and entry 3 never (R74). -/
structure Mstatus where
  /-- PRV, IE -/
  e0 : StackEntry
  /-- PRV1, IE1 -/
  e1 : StackEntry
  /-- PRV2, IE2 -/
  e2 : StackEntry
  fs : CtxStatus
  xs : CtxStatus
  mprv : Bool
  vm : Scheme
deriving DecidableEq, Repr

/-- The bits of `mip`, or of `mie` (11_machine_csrs.md R107). -/
structure IrqBits where
  /-- bit 1 -/
  ssi : Bool
  /-- bit 3 -/
  msi : Bool
  /-- bit 5 -/
  sti : Bool
  /-- bit 7 -/
  mti : Bool
deriving DecidableEq, Repr

/-- The two fields of `mcause` and `scause` (11_machine_csrs.md R123). -/
structure Cause where
  interrupt : Bool
  code : BitVec 4
deriving DecidableEq, Repr

/-- A cached leaf translation (21_paged_vm.md R258). -/
structure TcEntry where
  asid : Word
  isGlobal : Bool
  vaBase : Word
  level : Nat
  pte : Word
  pteAddr : Nat
deriving DecidableEq, Repr

/-- What the translation cache does for one access (R258; log 9): which entry to try (by place in the list),
and whether a successful walk fills it. -/
structure TcChoice where
  use : Option Nat
  fill : Bool
deriving DecidableEq, Repr

/-- Which takeable interrupt is delivered in a step (R472; log 7). -/
inductive IrqChoice where
  /-- the takeable one with the highest bit of `mip`, if any -/
  | first
  /-- none in this step -/
  | defer
  /-- this one, if it is takeable -/
  | take (i : Irq)
deriving DecidableEq, Repr

/-- What the environment does before a step (60_exceptions.md R480), and the choices the step relation
leaves to it (R490; log 6). -/
structure EnvStep where
  /-- the amount by which every wall-clock counter advances -/
  ticks : Nat
  /-- the amount by which `cycle` advances -/
  cycles : Nat
  /-- a remote hart's write of `mip.MSIP` -/
  msip : Option Bool
  /-- an SBI inter-processor interrupt: `mip.SSIP` is set -/
  ssip : Bool
  /-- bytes that other harts, devices or the host write -/
  writes : List Host.Cell
  /-- the host's write of `mfromhost`, where there is a host interface -/
  fromHost : Option Word
  /-- places of the TC entries that leave it -/
  evict : List Nat
  /-- a WFI stall ends with no interrupt pending -/
  wake : Bool
  /-- a WFI executed in this step stalls -/
  stall : Bool
  irq : IrqChoice
  fetchTc : TcChoice
  dataTc : TcChoice
deriving DecidableEq, Repr

/-- The environment does nothing: a takeable interrupt is delivered at once, the highest bit first, WFI does
not stall and nothing is cached, each an admitted choice (R472, D31, R258). -/
def EnvStep.idle : EnvStep where
  ticks := 0
  cycles := 0
  msip := none
  ssip := false
  writes := []
  fromHost := none
  evict := []
  wake := false
  stall := false
  irq := .first
  fetchTc := ⟨none, false⟩
  dataTc := ⟨none, false⟩

/-- Memory: the listed bytes, addresses strictly rising, none equal to what an unlisted byte reads as
(`Memory.wf`). -/
abbrev Memory := List Host.Cell

/-- The state. INVENTORY.md, State, lists every field with the rule that names it. -/
structure State where
  /-- the model's own: the implementation parameters (R7; log 1) -/
  cfg : Config
  /-- x0 to x31 (R21) -/
  x : Vector Word 32
  /-- R22 -/
  pc : Word
  /-- f0 to f31 (R23; log 15) -/
  f : Vector Word 32
  /-- R170 -/
  fflags : BitVec 5
  frm : BitVec 3
  /-- R171 -/
  cycle : BitVec 64
  time : BitVec 64
  instret : BitVec 64
  /-- R71 -/
  mstatus : Mstatus
  /-- R92 -/
  mtvec : Word
  /-- R98 -/
  mtdeleg : Word
  /-- R105 -/
  mip : IrqBits
  /-- R106 -/
  mie : IrqBits
  /-- R114, R115 -/
  mtime : BitVec 64
  mtimecmp : BitVec 32
  /-- R119, R120, R123, R126 -/
  mscratch : Word
  mepc : Word
  mcause : Cause
  mbadaddr : Word
  /-- R128 -/
  mbase : Word
  mbound : Word
  mibase : Word
  mibound : Word
  mdbase : Word
  mdbound : Word
  /-- R130 -/
  mtohost : Word
  mfromhost : Word
  /-- R147 -/
  stvec : Word
  /-- R152, R154 -/
  stime : BitVec 64
  stimecmp : BitVec 32
  /-- R156 to R160 -/
  sscratch : Word
  sepc : Word
  scause : Cause
  sbadaddr : Word
  /-- R162, R163 -/
  sptbr : Word
  sasid : Word
  /-- hidden: the paused state of WFI (R40, R331) -/
  stalled : Bool
  /-- hidden: the translation cache (R258) -/
  tc : List TcEntry
  /-- R180 -/
  mem : Memory
  /-- the model's own: what the environment does before the coming steps (log 6) -/
  env : List EnvStep
  /-- the model's own: how many free values have been drawn (log 5) -/
  free : Nat
deriving DecidableEq, Repr

/-- What `mip` shows after reset: the counters and compare registers reset equal, so R116 and R154 set the
timer latches; STIP exists with S-mode (R109; log 3). -/
def mipReset (c : Config) : IrqBits := { ssi := false, msi := false, sti := c.hasS, mti := true }

/-- The machine right after reset (70_reset_and_hazards.md R500) with the parameters `c`. PRV, VM, `mtvec`,
`pc`, `stalled` and `tc` are the spec's values (R44 to R47, R502); every other value is the model's (log 3). -/
def State.resetOf (c : Config) : State where
  cfg := c
  x := Vector.replicate 32 0
  pc := c.norm (c.mtvecReset + 0x100#64)
  f := Vector.replicate 32 0
  fflags := 0
  frm := 0
  cycle := 0
  time := 0
  instret := 0
  mstatus :=
    { e0 := ⟨.machine, false⟩, e1 := ⟨c.lowest, false⟩, e2 := ⟨c.lowest, false⟩
      fs := .off, xs := .off, mprv := false, vm := .mbare }
  mtvec := c.mtvecReset
  mtdeleg := 0
  mip := mipReset c
  mie := ⟨false, false, false, false⟩
  mtime := 0
  mtimecmp := 0
  mscratch := 0
  mepc := 0
  mcause := ⟨false, 0⟩
  mbadaddr := 0
  mbase := 0
  mbound := 0
  mibase := 0
  mibound := 0
  mdbase := 0
  mdbound := 0
  mtohost := 0
  mfromhost := 0
  stvec := 0
  stime := 0
  stimecmp := 0
  sscratch := 0
  sepc := 0
  scause := ⟨false, 0⟩
  sbadaddr := 0
  sptbr := 0
  sasid := 0
  stalled := false
  tc := []
  mem := []
  env := []
  free := 0

/-- The machine right after reset, with the parameters of `Config.standard`. -/
def State.reset : State := State.resetOf Config.standard

end Sys2Proof.Machine
end

