-- ==== Sys2Proof/Machine/Ops.lean ====
section
/-! DEFINITION. The named operations over memory, registers, the privilege stack and the timers; taking a
trap, and the return from one. -/

namespace Sys2Proof.Machine

/-- The answers of `exec` and of the meanings it calls. -/
abbrev Result := Host.Outcome State Fault Refusal

/-! ## Memory (20_memory.md R180, R181) -/

/-- What a byte that nothing has written reads as. DESIGN CHOICE (R50 gives none; log 4). -/
def Memory.unlisted : Byte := 0

/-- The canonical form: addresses strictly rising, no byte listed that an unlisted one reads as. -/
def Memory.wf : Memory → Bool
  | [] => true
  | [(_, b)] => b != Memory.unlisted
  | (a, b) :: (a', b') :: m => decide (a < a') && b != Memory.unlisted && Memory.wf ((a', b') :: m)

/-- The byte at an address. -/
def Memory.read : Memory → Nat → Byte
  | [], _ => Memory.unlisted
  | (a, b) :: m, k => if k = a then b else Memory.read m k

/-- One byte written; the canonical form is kept. -/
def Memory.write : Memory → Nat → Byte → Memory
  | [], k, v => if v = Memory.unlisted then [] else [(k, v)]
  | (a, b) :: m, k, v =>
    if k < a then (if v = Memory.unlisted then (a, b) :: m else (k, v) :: (a, b) :: m)
    else if k = a then (if v = Memory.unlisted then m else (k, v) :: m)
    else (a, b) :: Memory.write m k v

/-- The number whose bytes lie at `n` addresses from `a`, the lowest address least significant (R181). -/
def Memory.readNat (m : Memory) : Nat → Nat → Nat
  | _, 0 => 0
  | a, n + 1 => (m.read a).toNat + 256 * Memory.readNat m (a + 1) n

/-- `PhysRead` of up to 8 bytes, zero-extended (R203). -/
def Memory.readWord (m : Memory) (a n : Nat) : Word := BitVec.ofNat 64 (m.readNat a n)

/-- `PhysWrite` of the low `n` bytes of `v` (R203). -/
def Memory.writeWord : Memory → Nat → Nat → Word → Memory
  | m, _, 0, _ => m
  | m, a, n + 1, v => Memory.writeWord (m.write a (v.setWidth 8)) (a + 1) n (v >>> 8)

/-- A list of bytes written one after another. -/
def Memory.writeCells : Memory → List Host.Cell → Memory
  | m, [] => m
  | m, (a, b) :: cells => Memory.writeCells (m.write a b) cells

/-! ## Registers and the pc -/

/-- `x[r]`: x0 reads 0 (10_state.md R21). -/
def State.readX (s : State) (r : Reg) : Word := if r = 0 then 0 else s.cfg.norm (s.x[r.toNat]'r.isLt)

/-- `x[r] <- v`: a write to x0 is discarded (R21). -/
def State.setX (s : State) (r : Reg) (v : Word) : State :=
  { s with x := if r = 0 then s.x else s.x.set r.toNat (s.cfg.norm v) r.isLt }

/-- `pc <- v`, modulo 2^XLEN (R22). -/
def State.setPc (s : State) (v : Word) : State := { s with pc := s.cfg.norm v }

/-- An instruction completes: the next pc, and one more instruction retired (60_exceptions.md R490 step 5). -/
def State.complete (s : State) (npc : Word) : State :=
  { s with pc := s.cfg.norm npc, instret := s.instret + 1 }

/-- An instruction that does not assign the pc completes (R374). -/
def State.advance (s : State) : State := s.complete (s.pc + 4)

def State.setMem (s : State) (m : Memory) : State := { s with mem := m }

def State.setTc (s : State) (tc : List TcEntry) : State := { s with tc := tc }

def State.setMstatus (s : State) (m : Mstatus) : State := { s with mstatus := m }

/-- The current privilege mode, `mstatus.PRV` (R25, R72). -/
def State.prv (s : State) : Priv := s.mstatus.e0.prv

/-- What the environment does and chooses at this step (log 6). -/
def State.now (s : State) : EnvStep := s.env.headD EnvStep.idle

/-! ## The privilege stack (11_machine_csrs.md R74 to R76) -/

/-- `PushPrivStack(T)`, and MPRV cleared with it at every trap (R81). -/
def Mstatus.push (m : Mstatus) (c : Config) (target : Priv) : Mstatus :=
  { m with
    e0 := ⟨target, false⟩
    e1 := m.e0
    e2 := if c.depth = 3 then m.e1 else m.e2
    mprv := false }

/-- `PopPrivStack()`. -/
def Mstatus.pop (m : Mstatus) (c : Config) : Mstatus :=
  { m with
    e0 := m.e1
    e1 := if c.depth = 3 then m.e2 else ⟨c.lowest, true⟩
    e2 := if c.depth = 3 then ⟨c.lowest, true⟩ else m.e2 }

/-! ## Taking a trap (60_exceptions.md R455, R460, R461) -/

/-- Whether the handler mode of a trap met in mode `p`, with delegation bit `d`, is S (R455). -/
def State.delegated (s : State) (p : Priv) (d : Nat) : Bool :=
  s.cfg.hasS && decide (p.level ≤ 1) && s.mtdeleg.getLsbD d

/-- What the bad-address register receives: the address, or an undefined value (R461; log 5). -/
def State.badValue (s : State) : Option Word → Word
  | some a => a
  | none => s.cfg.norm (Config.freeWord s.free)

/-- The vector of an M-mode handler for a trap from mode `p` (11_machine_csrs.md R96). -/
def State.machineVector (s : State) (p : Priv) : Word :=
  s.cfg.norm (s.mtvec + BitVec.ofNat 64 (p.level * 0x40))

/-- `TakeTrap` of R460. -/
def State.takeTrap (s : State) (interrupt : Bool) (code : BitVec 4) (d : Nat) (epc : Word) (bad : Option Word) :
    State :=
  let toS := s.delegated s.prv d
  { s with
    mstatus := s.mstatus.push s.cfg (if toS then .supervisor else .machine)
    mepc := if toS then s.mepc else epc
    mcause := if toS then s.mcause else ⟨interrupt, code⟩
    mbadaddr := if toS then s.mbadaddr else s.badValue bad
    sepc := if toS then epc else s.sepc
    scause := if toS then ⟨interrupt, code⟩ else s.scause
    sbadaddr := if toS then s.badValue bad else s.sbadaddr
    pc := if toS then s.stvec else s.machineVector s.prv
    stalled := false
    free := if bad.isNone then s.free + 1 else s.free }

/-- The exception codes (11_machine_csrs.md R124). -/
def Exc.code : Exc → BitVec 4
  | .instrMisaligned => 0
  | .instrAccess => 1
  | .illegal => 2
  | .breakpoint => 3
  | .loadMisaligned => 4
  | .loadAccess => 5
  | .storeMisaligned => 6
  | .storeAccess => 7
  | .ecallU => 8
  | .ecallS => 9
  | .ecallM => 11

/-- `raise E(bad)`: the trap of a synchronous exception, at the instruction's own address (R454, R490). -/
def State.raise (s : State) (e : Exc) (bad : Option Word) : State :=
  s.takeTrap false e.code e.code.toNat s.pc bad

/-- The illegal-instruction exception, which records no address (R450). -/
def State.illegal (s : State) : State := s.raise .illegal none

/-- The return from a trap (41_privilege_change.md R315): the stack popped, the pc at `target`, one
instruction retired. -/
def State.returnTo (s : State) (target : Word) : State :=
  (s.setMstatus (s.mstatus.pop s.cfg)).complete target

/-! ## Interrupts (60_exceptions.md R470 to R472) -/

/-- The bit of `mip` and `mie`. -/
def Irq.bit : Irq → Nat
  | .ssi => 1
  | .msi => 3
  | .sti => 5
  | .mti => 7

/-- The level a source belongs to. -/
def Irq.level : Irq → Priv
  | .ssi => .supervisor
  | .msi => .machine
  | .sti => .supervisor
  | .mti => .machine

/-- The exception code: 0 for software, 1 for timer interrupts. -/
def Irq.code : Irq → BitVec 4
  | .ssi => 0
  | .msi => 0
  | .sti => 1
  | .mti => 1

def IrqBits.get (b : IrqBits) : Irq → Bool
  | .ssi => b.ssi
  | .msi => b.msi
  | .sti => b.sti
  | .mti => b.mti

/-- `mip ≠ 0`. -/
def IrqBits.any (b : IrqBits) : Bool := b.ssi || b.msi || b.sti || b.mti

/-- R471. -/
def State.enabled (s : State) (i : Irq) : Bool :=
  s.mie.get i &&
    (decide (s.prv.level < i.level.level) || (decide (i.level = s.prv) && s.mstatus.e0.ie))

/-- Enabled and pending (R471). -/
def State.takeable (s : State) (i : Irq) : Bool := s.enabled i && s.mip.get i

/-- The interrupt taken in this step, if any (R472; log 7). -/
def State.chooseIrq (s : State) (choice : IrqChoice) : Option Irq :=
  match choice with
  | .first => [Irq.mti, .sti, .msi, .ssi].find? s.takeable
  | .defer => none
  | .take i => if s.takeable i then some i else none

/-- Taking an interrupt: the pc of the next instruction is saved (R463, R472). -/
def State.takeInterrupt (s : State) (i : Irq) : State :=
  s.takeTrap true i.code (16 + i.bit) s.pc none

/-! ## Timers (11_machine_csrs.md R116; 12_supervisor_csrs.md R154; 60_exceptions.md R480) -/

/-- Whether a counter that advances by `k` passes, or stands on, a compare value: only the low 32 bits are
compared, and every intermediate value is passed through. -/
def passes (counter : BitVec 64) (compare : BitVec 32) (k : Nat) : Bool :=
  decide ((compare - counter.setWidth 32).toNat ≤ k)

/-- The latches after an advance by `k` from the current counters; S-level bits need S-mode. -/
def State.latched (s : State) (k : Nat) : IrqBits :=
  { s.mip with
    mti := s.mip.mti || passes s.mtime s.mtimecmp k
    sti := s.mip.sti || (s.cfg.hasS && passes s.stime s.stimecmp k) }

/-- "At every moment" of R116 and R154, for the current counters. -/
def State.latchTimers (s : State) : State := { s with mip := s.latched 0 }

end Sys2Proof.Machine
end

