-- ==== Sys2Proof/Machine/Operands.lean ====
section
/-! DEFINITION. Immediates, shift amounts, comparisons and the shared shapes of the base ISA's
instructions (46_base_isa_general_knowledge.md R371, R372, R374). -/

namespace Sys2Proof.Machine

/-! ## Immediates (R372): sign-extended, here to 64 bits; results are taken modulo 2^XLEN -/

def immI (imm : BitVec 12) : Word := imm.signExtend 64
def immS (imm : BitVec 12) : Word := imm.signExtend 64
def immB (offset : BitVec 13) : Word := offset.signExtend 64
def immU (imm : BitVec 20) : Word := (imm ++ 0#12).signExtend 64
def immJ (offset : BitVec 21) : Word := offset.signExtend 64

/-- A CSR immediate is zero-extended (30_encoding.md R273). -/
def zimmValue (zimm : BitVec 5) : Word := zimm.setWidth 64

/-! ## Comparisons and shifts on XLEN-bit values -/

/-- `s(a) < s(b)`. -/
def State.signedLess (s : State) (a b : Word) : Bool := (s.cfg.sext a).slt (s.cfg.sext b)

/-- `u(a) < u(b)`; an immediate operand is taken modulo 2^XLEN first (R400). -/
def State.unsignedLess (s : State) (a b : Word) : Bool := (s.cfg.norm a).ult (s.cfg.norm b)

/-- The result of a set-less-than. -/
def boolWord (b : Bool) : Word := if b then 1 else 0

/-- `v & (XLEN-1)` (R409). -/
def State.shiftAmount (s : State) (v : Word) : Nat := v.toNat % s.cfg.xlen

/-- `s(a) >>a n`, copies of the sign bit shifted in. -/
def State.arithmeticRight (s : State) (a : Word) (n : Nat) : Word := (s.cfg.sext a).sshiftRight n

/-- A shift amount of 32 or more is illegal with XLEN = 32 (R404 to R406). -/
def State.shamtOk (s : State) (shamt : BitVec 6) : Bool := decide (shamt.toNat < s.cfg.xlen)

/-- The low 32 bits of a value. -/
def lowWord (v : Word) : BitVec 32 := v.setWidth 32

/-- `sext_64` of 32 bits (R420 to R428). -/
def sextWord (v : BitVec 32) : Word := v.signExtend 64

/-! ## Shapes -/

/-- Every register an instruction names exists (RV32E; log 12). -/
def State.hasRegs (s : State) (regs : List Reg) : Bool := regs.all s.cfg.hasReg

/-- `x[rd] <- v; pc <- pc + 4`, if the registers named exist and `legal` holds; else illegal instruction. -/
def writeResult (legal : Bool) (rd : Reg) (sources : List Reg) (v : Word) (s : State) : Result :=
  if legal && s.hasRegs (rd :: sources) then .next (s.setX rd v).advance else .next s.illegal

/-- A jump to `target`: a target that is not 4-byte aligned raises at the jump itself and writes no register
(R374, 45_base_isa_interface.md R354). -/
def jumpAndLink (rd : Reg) (sources : List Reg) (target : Word) (s : State) : Result :=
  if !s.hasRegs (rd :: sources) then .next s.illegal
  else if target &&& 3 ≠ 0 then .next (s.raise .instrMisaligned (some (s.cfg.norm target)))
  else .next ((s.setX rd (s.pc + 4)).complete target)

/-- A conditional branch; one that is not taken never raises (section 3 of file 46). -/
def branch (taken : Bool) (rs1 rs2 : Reg) (offset : BitVec 13) (s : State) : Result :=
  let target := s.pc + immB offset
  if !s.hasRegs [rs1, rs2] then .next s.illegal
  else if !taken then .next s.advance
  else if target &&& 3 ≠ 0 then .next (s.raise .instrMisaligned (some (s.cfg.norm target)))
  else .next (s.complete target)

/-- The effective address of a load or store, modulo 2^XLEN (45_base_isa_interface.md R352). -/
def State.address (s : State) (rs1 : Reg) (imm : Word) : Word := s.cfg.norm (s.readX rs1 + imm)

end Sys2Proof.Machine
end

