-- ==== Sys2Proof/Machine/Alu.lean ====
section
/-! DEFINITION. Register-immediate and register-register arithmetic (46_base_isa_general_knowledge.md R380, R381,
R398 to R428). A row of section 8 is illegal with XLEN = 32. -/

namespace Sys2Proof.Machine

/-- R380. -/
def execLui (rd : Reg) (imm : BitVec 20) (s : State) : Result := writeResult true rd [] (immU imm) s

/-- R381. -/
def execAuipc (rd : Reg) (imm : BitVec 20) (s : State) : Result := writeResult true rd [] (s.pc + immU imm) s

/-! ## Register-immediate -/

/-- R398. -/
def execAddi (rd rs1 : Reg) (imm : BitVec 12) (s : State) : Result :=
  writeResult true rd [rs1] (s.readX rs1 + immI imm) s

/-- R399. -/
def execSlti (rd rs1 : Reg) (imm : BitVec 12) (s : State) : Result :=
  writeResult true rd [rs1] (boolWord (s.signedLess (s.readX rs1) (immI imm))) s

/-- R400. -/
def execSltiu (rd rs1 : Reg) (imm : BitVec 12) (s : State) : Result :=
  writeResult true rd [rs1] (boolWord (s.unsignedLess (s.readX rs1) (immI imm))) s

/-- R401. -/
def execXori (rd rs1 : Reg) (imm : BitVec 12) (s : State) : Result :=
  writeResult true rd [rs1] (s.readX rs1 ^^^ immI imm) s

/-- R402. -/
def execOri (rd rs1 : Reg) (imm : BitVec 12) (s : State) : Result :=
  writeResult true rd [rs1] (s.readX rs1 ||| immI imm) s

/-- R403. -/
def execAndi (rd rs1 : Reg) (imm : BitVec 12) (s : State) : Result :=
  writeResult true rd [rs1] (s.readX rs1 &&& immI imm) s

/-- R404. -/
def execSlli (rd rs1 : Reg) (shamt : BitVec 6) (s : State) : Result :=
  writeResult (s.shamtOk shamt) rd [rs1] (s.readX rs1 <<< shamt.toNat) s

/-- R405. -/
def execSrli (rd rs1 : Reg) (shamt : BitVec 6) (s : State) : Result :=
  writeResult (s.shamtOk shamt) rd [rs1] (s.readX rs1 >>> shamt.toNat) s

/-- R406. -/
def execSrai (rd rs1 : Reg) (shamt : BitVec 6) (s : State) : Result :=
  writeResult (s.shamtOk shamt) rd [rs1] (s.arithmeticRight (s.readX rs1) shamt.toNat) s

/-! ## Register-register -/

/-- R407. -/
def execAdd (rd rs1 rs2 : Reg) (s : State) : Result :=
  writeResult true rd [rs1, rs2] (s.readX rs1 + s.readX rs2) s

/-- R408. -/
def execSub (rd rs1 rs2 : Reg) (s : State) : Result :=
  writeResult true rd [rs1, rs2] (s.readX rs1 - s.readX rs2) s

/-- R409. -/
def execSll (rd rs1 rs2 : Reg) (s : State) : Result :=
  writeResult true rd [rs1, rs2] (s.readX rs1 <<< s.shiftAmount (s.readX rs2)) s

/-- R410. -/
def execSlt (rd rs1 rs2 : Reg) (s : State) : Result :=
  writeResult true rd [rs1, rs2] (boolWord (s.signedLess (s.readX rs1) (s.readX rs2))) s

/-- R411. -/
def execSltu (rd rs1 rs2 : Reg) (s : State) : Result :=
  writeResult true rd [rs1, rs2] (boolWord (s.unsignedLess (s.readX rs1) (s.readX rs2))) s

/-- R412. -/
def execXor (rd rs1 rs2 : Reg) (s : State) : Result :=
  writeResult true rd [rs1, rs2] (s.readX rs1 ^^^ s.readX rs2) s

/-- R413. -/
def execSrl (rd rs1 rs2 : Reg) (s : State) : Result :=
  writeResult true rd [rs1, rs2] (s.readX rs1 >>> s.shiftAmount (s.readX rs2)) s

/-- R414. -/
def execSra (rd rs1 rs2 : Reg) (s : State) : Result :=
  writeResult true rd [rs1, rs2] (s.arithmeticRight (s.readX rs1) (s.shiftAmount (s.readX rs2))) s

/-- R415. -/
def execOr (rd rs1 rs2 : Reg) (s : State) : Result :=
  writeResult true rd [rs1, rs2] (s.readX rs1 ||| s.readX rs2) s

/-- R416. -/
def execAnd (rd rs1 rs2 : Reg) (s : State) : Result :=
  writeResult true rd [rs1, rs2] (s.readX rs1 &&& s.readX rs2) s

/-! ## RV64 only: the low words, the result sign-extended -/

/-- The shift amount of a word form, `v & 31` (R426). -/
def wordShift (v : Word) : Nat := v.toNat % 32

/-- R420. -/
def execAddiw (rd rs1 : Reg) (imm : BitVec 12) (s : State) : Result :=
  writeResult s.cfg.rv64 rd [rs1] (sextWord (lowWord (s.readX rs1 + immI imm))) s

/-- R421. -/
def execSlliw (rd rs1 : Reg) (shamt : BitVec 5) (s : State) : Result :=
  writeResult s.cfg.rv64 rd [rs1] (sextWord (lowWord (s.readX rs1) <<< shamt.toNat)) s

/-- R422. -/
def execSrliw (rd rs1 : Reg) (shamt : BitVec 5) (s : State) : Result :=
  writeResult s.cfg.rv64 rd [rs1] (sextWord (lowWord (s.readX rs1) >>> shamt.toNat)) s

/-- R423. -/
def execSraiw (rd rs1 : Reg) (shamt : BitVec 5) (s : State) : Result :=
  writeResult s.cfg.rv64 rd [rs1] (sextWord ((lowWord (s.readX rs1)).sshiftRight shamt.toNat)) s

/-- R424. -/
def execAddw (rd rs1 rs2 : Reg) (s : State) : Result :=
  writeResult s.cfg.rv64 rd [rs1, rs2] (sextWord (lowWord (s.readX rs1 + s.readX rs2))) s

/-- R425. -/
def execSubw (rd rs1 rs2 : Reg) (s : State) : Result :=
  writeResult s.cfg.rv64 rd [rs1, rs2] (sextWord (lowWord (s.readX rs1 - s.readX rs2))) s

/-- R426. -/
def execSllw (rd rs1 rs2 : Reg) (s : State) : Result :=
  writeResult s.cfg.rv64 rd [rs1, rs2] (sextWord (lowWord (s.readX rs1) <<< wordShift (s.readX rs2))) s

/-- R427. -/
def execSrlw (rd rs1 rs2 : Reg) (s : State) : Result :=
  writeResult s.cfg.rv64 rd [rs1, rs2] (sextWord (lowWord (s.readX rs1) >>> wordShift (s.readX rs2))) s

/-- R428. -/
def execSraw (rd rs1 rs2 : Reg) (s : State) : Result :=
  writeResult s.cfg.rv64 rd [rs1, rs2] (sextWord ((lowWord (s.readX rs1)).sshiftRight (wordShift (s.readX rs2)))) s

end Sys2Proof.Machine
end

