-- ==== Sys2Proof/Machine/Control.lean ====
section
/-! DEFINITION. Jumps and branches (46_base_isa_general_knowledge.md R382 to R389). -/

namespace Sys2Proof.Machine

/-- R382. -/
def execJal (rd : Reg) (offset : BitVec 21) (s : State) : Result := jumpAndLink rd [] (s.pc + immJ offset) s

/-- R383: the target's lowest bit is cleared. -/
def execJalr (rd rs1 : Reg) (imm : BitVec 12) (s : State) : Result :=
  jumpAndLink rd [rs1] ((s.readX rs1 + immI imm) &&& ~~~1#64) s

/-- R384. -/
def execBeq (rs1 rs2 : Reg) (offset : BitVec 13) (s : State) : Result :=
  branch (decide (s.readX rs1 = s.readX rs2)) rs1 rs2 offset s

/-- R385. -/
def execBne (rs1 rs2 : Reg) (offset : BitVec 13) (s : State) : Result :=
  branch (decide (s.readX rs1 ≠ s.readX rs2)) rs1 rs2 offset s

/-- R386. -/
def execBlt (rs1 rs2 : Reg) (offset : BitVec 13) (s : State) : Result :=
  branch (s.signedLess (s.readX rs1) (s.readX rs2)) rs1 rs2 offset s

/-- R387. -/
def execBge (rs1 rs2 : Reg) (offset : BitVec 13) (s : State) : Result :=
  branch (!s.signedLess (s.readX rs1) (s.readX rs2)) rs1 rs2 offset s

/-- R388. -/
def execBltu (rs1 rs2 : Reg) (offset : BitVec 13) (s : State) : Result :=
  branch (s.unsignedLess (s.readX rs1) (s.readX rs2)) rs1 rs2 offset s

/-- R389. -/
def execBgeu (rs1 rs2 : Reg) (offset : BitVec 13) (s : State) : Result :=
  branch (!s.unsignedLess (s.readX rs1) (s.readX rs2)) rs1 rs2 offset s

end Sys2Proof.Machine
end

