-- ==== Sys2Proof/Machine/Flags.lean ====
section
/-! DEFINITION. The architecture has no condition flags (10_state.md R24); the flag-like state is FS, XS, SD
and the floating-point accrued exceptions. -/

namespace Sys2Proof.Machine

/-- The encoding of a context status (11_machine_csrs.md R82, Table 3.4). -/
def CtxStatus.code : CtxStatus → BitVec 2
  | .off => 0
  | .initial => 1
  | .clean => 2
  | .dirty => 3

def CtxStatus.ofCode (b : BitVec 2) : CtxStatus :=
  if b = 0#2 then .off else if b = 1#2 then .initial else if b = 2#2 then .clean else .dirty

/-- `SD = ((FS == 11) OR (XS == 11))` (R88). -/
def Mstatus.sd (m : Mstatus) : Bool := decide (m.fs = .dirty) || decide (m.xs = .dirty)

/-- FS after floating-point state is modified (R84; 12_supervisor_csrs.md R170). -/
def State.dirtyFs (s : State) : State := s.setMstatus { s.mstatus with fs := .dirty }

/-- `fcsr`: `frm` in bits 7:5, `fflags` in bits 4:0 (12_supervisor_csrs.md R170; log 24). -/
def State.fcsr (s : State) : BitVec 8 := s.frm ++ s.fflags

end Sys2Proof.Machine
end

