-- ==== Sys2Proof/Machine/CsrMap.lean ====
section
/-! DEFINITION. The CSR address space (10_state.md R26 to R30, R35 to R42) and the access checks. -/

namespace Sys2Proof.Machine

/-- The registers that CSR addresses name, a shadow naming the register it shadows (R29). A name in `h` is
bits 63:32 of a counter (R38). Hypervisor registers exist in no admitted configuration (R165; log 17). -/
inductive Csr where
  | fflags | frm | fcsr
  | cycle | time | instret | cycleh | timeh | instreth
  | sstatus | stvec | sie | stimecmp | stime | stimeh | sscratch | sepc | scause | sbadaddr | sip | sptbr | sasid
  | mcpuid | mimpid | mhartid | mstatus | mtvec | mtdeleg | mie | mtimecmp | mtime | mtimeh
  | mscratch | mepc | mcause | mbadaddr | mip
  | mbase | mbound | mibase | mibound | mdbase | mdbound
  | mtohost | mfromhost
deriving DecidableEq, Repr

/-- One row of the CSR list: an address, the register there, whether the row says RO, and whether the
implementation has it. -/
structure CsrRow where
  addr : CsrAddr
  reg : Csr
  readOnly : Bool
  present : Bool

/-- R35; the floating-point CSRs exist when `HAS_F` (R42). -/
def userCsrs (c : Config) : List CsrRow :=
  [ ⟨0x001#12, .fflags, false, c.hasF⟩
  , ⟨0x002#12, .frm, false, c.hasF⟩
  , ⟨0x003#12, .fcsr, false, c.hasF⟩
  , ⟨0xC00#12, .cycle, true, true⟩
  , ⟨0xC01#12, .time, true, true⟩
  , ⟨0xC02#12, .instret, true, true⟩
  , ⟨0xC80#12, .cycleh, true, !c.rv64⟩
  , ⟨0xC81#12, .timeh, true, !c.rv64⟩
  , ⟨0xC82#12, .instreth, true, !c.rv64⟩ ]

/-- R36 and the shadows of `stime` in R37; they exist when S is supported, `sptbr` and `sasid` with a paged
scheme (R42). -/
def supervisorCsrs (c : Config) : List CsrRow :=
  [ ⟨0x100#12, .sstatus, false, c.hasS⟩
  , ⟨0x101#12, .stvec, false, c.hasS⟩
  , ⟨0x104#12, .sie, false, c.hasS⟩
  , ⟨0x121#12, .stimecmp, false, c.hasS⟩
  , ⟨0xD01#12, .stime, true, c.hasS⟩
  , ⟨0xD81#12, .stimeh, true, c.hasS && !c.rv64⟩
  , ⟨0x140#12, .sscratch, false, c.hasS⟩
  , ⟨0x141#12, .sepc, false, c.hasS⟩
  , ⟨c.scauseAddr, .scause, true, c.hasS⟩
  , ⟨c.sbadaddrAddr, .sbadaddr, true, c.hasS⟩
  , ⟨0x144#12, .sip, false, c.hasS⟩
  , ⟨0x180#12, .sptbr, false, c.hasS && c.hasPaging⟩
  , ⟨0x181#12, .sasid, false, c.hasS && c.hasPaging⟩
  , ⟨0x900#12, .cycle, false, c.hasS⟩
  , ⟨0x901#12, .time, false, c.hasS⟩
  , ⟨0x902#12, .instret, false, c.hasS⟩
  , ⟨0x980#12, .cycleh, false, c.hasS && !c.rv64⟩
  , ⟨0x981#12, .timeh, false, c.hasS && !c.rv64⟩
  , ⟨0x982#12, .instreth, false, c.hasS && !c.rv64⟩
  , ⟨0xA01#12, .stime, false, c.hasS⟩
  , ⟨0xA81#12, .stimeh, false, c.hasS && !c.rv64⟩ ]

/-- R41; the base and bound registers exist with their schemes, the host interface when supplied (R42). -/
def machineCsrs (c : Config) : List CsrRow :=
  [ ⟨0xF00#12, .mcpuid, true, true⟩
  , ⟨0xF01#12, .mimpid, true, true⟩
  , ⟨0xF10#12, .mhartid, true, true⟩
  , ⟨0x300#12, .mstatus, false, true⟩
  , ⟨0x301#12, .mtvec, false, true⟩
  , ⟨0x302#12, .mtdeleg, false, true⟩
  , ⟨0x304#12, .mie, false, true⟩
  , ⟨0x321#12, .mtimecmp, false, true⟩
  , ⟨0x701#12, .mtime, false, true⟩
  , ⟨0x741#12, .mtimeh, false, !c.rv64⟩
  , ⟨0x340#12, .mscratch, false, true⟩
  , ⟨0x341#12, .mepc, false, true⟩
  , ⟨0x342#12, .mcause, false, true⟩
  , ⟨0x343#12, .mbadaddr, false, true⟩
  , ⟨0x344#12, .mip, false, true⟩
  , ⟨0x380#12, .mbase, false, c.hasMbb⟩
  , ⟨0x381#12, .mbound, false, c.hasMbb⟩
  , ⟨0x382#12, .mibase, false, c.hasMbbid⟩
  , ⟨0x383#12, .mibound, false, c.hasMbbid⟩
  , ⟨0x384#12, .mdbase, false, c.hasMbbid⟩
  , ⟨0x385#12, .mdbound, false, c.hasMbbid⟩
  , ⟨0x780#12, .mtohost, false, c.hostInterface⟩
  , ⟨0x781#12, .mfromhost, false, c.hostInterface⟩ ]

/-- The whole CSR list. -/
def csrRows (c : Config) : List CsrRow := userCsrs c ++ supervisorCsrs c ++ machineCsrs c

/-- The row of an address, if a register is implemented there. -/
def csrAt (c : Config) (a : CsrAddr) : Option CsrRow := (csrRows c).find? fun r => r.addr == a && r.present

/-- The lowest privilege level that may access an address, `a[9:8]` (R27). -/
def csrLevel (a : CsrAddr) : Nat := (a.extractLsb' 8 2).toNat

/-- Whether an address is one of the floating-point CSRs. -/
def isFpCsr (a : CsrAddr) : Bool := a == 0x001#12 || a == 0x002#12 || a == 0x003#12

/-- `CsrCheck` of R30 and `FpCheck` (12_supervisor_csrs.md R170): the register, or none where the access raises
illegal instruction. -/
def State.csrCheck (s : State) (a : CsrAddr) (isWrite : Bool) : Option Csr :=
  match csrAt s.cfg a with
  | none => none
  | some r =>
    if decide (s.prv.level < csrLevel a) || (isWrite && r.readOnly) ||
        s.cfg.trapLower.contains (a, s.prv, isWrite) || (isFpCsr a && decide (s.mstatus.fs = .off)) then none
    else some r.reg

end Sys2Proof.Machine
end

