-- ==== Sys2Proof/Machine/Csr.lean ====
section
/-! DEFINITION. What a read of each CSR returns and what a write stores (40_csr_instructions.md R303). -/

namespace Sys2Proof.Machine

/-- One bit as a word at position `n`. -/
def bitAt (b : Bool) (n : Nat) : Word := if b then 1#64 <<< n else 0

/-! ## mstatus and sstatus (11_machine_csrs.md R71, R89; 12_supervisor_csrs.md R140, R144) -/

/-- PRVn and IEn, three bits. -/
def StackEntry.bits (e : StackEntry) : BitVec 3 := e.prv.code ++ BitVec.ofBool e.ie

/-- The value a read of `mstatus` returns. -/
def Mstatus.value (m : Mstatus) (c : Config) : Word :=
  (m.vm.code ++ BitVec.ofBool m.mprv ++ m.xs.code ++ m.fs.code ++ 0#3 ++
    (if c.depth = 3 then m.e2.bits else 0#3) ++ m.e1.bits ++ m.e0.bits).setWidth 64 |||
  (if m.sd then c.signBit else 0)

/-- A write of entry `n`, from `v[3n+2:3n]`: the PRV fields are hardwired on an M-only implementation (R72), and
an unsupported mode is refused (R32, R89). -/
def StackEntry.written (old : StackEntry) (c : Config) (v : BitVec 3) : Option StackEntry :=
  if c.modes = .m then some ⟨old.prv, v.getLsbD 0⟩
  else
    match Priv.ofCode (v.extractLsb' 1 2) with
    | some p => if c.supports p then some ⟨p, v.getLsbD 0⟩ else none
    | none => none

/-- A write of `VM`: a value not in `VMS` is refused (R32, R78). -/
def schemeWritten (c : Config) (v : BitVec 5) : Option Scheme :=
  match Scheme.ofCode v with
  | some vm => if c.supportsScheme vm then some vm else none
  | none => none

/-- A write of FS, hardwired to 0 without a floating-point unit (R82). -/
def fsWritten (c : Config) (v : Word) : CtxStatus :=
  if c.hasF then CtxStatus.ofCode (v.extractLsb' 12 2) else .off

/-- A write of XS, hardwired to 0 without other extension state (R82). -/
def xsWritten (c : Config) (v : Word) : CtxStatus :=
  if c.hasXs then CtxStatus.ofCode (v.extractLsb' 14 2) else .off

/-- A write of `mstatus` (R89); none where a model refuses it. -/
def Mstatus.written (m : Mstatus) (c : Config) (v : Word) : Option Mstatus :=
  match m.e0.written c (v.extractLsb' 0 3), m.e1.written c (v.extractLsb' 3 3),
      (if c.depth = 3 then m.e2.written c (v.extractLsb' 6 3) else some m.e2),
      schemeWritten c (v.extractLsb' 17 5) with
  | some e0, some e1, some e2, some vm =>
    some { e0 := e0, e1 := e1, e2 := e2, fs := fsWritten c v, xs := xsWritten c v, mprv := v.getLsbD 16, vm := vm }
  | _, _, _, _ => none

/-- The value a read of `sstatus` returns (R144). -/
def Mstatus.supervisorValue (m : Mstatus) (c : Config) : Word :=
  bitAt m.e0.ie 0 ||| bitAt m.e1.ie 3 ||| bitAt (decide (m.e1.prv ≠ .user)) 4 |||
  (m.xs.code ++ m.fs.code ++ 0#12).setWidth 64 ||| bitAt m.mprv 16 |||
  (if m.sd then c.signBit else 0)

/-- A write of `sstatus` (R144, R146). -/
def Mstatus.supervisorWritten (m : Mstatus) (c : Config) (v : Word) : Mstatus :=
  { m with
    e0 := ⟨m.e0.prv, v.getLsbD 0⟩
    e1 := ⟨if v.getLsbD 4 then .supervisor else .user, v.getLsbD 3⟩
    fs := fsWritten c v
    xs := xsWritten c v
    mprv := v.getLsbD 16 }

/-! ## mtvec, the trap registers, the interrupt registers -/

/-- The bits `l` and below of R94, with `l` the highest writable bit under the sign bit. -/
def mtvecLow (c : Config) : Word :=
  BitVec.ofNat 64 (2 ^ (max 1 (c.mtvecMask.toNat % 2 ^ (c.xlen - 1)).log2 + 1) - 1)

/-- A write of `mtvec` (11_machine_csrs.md R94; log 29): writable bits are taken, the sign bit is copied into the
bits above `l`, the other bits keep their hardwired value, and bits 1:0 are zero. -/
def mtvecWritten (c : Config) (old v : Word) : Word :=
  if c.mtvecMask = 0 then old
  else
    let low := ((old &&& ~~~c.mtvecMask) ||| (v &&& c.mtvecMask)) &&& mtvecLow c
    let high := if v &&& c.signBit ≠ 0 then ~~~mtvecLow c else 0
    c.norm ((low ||| high) &&& ~~~3#64)

/-- Bits 1:0 cleared: `mepc`, `sepc`, `stvec` (R120, R157, R147). -/
def align4 (v : Word) : Word := v &&& ~~~3#64

/-- Bits 11:0 cleared: `sptbr` (R162). -/
def align4096 (v : Word) : Word := v &&& ~~~0xFFF#64

/-- The value of a cause register (R123, R124). -/
def Cause.value (k : Cause) (c : Config) : Word := (if k.interrupt then c.signBit else 0) ||| k.code.setWidth 64

/-- A write of `mcause`: bits XLEN-2:4 ignore it (R123). -/
def Cause.written (c : Config) (v : Word) : Cause := ⟨decide (v &&& c.signBit ≠ 0), v.setWidth 4⟩

/-- The value of `mip` or `mie` (R107). -/
def IrqBits.value (b : IrqBits) : Word := bitAt b.ssi 1 ||| bitAt b.msi 3 ||| bitAt b.sti 5 ||| bitAt b.mti 7

/-- The value of `sip` or `sie` (R150). -/
def IrqBits.supervisorValue (b : IrqBits) : Word := bitAt b.ssi 1 ||| bitAt b.sti 5

/-- A write of `mie` (R106, R109). -/
def mieWritten (c : Config) (v : Word) : IrqBits :=
  { ssi := c.hasS && v.getLsbD 1, msi := v.getLsbD 3, sti := c.hasS && v.getLsbD 5, mti := v.getLsbD 7 }

/-- A write of `mip`: only the software-interrupt bits (R105, R108, R110). -/
def IrqBits.mipWritten (b : IrqBits) (c : Config) (v : Word) : IrqBits :=
  { b with ssi := c.hasS && v.getLsbD 1, msi := v.getLsbD 3 }

/-! ## 64-bit counters (10_state.md R38) -/

/-- Bits 63:32. -/
def highHalf (v : BitVec 64) : Word := v >>> 32

/-- A write at the base address: the whole counter, or bits 31:0 with XLEN = 32. -/
def counterWritten (c : Config) (old : BitVec 64) (v : Word) : BitVec 64 :=
  if c.rv64 then v else old.extractLsb' 32 32 ++ v.setWidth 32

/-- A write at the high-half address. -/
def counterHighWritten (old : BitVec 64) (v : Word) : BitVec 64 := v.setWidth 32 ++ old.setWidth 32

/-- The bits of `sasid` (R163). -/
def asidMask (c : Config) : Word := BitVec.ofNat 64 (2 ^ c.asidLen - 1)

/-! ## CsrRead and CsrWrite -/

/-- `CsrRead`, before it is taken modulo 2^XLEN. -/
def State.csrRaw (s : State) : Csr → Word
  | .fflags => s.fflags.setWidth 64
  | .frm => s.frm.setWidth 64
  | .fcsr => s.fcsr.setWidth 64
  | .cycle => s.cycle
  | .time => s.time
  | .instret => s.instret
  | .cycleh => highHalf s.cycle
  | .timeh => highHalf s.time
  | .instreth => highHalf s.instret
  | .sstatus => s.mstatus.supervisorValue s.cfg
  | .stvec => s.stvec
  | .sie => s.mie.supervisorValue
  | .stimecmp => s.stimecmp.setWidth 64
  | .stime => s.stime
  | .stimeh => highHalf s.stime
  | .sscratch => s.sscratch
  | .sepc => s.sepc
  | .scause => s.scause.value s.cfg
  | .sbadaddr => s.sbadaddr
  | .sip => s.mip.supervisorValue
  | .sptbr => s.sptbr
  | .sasid => s.sasid
  | .mcpuid => s.cfg.mcpuid
  | .mimpid => s.cfg.mimpid
  | .mhartid => s.cfg.mhartid
  | .mstatus => s.mstatus.value s.cfg
  | .mtvec => s.mtvec
  | .mtdeleg => s.mtdeleg
  | .mie => s.mie.value
  | .mtimecmp => s.mtimecmp.setWidth 64
  | .mtime => s.mtime
  | .mtimeh => highHalf s.mtime
  | .mscratch => s.mscratch
  | .mepc => s.mepc
  | .mcause => s.mcause.value s.cfg
  | .mbadaddr => s.mbadaddr
  | .mip => s.mip.value
  | .mbase => if s.cfg.hasMbbid then s.mdbase else s.mbase
  | .mbound => if s.cfg.hasMbbid then s.mdbound else s.mbound
  | .mibase => s.mibase
  | .mibound => s.mibound
  | .mdbase => s.mdbase
  | .mdbound => s.mdbound
  | .mtohost => s.mtohost
  | .mfromhost => s.mfromhost

/-- `CsrRead`, zero-extended to XLEN (40_csr_instructions.md R299). -/
def State.csrRead (s : State) (r : Csr) : Word := s.cfg.norm (s.csrRaw r)

/-- `CsrWrite` of a value modulo 2^XLEN: only writable bits change (R300), with the side effects of R301. None:
the model refuses the write (R32). The registers that are read-only at every address never come here. -/
def State.csrWrite (s : State) (r : Csr) (v : Word) : Option State :=
  match r with
  | .fflags => some ({ s with fflags := v.setWidth 5 }).dirtyFs
  | .frm => some ({ s with frm := v.setWidth 3 }).dirtyFs
  | .fcsr => some ({ s with fflags := v.setWidth 5, frm := v.extractLsb' 5 3 }).dirtyFs
  | .cycle => some { s with cycle := counterWritten s.cfg s.cycle v }
  | .time => some { s with time := counterWritten s.cfg s.time v }
  | .instret => some { s with instret := counterWritten s.cfg s.instret v }
  | .cycleh => some { s with cycle := counterHighWritten s.cycle v }
  | .timeh => some { s with time := counterHighWritten s.time v }
  | .instreth => some { s with instret := counterHighWritten s.instret v }
  | .sstatus => some (s.setMstatus (s.mstatus.supervisorWritten s.cfg v))
  | .stvec => some { s with stvec := align4 v }
  | .sie => some { s with mie := { s.mie with ssi := v.getLsbD 1, sti := v.getLsbD 5 } }
  | .stimecmp =>
    some ({ s with stimecmp := v.setWidth 32, mip := { s.mip with sti := false } }).latchTimers
  | .stime => some ({ s with stime := counterWritten s.cfg s.stime v }).latchTimers
  | .stimeh => some ({ s with stime := counterHighWritten s.stime v }).latchTimers
  | .sscratch => some { s with sscratch := v }
  | .sepc => some { s with sepc := align4 v }
  | .scause => some s
  | .sbadaddr => some s
  | .sip => some { s with mip := { s.mip with ssi := v.getLsbD 1 } }
  | .sptbr => some { s with sptbr := align4096 v }
  | .sasid => some { s with sasid := v &&& asidMask s.cfg }
  | .mcpuid => some s
  | .mimpid => some s
  | .mhartid => some s
  | .mstatus =>
    match s.mstatus.written s.cfg v with
    | some m => some (s.setMstatus m)
    | none => none
  | .mtvec => some { s with mtvec := mtvecWritten s.cfg s.mtvec v }
  | .mtdeleg => some { s with mtdeleg := v &&& s.cfg.mtdelegMask }
  | .mie => some { s with mie := mieWritten s.cfg v }
  | .mtimecmp =>
    some ({ s with mtimecmp := v.setWidth 32, mip := { s.mip with mti := false } }).latchTimers
  | .mtime => some ({ s with mtime := counterWritten s.cfg s.mtime v }).latchTimers
  | .mtimeh => some ({ s with mtime := counterHighWritten s.mtime v }).latchTimers
  | .mscratch => some { s with mscratch := v }
  | .mepc => some { s with mepc := align4 v }
  | .mcause => some { s with mcause := Cause.written s.cfg v }
  | .mbadaddr => some { s with mbadaddr := v }
  | .mip => some { s with mip := s.mip.mipWritten s.cfg v }
  | .mbase => if s.cfg.hasMbbid then some { s with mibase := v, mdbase := v } else some { s with mbase := v }
  | .mbound => if s.cfg.hasMbbid then some { s with mibound := v, mdbound := v } else some { s with mbound := v }
  | .mibase => some { s with mibase := v }
  | .mibound => some { s with mibound := v }
  | .mdbase => some { s with mdbase := v }
  | .mdbound => some { s with mdbound := v }
  | .mtohost => some { s with mtohost := v }
  | .mfromhost => some { s with mfromhost := v }

end Sys2Proof.Machine
end

