-- ==== Sys2Proof/Machine/CsrInstr.lean ====
section
/-! DEFINITION. CSRRW, CSRRS, CSRRC and their immediate forms (40_csr_instructions.md R290 to R304). -/

namespace Sys2Proof.Machine

/-- `op` of CSRRW. -/
def csrSwap (_old v : Word) : Word := v

/-- `op` of CSRRS. -/
def csrSet (old v : Word) : Word := old ||| v

/-- `op` of CSRRC. -/
def csrClear (old v : Word) : Word := old &&& ~~~v

/-- A CSR instruction completes: `x[rd] <- old; pc <- pc + 4`. One that writes `instret` drops its own increment
(12_supervisor_csrs.md R172; log 19). -/
def csrFinish (wrote : Bool) (r : Csr) (rd : Reg) (old : Word) (t : State) : State :=
  if wrote && (decide (r = .instret) || decide (r = .instreth)) then (t.setX rd old).setPc (t.pc + 4)
  else (t.setX rd old).advance

/-- `CsrInstr` of R290. -/
def csrInstr (a : CsrAddr) (rd : Reg) (sources : List Reg) (operand : Word) (op : Word → Word → Word)
    (isWrite : Bool) (s : State) : Result :=
  if !s.hasRegs (rd :: sources) then .next s.illegal
  else
    match s.csrCheck a isWrite with
    | none => .next s.illegal
    | some r =>
      let old := s.csrRead r
      if isWrite then
        match s.csrWrite r (op old operand) with
        | none => .refused .unsupportedStatusValue
        | some t => .next (csrFinish true r rd old t)
      else .next (csrFinish false r rd old s)

/-- R292. -/
def execCsrrw (rd : Reg) (csr : CsrAddr) (rs1 : Reg) (s : State) : Result :=
  csrInstr csr rd [rs1] (s.readX rs1) csrSwap true s

/-- R293; whether it writes depends on the register number (R291). -/
def execCsrrs (rd : Reg) (csr : CsrAddr) (rs1 : Reg) (s : State) : Result :=
  csrInstr csr rd [rs1] (s.readX rs1) csrSet (decide (rs1 ≠ 0)) s

/-- R294. -/
def execCsrrc (rd : Reg) (csr : CsrAddr) (rs1 : Reg) (s : State) : Result :=
  csrInstr csr rd [rs1] (s.readX rs1) csrClear (decide (rs1 ≠ 0)) s

/-- R295; a zero immediate does not write unless `CSRRWI_ZERO_WRITES` (R291; log 33). -/
def execCsrrwi (rd : Reg) (csr : CsrAddr) (zimm : BitVec 5) (s : State) : Result :=
  csrInstr csr rd [] (zimmValue zimm) csrSwap (decide (zimm ≠ 0) || s.cfg.csrrwiZeroWrites) s

/-- R296. -/
def execCsrrsi (rd : Reg) (csr : CsrAddr) (zimm : BitVec 5) (s : State) : Result :=
  csrInstr csr rd [] (zimmValue zimm) csrSet (decide (zimm ≠ 0)) s

/-- R297. -/
def execCsrrci (rd : Reg) (csr : CsrAddr) (zimm : BitVec 5) (s : State) : Result :=
  csrInstr csr rd [] (zimmValue zimm) csrClear (decide (zimm ≠ 0)) s

end Sys2Proof.Machine
end

