-- ==== Sys2Proof/Machine/Fence.lean ====
section
/-! DEFINITION. Fences (46_base_isa_general_knowledge.md R430, R431). -/

namespace Sys2Proof.Machine

/-- R430: every access is already performed in program order, so no state changes but the pc and `instret`. The
operands order nothing here; fields that should be zero are ignored (log 14). -/
def execFence (_fm _pred _succ : BitVec 4) (_rs1 _rd : Reg) (s : State) : Result := .next s.advance

/-- R431: a store is seen by the next fetch already (20_memory.md R213). -/
def execFenceI (_imm : BitVec 12) (_rs1 _rd : Reg) (s : State) : Result := .next s.advance

end Sys2Proof.Machine
end

