-- ==== Sys2Proof/Syntax.lean ====
section
/-! DEFINITION. The instructions: one constructor per row of spec/opcode_table.json. -/

namespace Sys2Proof

/-- The instructions of 30_encoding.md R275, R276 (SYSTEM) and of 46_base_isa_general_knowledge.md
(the base ISA). Operands are the fields of the encoding, immediates put in order (R372). -/
inductive Instr where
  -- 40_csr_instructions.md R292 to R297
  | csrrw (rd : Reg) (csr : CsrAddr) (rs1 : Reg)
  | csrrs (rd : Reg) (csr : CsrAddr) (rs1 : Reg)
  | csrrc (rd : Reg) (csr : CsrAddr) (rs1 : Reg)
  | csrrwi (rd : Reg) (csr : CsrAddr) (zimm : BitVec 5)
  | csrrsi (rd : Reg) (csr : CsrAddr) (zimm : BitVec 5)
  | csrrci (rd : Reg) (csr : CsrAddr) (zimm : BitVec 5)
  -- 41_privilege_change.md R311, R314, R315; 44_sfence_vm.md R340; 43_wfi.md R330; 42_trap_redirect.md
  | ecall
  | ebreak
  | eret
  | sfenceVm (rs1 : Reg)
  | wfi
  | hrts
  | mrts
  | mrth
  -- R380 to R383; the immediates of LUI and AUIPC are bits 31:12
  | lui (rd : Reg) (imm : BitVec 20)
  | auipc (rd : Reg) (imm : BitVec 20)
  | jal (rd : Reg) (offset : BitVec 21)
  | jalr (rd : Reg) (rs1 : Reg) (imm : BitVec 12)
  -- R384 to R389
  | beq (rs1 : Reg) (rs2 : Reg) (offset : BitVec 13)
  | bne (rs1 : Reg) (rs2 : Reg) (offset : BitVec 13)
  | blt (rs1 : Reg) (rs2 : Reg) (offset : BitVec 13)
  | bge (rs1 : Reg) (rs2 : Reg) (offset : BitVec 13)
  | bltu (rs1 : Reg) (rs2 : Reg) (offset : BitVec 13)
  | bgeu (rs1 : Reg) (rs2 : Reg) (offset : BitVec 13)
  -- R390 to R397
  | lb (rd : Reg) (rs1 : Reg) (imm : BitVec 12)
  | lh (rd : Reg) (rs1 : Reg) (imm : BitVec 12)
  | lw (rd : Reg) (rs1 : Reg) (imm : BitVec 12)
  | lbu (rd : Reg) (rs1 : Reg) (imm : BitVec 12)
  | lhu (rd : Reg) (rs1 : Reg) (imm : BitVec 12)
  | sb (rs1 : Reg) (rs2 : Reg) (imm : BitVec 12)
  | sh (rs1 : Reg) (rs2 : Reg) (imm : BitVec 12)
  | sw (rs1 : Reg) (rs2 : Reg) (imm : BitVec 12)
  -- R398 to R406
  | addi (rd : Reg) (rs1 : Reg) (imm : BitVec 12)
  | slti (rd : Reg) (rs1 : Reg) (imm : BitVec 12)
  | sltiu (rd : Reg) (rs1 : Reg) (imm : BitVec 12)
  | xori (rd : Reg) (rs1 : Reg) (imm : BitVec 12)
  | ori (rd : Reg) (rs1 : Reg) (imm : BitVec 12)
  | andi (rd : Reg) (rs1 : Reg) (imm : BitVec 12)
  | slli (rd : Reg) (rs1 : Reg) (shamt : BitVec 6)
  | srli (rd : Reg) (rs1 : Reg) (shamt : BitVec 6)
  | srai (rd : Reg) (rs1 : Reg) (shamt : BitVec 6)
  -- R407 to R416
  | add (rd : Reg) (rs1 : Reg) (rs2 : Reg)
  | sub (rd : Reg) (rs1 : Reg) (rs2 : Reg)
  | sll (rd : Reg) (rs1 : Reg) (rs2 : Reg)
  | slt (rd : Reg) (rs1 : Reg) (rs2 : Reg)
  | sltu (rd : Reg) (rs1 : Reg) (rs2 : Reg)
  | xor (rd : Reg) (rs1 : Reg) (rs2 : Reg)
  | srl (rd : Reg) (rs1 : Reg) (rs2 : Reg)
  | sra (rd : Reg) (rs1 : Reg) (rs2 : Reg)
  | or (rd : Reg) (rs1 : Reg) (rs2 : Reg)
  | and (rd : Reg) (rs1 : Reg) (rs2 : Reg)
  -- R417 to R428, RV64 only
  | lwu (rd : Reg) (rs1 : Reg) (imm : BitVec 12)
  | ld (rd : Reg) (rs1 : Reg) (imm : BitVec 12)
  | sd (rs1 : Reg) (rs2 : Reg) (imm : BitVec 12)
  | addiw (rd : Reg) (rs1 : Reg) (imm : BitVec 12)
  | slliw (rd : Reg) (rs1 : Reg) (shamt : BitVec 5)
  | srliw (rd : Reg) (rs1 : Reg) (shamt : BitVec 5)
  | sraiw (rd : Reg) (rs1 : Reg) (shamt : BitVec 5)
  | addw (rd : Reg) (rs1 : Reg) (rs2 : Reg)
  | subw (rd : Reg) (rs1 : Reg) (rs2 : Reg)
  | sllw (rd : Reg) (rs1 : Reg) (rs2 : Reg)
  | srlw (rd : Reg) (rs1 : Reg) (rs2 : Reg)
  | sraw (rd : Reg) (rs1 : Reg) (rs2 : Reg)
  -- R430, R431; `fm`, `rs1`, `rd` are the fields R430 says are zero
  | fence (fm pred succ : BitVec 4) (rs1 : Reg) (rd : Reg)
  | fenceI (imm : BitVec 12) (rs1 : Reg) (rd : Reg)
deriving DecidableEq, Repr

/-- Why the decoder refuses a word. The step turns each into the illegal-instruction exception
(30_encoding.md R277; 45_base_isa_interface.md R355). -/
inductive DecodeError where
  /-- A SYSTEM word that 30_encoding.md R277 leaves reserved. -/
  | reservedSystem
  /-- A word of a 16-bit encoding, or of no major opcode R373 lists (R355, R432). -/
  | unknownOpcode
  /-- A major opcode of R373 with function fields no row lists (R355, R370). -/
  | reservedFunction
  /-- Fewer than four bytes. -/
  | truncated
deriving DecidableEq, Repr

end Sys2Proof
end

