-- ==== Sys2Proof/WellFormed.lean ====
section
/-! DEFINITION. Which instruction terms the encodings admit. -/

namespace Sys2Proof

/-- The lowest bit of a branch or jump offset is not encoded and is zero (R372, immB and immJ). -/
def evenOffset {n : Nat} (offset : BitVec n) : Bool := !offset.getLsbD 0

/-- An instruction the encodings admit: even branch and jump offsets (R372), and zero in the fields of
FENCE that R430 says are zero. Every other operand admits every value of its field. -/
def Instr.wellFormed : Instr → Bool
  | .jal _ offset => evenOffset offset
  | .beq _ _ offset => evenOffset offset
  | .bne _ _ offset => evenOffset offset
  | .blt _ _ offset => evenOffset offset
  | .bge _ _ offset => evenOffset offset
  | .bltu _ _ offset => evenOffset offset
  | .bgeu _ _ offset => evenOffset offset
  | .fence fm _ _ rs1 rd => fm == 0 && rs1 == 0 && rd == 0
  | .csrrw .. | .csrrs .. | .csrrc .. | .csrrwi .. | .csrrsi .. | .csrrci .. => true
  | .ecall | .ebreak | .eret | .sfenceVm .. | .wfi | .hrts | .mrts | .mrth => true
  | .lui .. | .auipc .. | .jalr .. => true
  | .lb .. | .lh .. | .lw .. | .lbu .. | .lhu .. | .sb .. | .sh .. | .sw .. => true
  | .addi .. | .slti .. | .sltiu .. | .xori .. | .ori .. | .andi .. => true
  | .slli .. | .srli .. | .srai .. => true
  | .add .. | .sub .. | .sll .. | .slt .. | .sltu .. | .xor .. | .srl .. | .sra .. | .or .. | .and .. => true
  | .lwu .. | .ld .. | .sd .. | .addiw .. | .slliw .. | .srliw .. | .sraiw .. => true
  | .addw .. | .subw .. | .sllw .. | .srlw .. | .sraw .. => true
  | .fenceI .. => true

end Sys2Proof
end

