-- ==== Sys2Proof/Decode.lean ====
section
/-! DEFINITION. Words to instructions (30_encoding.md R276; 46_base_isa_general_knowledge.md R371 to R373),
and the encoder. The decoder does not depend on the configuration: an RV64-only row decodes everywhere, and
its meaning raises illegal instruction with XLEN = 32 (log 13). -/

namespace Sys2Proof

/-! ## Fields (R271, R371, R372) -/

def fieldRd (w : Insn) : Reg := w.extractLsb' 7 5
def fieldRs1 (w : Insn) : Reg := w.extractLsb' 15 5
def fieldRs2 (w : Insn) : Reg := w.extractLsb' 20 5
def fieldCsr (w : Insn) : CsrAddr := w.extractLsb' 20 12
def fieldImmI (w : Insn) : BitVec 12 := w.extractLsb' 20 12
def fieldImmS (w : Insn) : BitVec 12 := w.extractLsb' 25 7 ++ w.extractLsb' 7 5
def fieldImmB (w : Insn) : BitVec 13 :=
  w.extractLsb' 31 1 ++ w.extractLsb' 7 1 ++ w.extractLsb' 25 6 ++ w.extractLsb' 8 4 ++ 0#1
def fieldImmU (w : Insn) : BitVec 20 := w.extractLsb' 12 20
def fieldImmJ (w : Insn) : BitVec 21 :=
  w.extractLsb' 31 1 ++ w.extractLsb' 12 8 ++ w.extractLsb' 20 1 ++ w.extractLsb' 21 10 ++ 0#1
def fieldShamt6 (w : Insn) : BitVec 6 := w.extractLsb' 20 6
def fieldShamt5 (w : Insn) : BitVec 5 := w.extractLsb' 20 5
def fieldFm (w : Insn) : BitVec 4 := w.extractLsb' 28 4
def fieldPred (w : Insn) : BitVec 4 := w.extractLsb' 24 4
def fieldSucc (w : Insn) : BitVec 4 := w.extractLsb' 20 4

/-! ## The opcode table -/

/-- One row: the bits that select it, their values, and the instruction its fields make. -/
structure Row where
  mask : Insn
  pattern : Insn
  build : Insn → Instr

/-- Whether a word is one of the row's. -/
def Row.selects (r : Row) (w : Insn) : Bool := w &&& r.mask == r.pattern

/-- 30_encoding.md R276. -/
def systemRows : List Row :=
  [ ⟨0x0000707F#32, 0x00001073#32, fun w => .csrrw (fieldRd w) (fieldCsr w) (fieldRs1 w)⟩
  , ⟨0x0000707F#32, 0x00002073#32, fun w => .csrrs (fieldRd w) (fieldCsr w) (fieldRs1 w)⟩
  , ⟨0x0000707F#32, 0x00003073#32, fun w => .csrrc (fieldRd w) (fieldCsr w) (fieldRs1 w)⟩
  , ⟨0x0000707F#32, 0x00005073#32, fun w => .csrrwi (fieldRd w) (fieldCsr w) (fieldRs1 w)⟩
  , ⟨0x0000707F#32, 0x00006073#32, fun w => .csrrsi (fieldRd w) (fieldCsr w) (fieldRs1 w)⟩
  , ⟨0x0000707F#32, 0x00007073#32, fun w => .csrrci (fieldRd w) (fieldCsr w) (fieldRs1 w)⟩
  , ⟨0xFFFFFFFF#32, 0x00000073#32, fun _ => .ecall⟩
  , ⟨0xFFFFFFFF#32, 0x00100073#32, fun _ => .ebreak⟩
  , ⟨0xFFFFFFFF#32, 0x10000073#32, fun _ => .eret⟩
  , ⟨0xFFF07FFF#32, 0x10100073#32, fun w => .sfenceVm (fieldRs1 w)⟩
  , ⟨0xFFFFFFFF#32, 0x10200073#32, fun _ => .wfi⟩
  , ⟨0xFFFFFFFF#32, 0x20500073#32, fun _ => .hrts⟩
  , ⟨0xFFFFFFFF#32, 0x30500073#32, fun _ => .mrts⟩
  , ⟨0xFFFFFFFF#32, 0x30600073#32, fun _ => .mrth⟩ ]

/-- R380 to R389. -/
def jumpRows : List Row :=
  [ ⟨0x0000007F#32, 0x00000037#32, fun w => .lui (fieldRd w) (fieldImmU w)⟩
  , ⟨0x0000007F#32, 0x00000017#32, fun w => .auipc (fieldRd w) (fieldImmU w)⟩
  , ⟨0x0000007F#32, 0x0000006F#32, fun w => .jal (fieldRd w) (fieldImmJ w)⟩
  , ⟨0x0000707F#32, 0x00000067#32, fun w => .jalr (fieldRd w) (fieldRs1 w) (fieldImmI w)⟩
  , ⟨0x0000707F#32, 0x00000063#32, fun w => .beq (fieldRs1 w) (fieldRs2 w) (fieldImmB w)⟩
  , ⟨0x0000707F#32, 0x00001063#32, fun w => .bne (fieldRs1 w) (fieldRs2 w) (fieldImmB w)⟩
  , ⟨0x0000707F#32, 0x00004063#32, fun w => .blt (fieldRs1 w) (fieldRs2 w) (fieldImmB w)⟩
  , ⟨0x0000707F#32, 0x00005063#32, fun w => .bge (fieldRs1 w) (fieldRs2 w) (fieldImmB w)⟩
  , ⟨0x0000707F#32, 0x00006063#32, fun w => .bltu (fieldRs1 w) (fieldRs2 w) (fieldImmB w)⟩
  , ⟨0x0000707F#32, 0x00007063#32, fun w => .bgeu (fieldRs1 w) (fieldRs2 w) (fieldImmB w)⟩ ]

/-- R390 to R397. -/
def memoryRows : List Row :=
  [ ⟨0x0000707F#32, 0x00000003#32, fun w => .lb (fieldRd w) (fieldRs1 w) (fieldImmI w)⟩
  , ⟨0x0000707F#32, 0x00001003#32, fun w => .lh (fieldRd w) (fieldRs1 w) (fieldImmI w)⟩
  , ⟨0x0000707F#32, 0x00002003#32, fun w => .lw (fieldRd w) (fieldRs1 w) (fieldImmI w)⟩
  , ⟨0x0000707F#32, 0x00004003#32, fun w => .lbu (fieldRd w) (fieldRs1 w) (fieldImmI w)⟩
  , ⟨0x0000707F#32, 0x00005003#32, fun w => .lhu (fieldRd w) (fieldRs1 w) (fieldImmI w)⟩
  , ⟨0x0000707F#32, 0x00000023#32, fun w => .sb (fieldRs1 w) (fieldRs2 w) (fieldImmS w)⟩
  , ⟨0x0000707F#32, 0x00001023#32, fun w => .sh (fieldRs1 w) (fieldRs2 w) (fieldImmS w)⟩
  , ⟨0x0000707F#32, 0x00002023#32, fun w => .sw (fieldRs1 w) (fieldRs2 w) (fieldImmS w)⟩ ]

/-- R398 to R406. -/
def immediateRows : List Row :=
  [ ⟨0x0000707F#32, 0x00000013#32, fun w => .addi (fieldRd w) (fieldRs1 w) (fieldImmI w)⟩
  , ⟨0x0000707F#32, 0x00002013#32, fun w => .slti (fieldRd w) (fieldRs1 w) (fieldImmI w)⟩
  , ⟨0x0000707F#32, 0x00003013#32, fun w => .sltiu (fieldRd w) (fieldRs1 w) (fieldImmI w)⟩
  , ⟨0x0000707F#32, 0x00004013#32, fun w => .xori (fieldRd w) (fieldRs1 w) (fieldImmI w)⟩
  , ⟨0x0000707F#32, 0x00006013#32, fun w => .ori (fieldRd w) (fieldRs1 w) (fieldImmI w)⟩
  , ⟨0x0000707F#32, 0x00007013#32, fun w => .andi (fieldRd w) (fieldRs1 w) (fieldImmI w)⟩
  , ⟨0xFC00707F#32, 0x00001013#32, fun w => .slli (fieldRd w) (fieldRs1 w) (fieldShamt6 w)⟩
  , ⟨0xFC00707F#32, 0x00005013#32, fun w => .srli (fieldRd w) (fieldRs1 w) (fieldShamt6 w)⟩
  , ⟨0xFC00707F#32, 0x40005013#32, fun w => .srai (fieldRd w) (fieldRs1 w) (fieldShamt6 w)⟩ ]

/-- R407 to R416. -/
def registerRows : List Row :=
  [ ⟨0xFE00707F#32, 0x00000033#32, fun w => .add (fieldRd w) (fieldRs1 w) (fieldRs2 w)⟩
  , ⟨0xFE00707F#32, 0x40000033#32, fun w => .sub (fieldRd w) (fieldRs1 w) (fieldRs2 w)⟩
  , ⟨0xFE00707F#32, 0x00001033#32, fun w => .sll (fieldRd w) (fieldRs1 w) (fieldRs2 w)⟩
  , ⟨0xFE00707F#32, 0x00002033#32, fun w => .slt (fieldRd w) (fieldRs1 w) (fieldRs2 w)⟩
  , ⟨0xFE00707F#32, 0x00003033#32, fun w => .sltu (fieldRd w) (fieldRs1 w) (fieldRs2 w)⟩
  , ⟨0xFE00707F#32, 0x00004033#32, fun w => .xor (fieldRd w) (fieldRs1 w) (fieldRs2 w)⟩
  , ⟨0xFE00707F#32, 0x00005033#32, fun w => .srl (fieldRd w) (fieldRs1 w) (fieldRs2 w)⟩
  , ⟨0xFE00707F#32, 0x40005033#32, fun w => .sra (fieldRd w) (fieldRs1 w) (fieldRs2 w)⟩
  , ⟨0xFE00707F#32, 0x00006033#32, fun w => .or (fieldRd w) (fieldRs1 w) (fieldRs2 w)⟩
  , ⟨0xFE00707F#32, 0x00007033#32, fun w => .and (fieldRd w) (fieldRs1 w) (fieldRs2 w)⟩ ]

/-- R417 to R428. -/
def wordRows : List Row :=
  [ ⟨0x0000707F#32, 0x00006003#32, fun w => .lwu (fieldRd w) (fieldRs1 w) (fieldImmI w)⟩
  , ⟨0x0000707F#32, 0x00003003#32, fun w => .ld (fieldRd w) (fieldRs1 w) (fieldImmI w)⟩
  , ⟨0x0000707F#32, 0x00003023#32, fun w => .sd (fieldRs1 w) (fieldRs2 w) (fieldImmS w)⟩
  , ⟨0x0000707F#32, 0x0000001B#32, fun w => .addiw (fieldRd w) (fieldRs1 w) (fieldImmI w)⟩
  , ⟨0xFE00707F#32, 0x0000101B#32, fun w => .slliw (fieldRd w) (fieldRs1 w) (fieldShamt5 w)⟩
  , ⟨0xFE00707F#32, 0x0000501B#32, fun w => .srliw (fieldRd w) (fieldRs1 w) (fieldShamt5 w)⟩
  , ⟨0xFE00707F#32, 0x4000501B#32, fun w => .sraiw (fieldRd w) (fieldRs1 w) (fieldShamt5 w)⟩
  , ⟨0xFE00707F#32, 0x0000003B#32, fun w => .addw (fieldRd w) (fieldRs1 w) (fieldRs2 w)⟩
  , ⟨0xFE00707F#32, 0x4000003B#32, fun w => .subw (fieldRd w) (fieldRs1 w) (fieldRs2 w)⟩
  , ⟨0xFE00707F#32, 0x0000103B#32, fun w => .sllw (fieldRd w) (fieldRs1 w) (fieldRs2 w)⟩
  , ⟨0xFE00707F#32, 0x0000503B#32, fun w => .srlw (fieldRd w) (fieldRs1 w) (fieldRs2 w)⟩
  , ⟨0xFE00707F#32, 0x4000503B#32, fun w => .sraw (fieldRd w) (fieldRs1 w) (fieldRs2 w)⟩ ]

/-- R430, R431. -/
def fenceRows : List Row :=
  [ ⟨0x0000707F#32, 0x0000000F#32, fun w => .fence (fieldFm w) (fieldPred w) (fieldSucc w) (fieldRs1 w) (fieldRd w)⟩
  , ⟨0x0000707F#32, 0x0000100F#32, fun w => .fenceI (fieldImmI w) (fieldRs1 w) (fieldRd w)⟩ ]

/-- The whole table of spec/opcode_table.json, in its order. -/
def opcodeRows : List Row :=
  systemRows ++ jumpRows ++ memoryRows ++ immediateRows ++ registerRows ++ wordRows ++ fenceRows

/-- The major opcodes of R373. -/
def majorOpcodes : List (BitVec 7) :=
  [0x03#7, 0x0F#7, 0x13#7, 0x17#7, 0x1B#7, 0x23#7, 0x33#7, 0x37#7, 0x3B#7, 0x63#7, 0x67#7, 0x6F#7, 0x73#7]

/-- Why a word that no row selects is refused (R277, R355, R432). -/
def decodeError (w : Insn) : DecodeError :=
  let opcode := w.extractLsb' 0 7
  if opcode = 0x73#7 then .reservedSystem
  else if majorOpcodes.contains opcode then .reservedFunction
  else .unknownOpcode

/-- The instruction of a word (R276). -/
def decode (w : Insn) : Except DecodeError Instr :=
  match opcodeRows.find? (fun r => r.selects w) with
  | some r => .ok (r.build w)
  | none => .error (decodeError w)

/-! ## Bytes: the byte at the lowest address holds bits 7:0 (20_memory.md R181) -/

/-- The word of four bytes, lowest address first. -/
def insnOfBytes (b0 b1 b2 b3 : Byte) : Insn := b3 ++ b2 ++ b1 ++ b0

/-- The instruction at the head of a byte sequence, and the bytes after it. -/
def decodeBytes : List Byte → Except DecodeError (Instr × List Byte)
  | b0 :: b1 :: b2 :: b3 :: rest =>
    match decode (insnOfBytes b0 b1 b2 b3) with
    | .ok i => .ok (i, rest)
    | .error e => .error e
  | _ => .error .truncated

/-- The four bytes of a word as they lie in memory. -/
def bytesOfInsn (w : Insn) : List Byte :=
  [w.extractLsb' 0 8, w.extractLsb' 8 8, w.extractLsb' 16 8, w.extractLsb' 24 8]

/-- The instruction the decoder reads from a table word `w` of `nbits` bits. -/
def decodeTableWord (nbits w : Nat) : Option Instr :=
  match decodeBytes (bytesOfInsn (BitVec.ofNat 32 (w % 2 ^ nbits))) with
  | .ok (i, _) => some i
  | .error _ => none

/-! ## The encoder (R271, R371) -/

def encodeR (funct7 : BitVec 7) (rs2 rs1 : Reg) (funct3 : BitVec 3) (rd : Reg) (opcode : BitVec 7) : Insn :=
  funct7 ++ rs2 ++ rs1 ++ funct3 ++ rd ++ opcode

def encodeI (imm : BitVec 12) (rs1 : Reg) (funct3 : BitVec 3) (rd : Reg) (opcode : BitVec 7) : Insn :=
  imm ++ rs1 ++ funct3 ++ rd ++ opcode

def encodeS (imm : BitVec 12) (rs2 rs1 : Reg) (funct3 : BitVec 3) (opcode : BitVec 7) : Insn :=
  imm.extractLsb' 5 7 ++ rs2 ++ rs1 ++ funct3 ++ imm.extractLsb' 0 5 ++ opcode

def encodeB (offset : BitVec 13) (rs2 rs1 : Reg) (funct3 : BitVec 3) (opcode : BitVec 7) : Insn :=
  offset.extractLsb' 12 1 ++ offset.extractLsb' 5 6 ++ rs2 ++ rs1 ++ funct3 ++ offset.extractLsb' 1 4 ++
    offset.extractLsb' 11 1 ++ opcode

def encodeU (imm : BitVec 20) (rd : Reg) (opcode : BitVec 7) : Insn := imm ++ rd ++ opcode

def encodeJ (offset : BitVec 21) (rd : Reg) (opcode : BitVec 7) : Insn :=
  offset.extractLsb' 20 1 ++ offset.extractLsb' 1 10 ++ offset.extractLsb' 11 1 ++ offset.extractLsb' 12 8 ++
    rd ++ opcode

/-- The word of a well-formed instruction. -/
def encode : Instr → Insn
  | .csrrw rd csr rs1 => encodeI csr rs1 0x1#3 rd 0x73#7
  | .csrrs rd csr rs1 => encodeI csr rs1 0x2#3 rd 0x73#7
  | .csrrc rd csr rs1 => encodeI csr rs1 0x3#3 rd 0x73#7
  | .csrrwi rd csr zimm => encodeI csr zimm 0x5#3 rd 0x73#7
  | .csrrsi rd csr zimm => encodeI csr zimm 0x6#3 rd 0x73#7
  | .csrrci rd csr zimm => encodeI csr zimm 0x7#3 rd 0x73#7
  | .ecall => encodeI 0x0#12 0 0 0 0x73#7
  | .ebreak => encodeI 0x1#12 0 0 0 0x73#7
  | .eret => encodeI 0x100#12 0 0 0 0x73#7
  | .sfenceVm rs1 => encodeI 0x101#12 rs1 0 0 0x73#7
  | .wfi => encodeI 0x102#12 0 0 0 0x73#7
  | .hrts => encodeI 0x205#12 0 0 0 0x73#7
  | .mrts => encodeI 0x305#12 0 0 0 0x73#7
  | .mrth => encodeI 0x306#12 0 0 0 0x73#7
  | .lui rd imm => encodeU imm rd 0x37#7
  | .auipc rd imm => encodeU imm rd 0x17#7
  | .jal rd offset => encodeJ offset rd 0x6F#7
  | .jalr rd rs1 imm => encodeI imm rs1 0x0#3 rd 0x67#7
  | .beq rs1 rs2 offset => encodeB offset rs2 rs1 0x0#3 0x63#7
  | .bne rs1 rs2 offset => encodeB offset rs2 rs1 0x1#3 0x63#7
  | .blt rs1 rs2 offset => encodeB offset rs2 rs1 0x4#3 0x63#7
  | .bge rs1 rs2 offset => encodeB offset rs2 rs1 0x5#3 0x63#7
  | .bltu rs1 rs2 offset => encodeB offset rs2 rs1 0x6#3 0x63#7
  | .bgeu rs1 rs2 offset => encodeB offset rs2 rs1 0x7#3 0x63#7
  | .lb rd rs1 imm => encodeI imm rs1 0x0#3 rd 0x3#7
  | .lh rd rs1 imm => encodeI imm rs1 0x1#3 rd 0x3#7
  | .lw rd rs1 imm => encodeI imm rs1 0x2#3 rd 0x3#7
  | .lbu rd rs1 imm => encodeI imm rs1 0x4#3 rd 0x3#7
  | .lhu rd rs1 imm => encodeI imm rs1 0x5#3 rd 0x3#7
  | .sb rs1 rs2 imm => encodeS imm rs2 rs1 0x0#3 0x23#7
  | .sh rs1 rs2 imm => encodeS imm rs2 rs1 0x1#3 0x23#7
  | .sw rs1 rs2 imm => encodeS imm rs2 rs1 0x2#3 0x23#7
  | .addi rd rs1 imm => encodeI imm rs1 0x0#3 rd 0x13#7
  | .slti rd rs1 imm => encodeI imm rs1 0x2#3 rd 0x13#7
  | .sltiu rd rs1 imm => encodeI imm rs1 0x3#3 rd 0x13#7
  | .xori rd rs1 imm => encodeI imm rs1 0x4#3 rd 0x13#7
  | .ori rd rs1 imm => encodeI imm rs1 0x6#3 rd 0x13#7
  | .andi rd rs1 imm => encodeI imm rs1 0x7#3 rd 0x13#7
  | .slli rd rs1 shamt => encodeI (0x0#6 ++ shamt) rs1 0x1#3 rd 0x13#7
  | .srli rd rs1 shamt => encodeI (0x0#6 ++ shamt) rs1 0x5#3 rd 0x13#7
  | .srai rd rs1 shamt => encodeI (0x10#6 ++ shamt) rs1 0x5#3 rd 0x13#7
  | .add rd rs1 rs2 => encodeR 0x0#7 rs2 rs1 0x0#3 rd 0x33#7
  | .sub rd rs1 rs2 => encodeR 0x20#7 rs2 rs1 0x0#3 rd 0x33#7
  | .sll rd rs1 rs2 => encodeR 0x0#7 rs2 rs1 0x1#3 rd 0x33#7
  | .slt rd rs1 rs2 => encodeR 0x0#7 rs2 rs1 0x2#3 rd 0x33#7
  | .sltu rd rs1 rs2 => encodeR 0x0#7 rs2 rs1 0x3#3 rd 0x33#7
  | .xor rd rs1 rs2 => encodeR 0x0#7 rs2 rs1 0x4#3 rd 0x33#7
  | .srl rd rs1 rs2 => encodeR 0x0#7 rs2 rs1 0x5#3 rd 0x33#7
  | .sra rd rs1 rs2 => encodeR 0x20#7 rs2 rs1 0x5#3 rd 0x33#7
  | .or rd rs1 rs2 => encodeR 0x0#7 rs2 rs1 0x6#3 rd 0x33#7
  | .and rd rs1 rs2 => encodeR 0x0#7 rs2 rs1 0x7#3 rd 0x33#7
  | .lwu rd rs1 imm => encodeI imm rs1 0x6#3 rd 0x3#7
  | .ld rd rs1 imm => encodeI imm rs1 0x3#3 rd 0x3#7
  | .sd rs1 rs2 imm => encodeS imm rs2 rs1 0x3#3 0x23#7
  | .addiw rd rs1 imm => encodeI imm rs1 0x0#3 rd 0x1B#7
  | .slliw rd rs1 shamt => encodeR 0x0#7 shamt rs1 0x1#3 rd 0x1B#7
  | .srliw rd rs1 shamt => encodeR 0x0#7 shamt rs1 0x5#3 rd 0x1B#7
  | .sraiw rd rs1 shamt => encodeR 0x20#7 shamt rs1 0x5#3 rd 0x1B#7
  | .addw rd rs1 rs2 => encodeR 0x0#7 rs2 rs1 0x0#3 rd 0x3B#7
  | .subw rd rs1 rs2 => encodeR 0x20#7 rs2 rs1 0x0#3 rd 0x3B#7
  | .sllw rd rs1 rs2 => encodeR 0x0#7 rs2 rs1 0x1#3 rd 0x3B#7
  | .srlw rd rs1 rs2 => encodeR 0x0#7 rs2 rs1 0x5#3 rd 0x3B#7
  | .sraw rd rs1 rs2 => encodeR 0x20#7 rs2 rs1 0x5#3 rd 0x3B#7
  | .fence fm pred succ rs1 rd => encodeI (fm ++ pred ++ succ) rs1 0x0#3 rd 0xF#7
  | .fenceI imm rs1 rd => encodeI imm rs1 0x1#3 rd 0xF#7

end Sys2Proof
end

