-- ==== Sys2Proof/Machine/Translate.lean ====
section
/-! DEFINITION. Address translation, physical checks, and the memory primitives `Fetch`, `MemRead`, `MemWrite`
(20_memory.md R183 to R203; 21_paged_vm.md R230 to R258). Physical addresses are natural numbers. -/

namespace Sys2Proof

/-- Whether the attributes of a region support an access. -/
def Region.supports (r : Region) (acc : Access) (n : Nat) : Bool := r.supported.contains (acc, n)

/-- Whether the access control of a region grants an access. -/
def Region.grants (r : Region) (acc : Access) (p : Priv) : Bool := r.granted.contains (acc, p)

/-- `LEVELS` of R246. -/
def Scheme.levels : Scheme → Nat
  | .sv32 => 2
  | .sv39 => 3
  | .sv48 => 4
  | .mbare => 0
  | .mbb => 0
  | .mbbid => 0

/-- `VABITS` of R246. -/
def Scheme.vaBits : Scheme → Nat
  | .sv32 => 32
  | .sv39 => 39
  | .sv48 => 48
  | .mbare => 64
  | .mbb => 64
  | .mbbid => 64

end Sys2Proof

namespace Sys2Proof.Machine

/-! ## Physical memory attributes and access control (R196 to R201; log 10) -/

/-- `PhysCheck(pa, n, acc, p)`: the whole access lies below 2^PALEN and in one region that supports it, and grants
it at the effective privilege `p` where the access is controlled (R200, R201). -/
def physCheck (c : Config) (pa n : Nat) (acc : Access) (p : Priv) (controlled : Bool) : Bool :=
  decide (pa + n ≤ 2 ^ c.palen) &&
    c.regions.any fun r =>
      decide (r.base ≤ pa) && decide (pa + n ≤ r.base + r.size) && r.supports acc n && (!controlled || r.grants acc p)

/-- The accesses the access control applies to: every access in U or S mode, and a load or store under
MPRV = 1 (R200; log 22). -/
def State.controlled (s : State) (acc : Access) : Bool :=
  decide (s.prv ≠ .machine) || (decide (acc ≠ .fetch) && s.mstatus.mprv)

/-- `EffPriv`, and PRV for a fetch (R183; 11_machine_csrs.md R80). -/
def State.effPriv (s : State) (acc : Access) : Priv :=
  if acc ≠ .fetch ∧ s.mstatus.mprv then s.mstatus.e1.prv else s.prv

/-! ## Base and bound (R190 to R193) -/

/-- One segment: an access whose last byte is at or past the bound fails; else the sum modulo 2^XLEN, truncated to
PALEN bits (92_eei_decisions.md D12; log 20). -/
def boundedSum (c : Config) (base bound : Word) (offset n : Nat) : Option Nat :=
  if bound.toNat ≤ offset + (n - 1) then none
  else some ((offset + base.toNat) % 2 ^ c.xlen % 2 ^ c.palen)

/-- The pair Mbb uses: with Mbbid present, the data or the instruction pair (R193, R129). -/
def State.mbbPair (s : State) (acc : Access) : Word × Word :=
  if s.cfg.hasMbbid then
    (if acc = .fetch then (s.mibase, s.mibound) else (s.mdbase, s.mdbound))
  else (s.mbase, s.mbound)

/-- `Mbb(va, acc, n)` (R190). -/
def State.mbbAddress (s : State) (va : Word) (acc : Access) (n : Nat) : Option Nat :=
  boundedSum s.cfg (s.mbbPair acc).1 (s.mbbPair acc).2 va.toNat n

/-- `Mbbid(va, acc, n)` (R192): a fetch needs the top bit of the address set, and is translated without it. -/
def State.mbbidAddress (s : State) (va : Word) (acc : Access) (n : Nat) : Option Nat :=
  if acc = .fetch then
    (if va.toNat < 2 ^ (s.cfg.xlen - 1) then none
     else boundedSum s.cfg s.mibase s.mibound (va.toNat - 2 ^ (s.cfg.xlen - 1)) n)
  else boundedSum s.cfg s.mdbase s.mdbound va.toNat n

/-! ## The paged schemes (R245, R246) -/

/-- `PTESIZE`: 4 bytes in Sv32, 8 in Sv39 and Sv48; the first is RV32's, the others RV64's. -/
def pteSize (c : Config) : Nat := if c.rv64 then 8 else 4

/-- Bits per `vpn[i]`. -/
def vpnBits (c : Config) : Nat := if c.rv64 then 9 else 10

/-- Bits of a PTE's PPN (R233, R253, R257; bits 63:48 are ignored, log 36). -/
def ppnBits (c : Config) : Nat := if c.rv64 then 38 else 22

/-- The bytes a leaf at level `i` maps: 2^(12 + i w) (R254). -/
def pageBytes (c : Config) (level : Nat) : Nat := 2 ^ (12 + vpnBits c * level)

/-- `va.vpn[i]`. -/
def vpn (c : Config) (va : Nat) (i : Nat) : Nat := va / pageBytes c i % 2 ^ vpnBits c

/-- The bits above VABITS all equal the top bit below them (R251, R256); Sv32 uses every bit of RV32. -/
def canonical (c : Config) (v : Scheme) (va : Word) : Bool :=
  !c.rv64 || decide ((va.setWidth v.vaBits).signExtend 64 = va)

/-- The fields of a PTE (R233). -/
def pteValid (pte : Word) : Bool := pte.getLsbD 0
def pteType (pte : Word) : BitVec 4 := pte.extractLsb' 1 4
def pteR (pte : Word) : Bool := pte.getLsbD 5
def pteD (pte : Word) : Bool := pte.getLsbD 6
def ptePpn (c : Config) (pte : Word) : Nat := pte.toNat / 2 ^ 10 % 2 ^ ppnBits c

/-- `Permit(t, acc, p)` (R235), for p in U, S; an M-mode access is not walked. -/
def permit (t : BitVec 4) (acc : Access) (p : Priv) : Bool :=
  match p, acc with
  | .supervisor, .load => true
  | .supervisor, .store => [3#4, 5, 7, 9, 11, 13, 15].contains t
  | .supervisor, .fetch => [6#4, 7, 10, 11, 14, 15].contains t
  | .user, .load => [2#4, 3, 4, 5, 6, 7].contains t
  | .user, .store => [3#4, 5, 7].contains t
  | .user, .fetch => [2#4, 3, 6, 7].contains t
  | .machine, _ => false

/-- A leaf PTE a walk finds: its value, level and address, and whether a pointer on the path or the leaf itself
is marked global (R236, R258). -/
structure Leaf where
  pte : Word
  level : Nat
  addr : Nat
  isGlobal : Bool
deriving DecidableEq, Repr

/-- Whether a leaf type is a global mapping (R234). -/
def globalLeaf (t : BitVec 4) : Bool := [12#4, 13, 14, 15].contains t

/-- Steps 2 to 4 of R245 from the table at `a`, level `i` on: a PTE that cannot be read (R247), is not valid, or
points below level 0 ends the walk. PTEs are checked at S, whatever the access (D27). -/
def findLeaf (c : Config) (m : Memory) (va : Nat) : Nat → Nat → Bool → Option Leaf
  | i, a, glob =>
    let addr := a + vpn c va i * pteSize c
    if !physCheck c addr (pteSize c) .load .supervisor true then none
    else
      let pte := m.readWord addr (pteSize c)
      if !pteValid pte then none
      else if (pteType pte).toNat < 2 then
        match i with
        | 0 => none
        | i' + 1 => findLeaf c m va i' (ptePpn c pte * 4096) (glob || pteType pte == 1)
      else some ⟨pte, i, addr, glob || globalLeaf (pteType pte)⟩

/-- Step 5 of R245: the low bits of a superpage come from the virtual address, the rest from the PTE. -/
def leafAddress (c : Config) (pte : Word) (level : Nat) (va : Nat) : Nat :=
  ptePpn c pte / 2 ^ (vpnBits c * level) * pageBytes c level + va % pageBytes c level

/-- The PTE with R set, and D for a store; nothing else changes (R237, R248). -/
def markedPte (pte : Word) (acc : Access) : Word :=
  pte ||| (if acc = .store then 0x60#64 else 0x20#64)

/-- The outcome of locating an access: a physical address, or a failure that becomes the access fault of its
kind; either way with the state the walk leaves (R454). -/
inductive Located where
  | found (s : State) (pa : Nat)
  | fail (s : State)

/-- The physical address a located access ends at. -/
def Located.place : Located → Option Nat
  | .found _ pa => some pa
  | .fail _ => none

/-- The state a located access leaves. -/
def Located.after : Located → State
  | .found s _ => s
  | .fail s => s

/-- The translation-cache choice for an access (R258; log 9). -/
def State.tcChoice (s : State) (acc : Access) : TcChoice :=
  if acc = .fetch then s.now.fetchTc else s.now.dataTc

/-- A cached entry covers an address: it lies in the page the entry maps. -/
def TcEntry.covers (c : Config) (e : TcEntry) (va : Word) : Bool :=
  va.toNat / pageBytes c e.level == e.vaBase.toNat / pageBytes c e.level

/-- A cached entry may be used for an access (R258). -/
def State.usable (s : State) (e : TcEntry) (va : Word) (acc : Access) (p : Priv) : Bool :=
  e.covers s.cfg va && (e.isGlobal || e.asid == s.sasid) && permit (pteType e.pte) acc p &&
    pteR e.pte && (decide (acc ≠ .store) || pteD e.pte)

/-- The entry the cache chooses to use, if it is usable. -/
def State.cached (s : State) (va : Word) (acc : Access) (p : Priv) : Option TcEntry :=
  ((s.tcChoice acc).use.bind fun k => s.tc[k]?).filter fun e => s.usable e va acc p

/-- The entry a successful walk may add: a set, so one already there is not added. -/
def State.fillTc (s : State) (va : Word) (acc : Access) (leaf : Leaf) (pte : Word) : State :=
  let e : TcEntry :=
    { asid := s.sasid, isGlobal := leaf.isGlobal
      vaBase := BitVec.ofNat 64 (va.toNat / pageBytes s.cfg leaf.level * pageBytes s.cfg leaf.level)
      level := leaf.level, pte := pte, pteAddr := leaf.addr }
  if (s.tcChoice acc).fill && !s.tc.contains e then s.setTc (e :: s.tc) else s

/-- `Walk(va, acc, p)` of R245 through memory, with the write-back of R248 and the checks of R247. -/
def State.walk (s : State) (va : Word) (acc : Access) (p : Priv) : Located :=
  if !canonical s.cfg s.mstatus.vm va then .fail s
  else
    match findLeaf s.cfg s.mem va.toNat (s.mstatus.vm.levels - 1) s.sptbr.toNat false with
    | none => .fail s
    | some leaf =>
      if !permit (pteType leaf.pte) acc p then .fail s
      else
        let pte := markedPte leaf.pte acc
        let pa := leafAddress s.cfg leaf.pte leaf.level va.toNat
        if pte = leaf.pte then .found (s.fillTc va acc leaf pte) pa
        else if !physCheck s.cfg leaf.addr (pteSize s.cfg) .store .supervisor true then .fail s
        else
          .found ((s.setMem (s.mem.writeWord leaf.addr (pteSize s.cfg) pte)).fillTc va acc leaf pte) pa

/-- `Walk'` of R258: a cached translation where the cache chooses a usable one, else the walk. -/
def State.walkCached (s : State) (va : Word) (acc : Access) (p : Priv) : Located :=
  match s.cached va acc p with
  | some e => .found s (leafAddress s.cfg e.pte e.level va.toNat)
  | none => s.walk va acc p

/-- `trunc_PALEN(va)`: no translation (R187, R191). -/
def State.bareAddress (s : State) (va : Word) : Nat := va.toNat % 2 ^ s.cfg.palen

/-- A base-and-bound result as a located access. -/
def State.locate (s : State) : Option Nat → Located
  | some pa => .found s pa
  | none => .fail s

/-- The translation of R186, before `PhysCheck`: by scheme, M-mode untranslated. -/
def State.map (s : State) (va : Word) (acc : Access) (n : Nat) : Located :=
  let p := s.effPriv acc
  match s.mstatus.vm with
  | .mbare => .found s (s.bareAddress va)
  | .mbb => if p = .machine then .found s (s.bareAddress va) else s.locate (s.mbbAddress va acc n)
  | .mbbid => if p = .machine then .found s (s.bareAddress va) else s.locate (s.mbbidAddress va acc n)
  | .sv32 => if p = .machine then .found s (s.bareAddress va) else s.walkCached va acc p
  | .sv39 => if p = .machine then .found s (s.bareAddress va) else s.walkCached va acc p
  | .sv48 => if p = .machine then .found s (s.bareAddress va) else s.walkCached va acc p

/-- `Translate(va, acc, n)` (R186). -/
def State.translate (s : State) (va : Word) (acc : Access) (n : Nat) : Located :=
  match s.map va acc n with
  | .found t pa => if physCheck s.cfg pa n acc (s.effPriv acc) (s.controlled acc) then .found t pa else .fail t
  | .fail t => .fail t

/-! ## The primitives of R203 -/

/-- The access fault of a kind (R186). -/
def accessFault : Access → Exc
  | .fetch => .instrAccess
  | .load => .loadAccess
  | .store => .storeAccess

/-- What a memory primitive answers: a state and a value, or a state and the exception to raise there. -/
inductive Accessed (α : Type) where
  | ok (s : State) (v : α)
  | raises (s : State) (e : Exc)

/-- `Fetch(pc)`. -/
def State.fetch (s : State) : Accessed Insn :=
  if s.pc &&& 3 ≠ 0 then .raises s .instrMisaligned
  else
    match s.translate s.pc .fetch 4 with
    | .fail t => .raises t (accessFault .fetch)
    | .found t pa => .ok t (insnOfBytes (t.mem.read pa) (t.mem.read (pa + 1)) (t.mem.read (pa + 2)) (t.mem.read (pa + 3)))

/-- Whether a data access raises for its alignment (R202, D22; log 23). -/
def State.misaligned (s : State) (va : Word) (n : Nat) : Bool :=
  decide (va.toNat % n ≠ 0) && !s.cfg.misalignedOk

/-- `MemRead(va, n)`. -/
def State.memRead (s : State) (va : Word) (n : Nat) : Accessed Word :=
  if s.misaligned va n then .raises s .loadMisaligned
  else
    match s.translate va .load n with
    | .fail t => .raises t (accessFault .load)
    | .found t pa => .ok t (t.mem.readWord pa n)

/-- `MemWrite(va, n, v)`. -/
def State.memWrite (s : State) (va : Word) (n : Nat) (v : Word) : Accessed Unit :=
  if s.misaligned va n then .raises s .storeMisaligned
  else
    match s.translate va .store n with
    | .fail t => .raises t (accessFault .store)
    | .found t pa => .ok (t.setMem (t.mem.writeWord pa n v)) ()

end Sys2Proof.Machine
end

