-- ==== Sys2Proof/Machine/LoadStore.lean ====
section
/-! DEFINITION. Loads and stores (46_base_isa_general_knowledge.md R390 to R397, R417 to R419). -/

namespace Sys2Proof.Machine

/-- A load of `n` bytes: `x[rd] <- extend(MemRead(va, n))`. -/
def loadOp (legal : Bool) (n : Nat) (extend : Word → Word) (rd rs1 : Reg) (imm : BitVec 12) (s : State) : Result :=
  let va := s.address rs1 (immI imm)
  if legal && s.hasRegs [rd, rs1] then
    match s.memRead va n with
    | .raises t e => .next (t.raise e (some va))
    | .ok t v => .next (t.setX rd (extend v)).advance
  else .next s.illegal

/-- A store of the low `n` bytes of `x[rs2]`. -/
def storeOp (legal : Bool) (n : Nat) (rs1 rs2 : Reg) (imm : BitVec 12) (s : State) : Result :=
  let va := s.address rs1 (immS imm)
  if legal && s.hasRegs [rs1, rs2] then
    match s.memWrite va n (s.readX rs2) with
    | .raises t e => .next (t.raise e (some va))
    | .ok t () => .next t.advance
  else .next s.illegal

/-- `sext` of the low byte. -/
def sextByte (v : Word) : Word := (v.setWidth 8).signExtend 64

/-- `sext` of the low 16 bits. -/
def sextHalf (v : Word) : Word := (v.setWidth 16).signExtend 64

/-- `zext`: `MemRead` answers zero-extended already. -/
def zextLoaded (v : Word) : Word := v

/-- R390. -/
def execLb (rd rs1 : Reg) (imm : BitVec 12) (s : State) : Result := loadOp true 1 sextByte rd rs1 imm s

/-- R391. -/
def execLh (rd rs1 : Reg) (imm : BitVec 12) (s : State) : Result := loadOp true 2 sextHalf rd rs1 imm s

/-- R392. -/
def execLw (rd rs1 : Reg) (imm : BitVec 12) (s : State) : Result :=
  loadOp true 4 (fun v => sextWord (lowWord v)) rd rs1 imm s

/-- R393. -/
def execLbu (rd rs1 : Reg) (imm : BitVec 12) (s : State) : Result := loadOp true 1 zextLoaded rd rs1 imm s

/-- R394. -/
def execLhu (rd rs1 : Reg) (imm : BitVec 12) (s : State) : Result := loadOp true 2 zextLoaded rd rs1 imm s

/-- R417, RV64 only. -/
def execLwu (rd rs1 : Reg) (imm : BitVec 12) (s : State) : Result := loadOp s.cfg.rv64 4 zextLoaded rd rs1 imm s

/-- R418, RV64 only. -/
def execLd (rd rs1 : Reg) (imm : BitVec 12) (s : State) : Result := loadOp s.cfg.rv64 8 zextLoaded rd rs1 imm s

/-- R395. -/
def execSb (rs1 rs2 : Reg) (imm : BitVec 12) (s : State) : Result := storeOp true 1 rs1 rs2 imm s

/-- R396. -/
def execSh (rs1 rs2 : Reg) (imm : BitVec 12) (s : State) : Result := storeOp true 2 rs1 rs2 imm s

/-- R397. -/
def execSw (rs1 rs2 : Reg) (imm : BitVec 12) (s : State) : Result := storeOp true 4 rs1 rs2 imm s

/-- R419, RV64 only. -/
def execSd (rs1 rs2 : Reg) (imm : BitVec 12) (s : State) : Result := storeOp s.cfg.rv64 8 rs1 rs2 imm s

end Sys2Proof.Machine
end

