-- ==== Sys2Proof/Machine/System.lean ====
section
/-! DEFINITION. ECALL, EBREAK, ERET, MRTS, MRTH, HRTS, WFI and SFENCE.VM (files 41 to 44 of spec/). -/

namespace Sys2Proof.Machine

/-- The exception of an ECALL, code 8 + priv (41_privilege_change.md R311). -/
def ecallExc : Priv → Exc
  | .user => .ecallU
  | .supervisor => .ecallS
  | .machine => .ecallM

/-- R311: always traps. -/
def execEcall (s : State) : Result := .next (s.raise (ecallExc s.prv) none)

/-- R314: always traps. -/
def execEbreak (s : State) : Result := .next (s.raise .breakpoint none)

/-- R315, R316. -/
def execEret (s : State) : Result :=
  match s.prv with
  | .user => .next s.illegal
  | .supervisor => .next (s.returnTo s.sepc)
  | .machine => .next (s.returnTo s.mepc)

/-- R321 to R323. -/
def execMrts (s : State) : Result :=
  if decide (s.prv = .machine) && s.cfg.hasS then
    .next
      (({ s with
          sepc := s.mepc
          scause := s.mcause
          sbadaddr := s.mbadaddr
          mstatus := { s.mstatus with e0 := ⟨.supervisor, s.mstatus.e0.ie⟩ } } : State).complete s.stvec)
  else .next s.illegal

/-- R324: H-mode is in no admitted configuration, so illegal instruction in every mode (log 17). -/
def execMrth (s : State) : Result := .next s.illegal

/-- R325: a reserved encoding, illegal instruction in every mode. -/
def execHrts (s : State) : Result := .next s.illegal

/-- R330, R331: whether the hart stalls is the implementation's choice (log 8); with an interrupt pending it does
not (R334). -/
def execWfi (s : State) : Result :=
  match s.prv with
  | .user => .next s.illegal
  | .supervisor => .next { s.advance with stalled := s.now.stall && !s.mip.any }
  | .machine => .next { s.advance with stalled := s.now.stall && !s.mip.any }

/-- Whether SFENCE.VM removes an entry (44_sfence_vm.md R341): the entry covers the address selected, and lies in
the address space selected. `sasid` = 0, or no `sasid` (R345), selects every address space and the global
mappings. -/
def State.fences (s : State) (rs1 : Reg) (e : TcEntry) : Bool :=
  (decide (rs1 = 0) || e.covers s.cfg (s.readX rs1)) &&
    (decide (s.sasid = 0) || !(s.cfg.hasS && s.cfg.hasPaging) || (e.asid == s.sasid && !e.isGlobal))

/-- R341, R345; exactly the entries the rule requires leave TC (log 31). -/
def execSfenceVm (rs1 : Reg) (s : State) : Result :=
  if decide (s.prv = .user) || !s.hasRegs [rs1] then .next s.illegal
  else .next (s.setTc (s.tc.filter fun e => !s.fences rs1 e)).advance

end Sys2Proof.Machine
end

