-- ==== Sys2Proof/Machine/Environment.lean ====
section
/-! DEFINITION. What the environment does between two steps (60_exceptions.md R480; log 6). -/

namespace Sys2Proof.Machine

/-- The bytes other agents write, as far as they are physical addresses. -/
def outsideWrites (c : Config) (cells : List Host.Cell) : List Host.Cell :=
  cells.filter fun cell => decide (cell.1 < 2 ^ c.palen)

/-- TC without the entries at the places given (21_paged_vm.md R258: any entry may silently leave TC). -/
def evicted (tc : List TcEntry) (places : List Nat) : List TcEntry :=
  (tc.zipIdx.filter fun p => !places.contains p.2).map Prod.fst

/-- `mip` after the timers have advanced and remote harts and the SEE have acted (R480, points 1 to 3). -/
def State.outsideIrqs (s : State) (e : EnvStep) : IrqBits :=
  let b := s.latched e.ticks
  { b with msi := e.msip.getD b.msi, ssi := b.ssi || (e.ssip && s.cfg.hasS) }

/-- Step 0 of R490. -/
def State.environment (s : State) : State :=
  let e := s.now
  let ticks := BitVec.ofNat 64 e.ticks
  { s with
    mip := s.outsideIrqs e
    mtime := s.mtime + ticks
    stime := s.stime + ticks
    time := s.time + ticks
    cycle := s.cycle + BitVec.ofNat 64 e.cycles
    mem := s.mem.writeCells (outsideWrites s.cfg e.writes)
    mfromhost := if s.cfg.hostInterface then s.cfg.norm (e.fromHost.getD s.mfromhost) else s.mfromhost
    tc := evicted s.tc e.evict }

end Sys2Proof.Machine
end

