-- ==== Sys2Proof/Machine/Hart.lean ====
section
/-! DEFINITION. One step of the hart after the environment's (60_exceptions.md R490, steps 1 to 5). -/

namespace Sys2Proof.Machine

/-- Steps 3 to 5: fetch, decode, execute; a word that no row selects raises illegal instruction (R450). -/
def State.runNext (s : State) : Result :=
  match s.fetch with
  | .raises t e => .next (t.raise e (some s.pc))
  | .ok t w =>
    match decode w with
    | .ok i => exec i t
    | .error _ => .next t.illegal

/-- Whether a stalled hart stays stalled (43_wfi.md R331). -/
def State.staysStalled (s : State) : Bool := s.stalled && !s.mip.any && !s.now.wake

/-- The hart awake. -/
def State.woken (s : State) : State := { s with stalled := false }

/-- Steps 1 to 5 (log 35: a hart that wakes goes on in the same step). -/
def State.hart (s : State) : Result :=
  if s.staysStalled then .next s
  else
    match s.woken.chooseIrq s.now.irq with
    | some i => .next (s.woken.takeInterrupt i)
    | none => s.woken.runNext

/-- The environment's entry for this step is used up. -/
def State.popEnv (s : State) : State := { s with env := s.env.tail }

/-- The same for the outcome of a step. -/
def popOutcome : Result → Result
  | .next t => .next t.popEnv
  | .fault f => .fault f
  | .refused r => .refused r

/-- `Step` of R490. -/
def State.fullStep (s : State) : Result := popOutcome s.environment.hart

/-- Where the four bytes of the instruction at the pc lie, if its fetch succeeds. -/
def State.fetchPlace (s : State) : Option Nat := (s.translate s.pc .fetch 4).place

/-- Four bytes of instruction stored at a place. -/
def State.storeInsn (s : State) (place : Option Nat) (w : Word) : State :=
  match place with
  | some pa => { s with mem := s.mem.writeWord pa 4 w, stalled := false }
  | none => s

end Sys2Proof.Machine
end

