-- ==== Sys2Proof/Machine/Step.lean ====
section
/-! DEFINITION. The step of the machine, and the interface that places an instruction. -/

namespace Sys2Proof.Machine

/-- `Step` of 60_exceptions.md R490, for a configuration the spec admits (log 32). -/
def step (s : State) : Host.Outcome State Fault Refusal :=
  if s.cfg.admitted then s.fullStep else .fault .inadmissibleConfig

/-- The instruction of `nbits` bits stored where the next fetch reads, the hart not stalled (log 28). -/
def State.withFetchWord (s : State) (nbits w : Nat) : State :=
  s.storeInsn s.fetchPlace (BitVec.ofNat 64 (w % 2 ^ nbits))

end Sys2Proof.Machine
end

