-- ==== Sys2Proof/Safety.lean ====
section
/-! DEFINITION. The terms the statements are written in: what an instruction may change, what a trap leaves,
and the invariants of the machine. Nothing here is used by the step. -/

namespace Sys2Proof.Machine

/-! ## Values as integers -/

/-- The XLEN-bit value of an integer, modulo 2^XLEN. -/
def State.valueOf (s : State) (n : Int) : Word := BitVec.ofInt 64 (n % 2 ^ s.cfg.xlen)

/-- An XLEN-bit value read as signed (two's complement). -/
def State.signed (s : State) (v : Word) : Int := Int.bmod v.toNat (2 ^ s.cfg.xlen)

/-- The number of a mode (10_state.md R25). -/
def prvNumber : Priv → Nat
  | .user => 0
  | .supervisor => 1
  | .machine => 3

/-- The value of `VM` that names a scheme (11_machine_csrs.md R78). -/
def vmNumber : Scheme → Nat
  | .mbare => 0
  | .mbb => 1
  | .mbbid => 2
  | .sv32 => 8
  | .sv39 => 9
  | .sv48 => 10

/-- The value of FS or XS that names a status (11_machine_csrs.md R82). -/
def statusNumber : CtxStatus → Nat
  | .off => 0
  | .initial => 1
  | .clean => 2
  | .dirty => 3

/-- The bit of `mtdeleg` that delegates an interrupt (11_machine_csrs.md R99; 60_exceptions.md R470). -/
def delegationBit : Irq → Nat
  | .ssi => 17
  | .msi => 19
  | .sti => 21
  | .mti => 23

/-! ## What an instruction changes -/

/-- The address of the next instruction, `pc + 4` modulo 2^XLEN (46_base_isa_general_knowledge.md R374). -/
def State.nextPc (s : State) : Word := s.valueOf (s.pc.toNat + 4)

/-- `t` is `s` after one instruction that wrote `v` to `x[rd]` (a write to x0 being discarded: 10_state.md R21),
continued at `npc` and was retired; nothing else changed. -/
structure Wrote (s t : State) (rd : Reg) (v npc : Word) : Prop where
  result : t.readX rd = if rd = 0 then 0 else v
  others : ∀ r, r ≠ rd → t.readX r = s.readX r
  pc : t.pc = npc
  retired : t.instret = s.instret + 1
  memory : ∀ a, t.mem.read a = s.mem.read a
  frame : t = { s with x := t.x, pc := t.pc, instret := t.instret }

/-- `t` is `s` after one instruction that changed nothing but the pc, now `npc`, and was retired. -/
structure Moved (s t : State) (npc : Word) : Prop where
  pc : t.pc = npc
  retired : t.instret = s.instret + 1
  memory : ∀ a, t.mem.read a = s.mem.read a
  frame : t = { s with pc := t.pc, instret := t.instret }

/-- `t` is `s` after one instruction that stored the low `n` bytes of `v` at the physical address `pa`, the lowest
byte at the lowest address (20_memory.md R181), and was retired. -/
structure Stored (s t : State) (pa n : Nat) (v : Word) : Prop where
  bytes : ∀ k, k < n → (t.mem.read (pa + k)).toNat = v.toNat / 256 ^ k % 256
  memory : ∀ a, a < pa ∨ pa + n ≤ a → t.mem.read a = s.mem.read a
  pc : t.pc = s.nextPc
  retired : t.instret = s.instret + 1
  frame : t = { s with mem := t.mem, pc := t.pc, instret := t.instret }

/-- `i` completes in `s` and writes the integer `n`, modulo 2^XLEN, to `x[rd]`. -/
def Computes (i : Instr) (s : State) (rd : Reg) (n : Int) : Prop :=
  ∃ t, exec i s = .next t ∧ Wrote s t rd (s.valueOf n) s.nextPc

/-- A register at an address, and whether the list says that it is read-only there. -/
abbrev CsrPlace := Nat × Csr × Bool

/-- The registers of every implementation (10_state.md R35, R41, R42). -/
def everyCsr : List CsrPlace :=
  [ (0xC00, .cycle, true), (0xC01, .time, true), (0xC02, .instret, true), (0xF00, .mcpuid, true)
  , (0xF01, .mimpid, true), (0xF10, .mhartid, true), (0x300, .mstatus, false), (0x301, .mtvec, false)
  , (0x302, .mtdeleg, false), (0x304, .mie, false), (0x321, .mtimecmp, false), (0x340, .mscratch, false)
  , (0x341, .mepc, false), (0x342, .mcause, false), (0x343, .mbadaddr, false), (0x344, .mip, false)
  , (0x701, .mtime, false) ]

/-- The upper halves of the counters, with XLEN = 32 (10_state.md R38). -/
def highCsrs : List CsrPlace :=
  [ (0x741, .mtimeh, false), (0xC80, .cycleh, true), (0xC81, .timeh, true), (0xC82, .instreth, true) ]

/-- The registers of S-mode, and the writable shadows of the counters (10_state.md R36, R37). -/
def supervisorPlaces (c : Config) : List CsrPlace :=
  [ (0x100, .sstatus, false), (0x101, .stvec, false), (0x104, .sie, false), (0x121, .stimecmp, false)
  , (0x140, .sscratch, false), (0x141, .sepc, false), (c.scauseAddr.toNat, .scause, true)
  , (c.sbadaddrAddr.toNat, .sbadaddr, true), (0x144, .sip, false), (0xD01, .stime, true), (0x900, .cycle, false)
  , (0x901, .time, false), (0x902, .instret, false), (0xA01, .stime, false) ]

/-- The upper halves among these, with XLEN = 32. -/
def supervisorHighCsrs : List CsrPlace :=
  [ (0x980, .cycleh, false), (0x981, .timeh, false), (0x982, .instreth, false), (0xA81, .stimeh, false)
  , (0xD81, .stimeh, true) ]

/-- The registers of paged virtual memory (10_state.md R42). -/
def pagingCsrs : List CsrPlace :=
  [ (0x180, .sptbr, false), (0x181, .sasid, false) ]

/-- The floating-point registers. -/
def floatCsrs : List CsrPlace :=
  [ (1, .fflags, false), (2, .frm, false), (3, .fcsr, false) ]

/-- The registers of Mbb. -/
def mbbCsrs : List CsrPlace :=
  [ (0x380, .mbase, false), (0x381, .mbound, false) ]

/-- The registers of Mbbid. -/
def mbbidCsrs : List CsrPlace :=
  [ (0x382, .mibase, false), (0x383, .mibound, false), (0x384, .mdbase, false), (0x385, .mdbound, false) ]

/-- The registers of a host interface. -/
def hostCsrs : List CsrPlace :=
  [ (0x780, .mtohost, false), (0x781, .mfromhost, false) ]

/-- An implementation has the register `place` at its address (10_state.md R42). -/
def HasCsr (c : Config) (place : CsrPlace) : Prop :=
  place ∈ everyCsr ∨ (c.rv64 = false ∧ place ∈ highCsrs) ∨
  (c.supports .supervisor = true ∧
    (place ∈ supervisorPlaces c ∨ (c.rv64 = false ∧ place ∈ supervisorHighCsrs) ∨
      ((c.hasSv32 = true ∨ c.hasSv39 = true ∨ c.hasSv48 = true) ∧ place ∈ pagingCsrs))) ∨
  (c.hasF = true ∧ place ∈ floatCsrs) ∨ (c.hasMbb = true ∧ place ∈ mbbCsrs) ∨
  (c.hasMbbid = true ∧ place ∈ mbbidCsrs) ∨ (c.hostInterface = true ∧ place ∈ hostCsrs)

/-- The access to the register `r` at `a` raises nothing (10_state.md R30, R33; 12_supervisor_csrs.md R170). -/
def CsrAllowed (s : State) (a : CsrAddr) (write : Bool) (r : Csr) : Prop :=
  ∃ readOnly, HasCsr s.cfg (a.toNat, r, readOnly) ∧ a.toNat / 256 % 4 ≤ prvNumber s.prv ∧
    ¬(write = true ∧ readOnly = true) ∧ (a, s.prv, write) ∉ s.cfg.trapLower ∧ (a.toNat ≤ 3 → s.mstatus.fs ≠ .off)

/-- What a CSR write changes, register by register: the register itself, the registers it is a view of, and the
side effects of 40_csr_instructions.md R301. -/
def OnlyCsr (r : Csr) (s u : State) : Prop :=
  match r with
  | .fflags => u = { s with fflags := u.fflags, mstatus := { s.mstatus with fs := .dirty } }
  | .frm => u = { s with frm := u.frm, mstatus := { s.mstatus with fs := .dirty } }
  | .fcsr => u = { s with fflags := u.fflags, frm := u.frm, mstatus := { s.mstatus with fs := .dirty } }
  | .cycle | .cycleh => u = { s with cycle := u.cycle }
  | .time | .timeh => u = { s with time := u.time }
  | .instret | .instreth => u = { s with instret := u.instret }
  | .sstatus | .mstatus => u = { s with mstatus := u.mstatus }
  | .stvec => u = { s with stvec := u.stvec }
  | .sie | .mie => u = { s with mie := u.mie }
  | .sip | .mip => u = { s with mip := u.mip }
  | .stimecmp => u = { s with stimecmp := u.stimecmp, mip := u.mip }
  | .stime | .stimeh => u = { s with stime := u.stime, mip := u.mip }
  | .mtimecmp => u = { s with mtimecmp := u.mtimecmp, mip := u.mip }
  | .mtime | .mtimeh => u = { s with mtime := u.mtime, mip := u.mip }
  | .sscratch => u = { s with sscratch := u.sscratch }
  | .sepc => u = { s with sepc := u.sepc }
  | .sptbr => u = { s with sptbr := u.sptbr }
  | .sasid => u = { s with sasid := u.sasid }
  | .scause | .sbadaddr | .mcpuid | .mimpid | .mhartid => u = s
  | .mtvec => u = { s with mtvec := u.mtvec }
  | .mtdeleg => u = { s with mtdeleg := u.mtdeleg }
  | .mscratch => u = { s with mscratch := u.mscratch }
  | .mepc => u = { s with mepc := u.mepc }
  | .mcause => u = { s with mcause := u.mcause }
  | .mbadaddr => u = { s with mbadaddr := u.mbadaddr }
  | .mbase => u = { s with mbase := u.mbase, mibase := u.mibase, mdbase := u.mdbase }
  | .mbound => u = { s with mbound := u.mbound, mibound := u.mibound, mdbound := u.mdbound }
  | .mibase => u = { s with mibase := u.mibase }
  | .mibound => u = { s with mibound := u.mibound }
  | .mdbase => u = { s with mdbase := u.mdbase }
  | .mdbound => u = { s with mdbound := u.mdbound }
  | .mtohost => u = { s with mtohost := u.mtohost }
  | .mfromhost => u = { s with mfromhost := u.mfromhost }

/-- `i` completes in `s` as a CSR instruction that reads the register `r` and writes `v` to it
(40_csr_instructions.md R290): `x[rd]` gets the old value, the register is written, and nothing else changes but
the pc and `instret`. The count is dropped where `instret` itself is written (12_supervisor_csrs.md R172). -/
def WritesCsr (i : Instr) (s : State) (r : Csr) (rd : Reg) (v : Word) : Prop :=
  ∀ u, s.csrWrite r v = some u →
    ∃ t, exec i s = .next t ∧
      (t.readX rd = if rd = 0 then 0 else s.csrRead r) ∧ (∀ q, q ≠ rd → t.readX q = s.readX q) ∧ t.pc = s.nextPc ∧
      t.instret = (if r = .instret ∨ r = .instreth then u.instret else s.instret + 1) ∧
      (∀ a, t.mem.read a = s.mem.read a) ∧ t = { u with x := t.x, pc := t.pc, instret := t.instret } ∧ OnlyCsr r s u

/-! ## What a trap leaves -/

/-- The handler mode of a trap met in mode `p` with delegation index `d` (60_exceptions.md R455). -/
def State.handlerMode (s : State) (p : Priv) (d : Nat) : Priv :=
  if s.cfg.supports .supervisor = true ∧ p.level ≤ Priv.supervisor.level ∧ s.mtdeleg.getLsbD d = true then .supervisor
  else .machine

/-- The value of `mepc` or `sepc`, of the cause and of the bad-address register that a trap writes; the last is
stated only where the exception has an address (60_exceptions.md R461). -/
def trapSaved (epc : Word) (cause : Cause) (bad : Word) (k : Cause) (e : Word) (b : Option Word) : Prop :=
  epc = e ∧ cause = k ∧ ∀ a, b = some a → bad = a

/-- `t` is `s` after the trap `TakeTrap(interrupt, code, d, epc, bad)` of 60_exceptions.md R460. -/
structure TrapEntry (s t : State) (interrupt : Bool) (code : BitVec 4) (d : Nat) (epc : Word) (bad : Option Word) :
    Prop where
  mode : t.prv = s.handlerMode s.prv d
  masked : t.mstatus.e0.ie = false
  entry1 : t.mstatus.e1 = s.mstatus.e0
  entry2 : t.mstatus.e2 = if s.cfg.depth = 3 then s.mstatus.e1 else s.mstatus.e2
  mprv : t.mstatus.mprv = false
  status : t.mstatus = { s.mstatus with e0 := t.mstatus.e0, e1 := t.mstatus.e1, e2 := t.mstatus.e2, mprv := false }
  toMachine : s.handlerMode s.prv d = .machine →
    trapSaved t.mepc t.mcause t.mbadaddr ⟨interrupt, code⟩ epc bad ∧
    t.sepc = s.sepc ∧ t.scause = s.scause ∧ t.sbadaddr = s.sbadaddr ∧
    t.pc.toNat = (s.mtvec.toNat + prvNumber s.prv * 0x40) % 2 ^ s.cfg.xlen
  toSupervisor : s.handlerMode s.prv d = .supervisor →
    trapSaved t.sepc t.scause t.sbadaddr ⟨interrupt, code⟩ epc bad ∧
    t.mepc = s.mepc ∧ t.mcause = s.mcause ∧ t.mbadaddr = s.mbadaddr ∧ t.pc = s.stvec
  awake : t.stalled = false
  registers : ∀ r, t.readX r = s.readX r
  retired : t.instret = s.instret
  memory : ∀ a, t.mem.read a = s.mem.read a
  frame : t = { s with
    mstatus := t.mstatus, mepc := t.mepc, mcause := t.mcause, mbadaddr := t.mbadaddr, sepc := t.sepc
    scause := t.scause, sbadaddr := t.sbadaddr, pc := t.pc, stalled := t.stalled, free := t.free }

/-- `t` is `s` after the trap of the synchronous exception with this code, met by the instruction at the pc of `s`
(60_exceptions.md R454, R490). -/
def Raised (s t : State) (code : BitVec 4) (bad : Option Word) : Prop :=
  TrapEntry s t false code code.toNat s.pc bad

/-- The instruction is one of the six CSR instructions, on the address `a` (40_csr_instructions.md R290). -/
def AccessesCsr (i : Instr) (a : CsrAddr) : Prop :=
  (∃ rd rs1, i = .csrrw rd a rs1) ∨ (∃ rd rs1, i = .csrrs rd a rs1) ∨ (∃ rd rs1, i = .csrrc rd a rs1) ∨
  (∃ rd zimm, i = .csrrwi rd a zimm) ∨ (∃ rd zimm, i = .csrrsi rd a zimm) ∨ (∃ rd zimm, i = .csrrci rd a zimm)

/-- The instruction is one of the six CSR instructions, on the address `a`, and writes or does not write there
(40_csr_instructions.md R290, R291). -/
def UsesCsr (i : Instr) (s : State) (a : CsrAddr) (write : Bool) : Prop :=
  (∃ rd rs1, i = .csrrw rd a rs1 ∧ write = true) ∨
  (∃ rd rs1, (i = .csrrs rd a rs1 ∨ i = .csrrc rd a rs1) ∧ write = decide (rs1 ≠ 0)) ∨
  (∃ rd zimm, i = .csrrwi rd a zimm ∧ write = (decide (zimm ≠ 0) || s.cfg.csrrwiZeroWrites)) ∨
  (∃ rd zimm, (i = .csrrsi rd a zimm ∨ i = .csrrci rd a zimm) ∧ write = decide (zimm ≠ 0))

/-- The instruction writes `v` to the register `r`, at the address `a`: the operand, or what the register reads as with
the operand's bits set or cleared (40_csr_instructions.md R292 to R297). -/
def WritesValue (i : Instr) (s : State) (a : CsrAddr) (r : Csr) (v : Word) : Prop :=
  (∃ rd rs1, i = .csrrw rd a rs1 ∧ v = s.readX rs1) ∨
  (∃ rd rs1, i = .csrrs rd a rs1 ∧ rs1 ≠ 0 ∧ v = s.csrRead r ||| s.readX rs1) ∨
  (∃ rd rs1, i = .csrrc rd a rs1 ∧ rs1 ≠ 0 ∧ v = s.csrRead r &&& ~~~s.readX rs1) ∨
  (∃ rd zimm, i = .csrrwi rd a zimm ∧ (zimm ≠ 0 ∨ s.cfg.csrrwiZeroWrites = true) ∧ v = zimm.setWidth 64) ∨
  (∃ rd zimm, i = .csrrsi rd a zimm ∧ zimm ≠ 0 ∧ v = s.csrRead r ||| zimm.setWidth 64) ∨
  (∃ rd zimm, i = .csrrci rd a zimm ∧ zimm ≠ 0 ∧ v = s.csrRead r &&& ~~~zimm.setWidth 64)

/-- The instruction is a load or a store of `n` bytes at the virtual address `va`. -/
def DataAccess (i : Instr) (s : State) (va : Word) (acc : Access) (n : Nat) : Prop :=
  ∃ (r rs1 : Reg) (imm : BitVec 12), va = s.valueOf ((s.readX rs1).toNat + imm.toInt) ∧
    ((acc = .load ∧
      ((n = 1 ∧ (i = .lb r rs1 imm ∨ i = .lbu r rs1 imm)) ∨ (n = 2 ∧ (i = .lh r rs1 imm ∨ i = .lhu r rs1 imm)) ∨
        (n = 4 ∧ (i = .lw r rs1 imm ∨ i = .lwu r rs1 imm)) ∨ (n = 8 ∧ i = .ld r rs1 imm))) ∨
    (acc = .store ∧
      ((n = 1 ∧ i = .sb rs1 r imm) ∨ (n = 2 ∧ i = .sh rs1 r imm) ∨ (n = 4 ∧ i = .sw rs1 r imm) ∨
        (n = 8 ∧ i = .sd rs1 r imm))))

/-- `i` takes the trap of the synchronous exception with this code in `s`. -/
def Raises (i : Instr) (s : State) (code : BitVec 4) (bad : Option Word) : Prop :=
  ∃ t, exec i s = .next t ∧ Raised s t code bad

/-- The registers an instruction names, in the fields that are register operands (40_csr_instructions.md R298; FENCE and
FENCE.I name none). -/
def namedRegs : Instr → List Reg
  | .csrrw rd _ rs1 => [rd, rs1]
  | .csrrs rd _ rs1 => [rd, rs1]
  | .csrrc rd _ rs1 => [rd, rs1]
  | .csrrwi rd _ _ => [rd]
  | .csrrsi rd _ _ => [rd]
  | .csrrci rd _ _ => [rd]
  | .ecall => []
  | .ebreak => []
  | .eret => []
  | .sfenceVm rs1 => [rs1]
  | .wfi => []
  | .hrts => []
  | .mrts => []
  | .mrth => []
  | .lui rd _ => [rd]
  | .auipc rd _ => [rd]
  | .jal rd _ => [rd]
  | .jalr rd rs1 _ => [rd, rs1]
  | .beq rs1 rs2 _ => [rs1, rs2]
  | .bne rs1 rs2 _ => [rs1, rs2]
  | .blt rs1 rs2 _ => [rs1, rs2]
  | .bge rs1 rs2 _ => [rs1, rs2]
  | .bltu rs1 rs2 _ => [rs1, rs2]
  | .bgeu rs1 rs2 _ => [rs1, rs2]
  | .lb rd rs1 _ => [rd, rs1]
  | .lh rd rs1 _ => [rd, rs1]
  | .lw rd rs1 _ => [rd, rs1]
  | .lbu rd rs1 _ => [rd, rs1]
  | .lhu rd rs1 _ => [rd, rs1]
  | .sb rs1 rs2 _ => [rs1, rs2]
  | .sh rs1 rs2 _ => [rs1, rs2]
  | .sw rs1 rs2 _ => [rs1, rs2]
  | .addi rd rs1 _ => [rd, rs1]
  | .slti rd rs1 _ => [rd, rs1]
  | .sltiu rd rs1 _ => [rd, rs1]
  | .xori rd rs1 _ => [rd, rs1]
  | .ori rd rs1 _ => [rd, rs1]
  | .andi rd rs1 _ => [rd, rs1]
  | .slli rd rs1 _ => [rd, rs1]
  | .srli rd rs1 _ => [rd, rs1]
  | .srai rd rs1 _ => [rd, rs1]
  | .add rd rs1 rs2 => [rd, rs1, rs2]
  | .sub rd rs1 rs2 => [rd, rs1, rs2]
  | .sll rd rs1 rs2 => [rd, rs1, rs2]
  | .slt rd rs1 rs2 => [rd, rs1, rs2]
  | .sltu rd rs1 rs2 => [rd, rs1, rs2]
  | .xor rd rs1 rs2 => [rd, rs1, rs2]
  | .srl rd rs1 rs2 => [rd, rs1, rs2]
  | .sra rd rs1 rs2 => [rd, rs1, rs2]
  | .or rd rs1 rs2 => [rd, rs1, rs2]
  | .and rd rs1 rs2 => [rd, rs1, rs2]
  | .lwu rd rs1 _ => [rd, rs1]
  | .ld rd rs1 _ => [rd, rs1]
  | .sd rs1 rs2 _ => [rs1, rs2]
  | .addiw rd rs1 _ => [rd, rs1]
  | .slliw rd rs1 _ => [rd, rs1]
  | .srliw rd rs1 _ => [rd, rs1]
  | .sraiw rd rs1 _ => [rd, rs1]
  | .addw rd rs1 rs2 => [rd, rs1, rs2]
  | .subw rd rs1 rs2 => [rd, rs1, rs2]
  | .sllw rd rs1 rs2 => [rd, rs1, rs2]
  | .srlw rd rs1 rs2 => [rd, rs1, rs2]
  | .sraw rd rs1 rs2 => [rd, rs1, rs2]
  | .fence _ _ _ _ _ => []
  | .fenceI _ _ _ => []

/-- The page-table entry that the translation of an access marks: the leaf a walk finds, where a paged scheme
translates the access by a walk (21_paged_vm.md R248). -/
def State.walkedPte (s : State) (va : Word) (acc : Access) : Option Nat :=
  if s.effPriv acc = .machine ∨ s.mstatus.vm.levels = 0 ∨ (s.cached va acc (s.effPriv acc)).isSome then none
  else (findLeaf s.cfg s.mem va.toNat (s.mstatus.vm.levels - 1) s.sptbr.toNat false).map Leaf.addr

/-- The physical address in the page of a leaf, or of a superpage (21_paged_vm.md R245 step 5): the page offset from the
virtual address, the rest from the PTE. -/
def pageAddress (c : Config) (pte : Word) (level : Nat) (va : Word) : Nat :=
  ptePpn c pte / 2 ^ (vpnBits c * level) * 2 ^ (12 + vpnBits c * level) + va.toNat % 2 ^ (12 + vpnBits c * level)

/-- The PTE of a leaf with R set, and D for a store (21_paged_vm.md R248). -/
def usedPte (pte : Word) (acc : Access) : Word := pte ||| (if acc = .store then 0x60#64 else 0x20#64)

/-- The cached translation of a leaf, as a walk for `va` may add it (21_paged_vm.md R258): of the current address
space, with the global mark of the path, and with the updated R and D bits. -/
structure CachesLeaf (s : State) (va : Word) (acc : Access) (leaf : Leaf) (e : TcEntry) : Prop where
  asid : e.asid = s.sasid
  isGlobal : e.isGlobal = leaf.isGlobal
  page : e.vaBase.toNat = va.toNat / 2 ^ (12 + vpnBits s.cfg * leaf.level) * 2 ^ (12 + vpnBits s.cfg * leaf.level)
  level : e.level = leaf.level
  pte : e.pte = usedPte leaf.pte acc
  place : e.pteAddr = leaf.addr

/-- The address `a` is no byte of the page-table entry that the translation of an access marks. -/
def State.unmarked (s : State) (va : Word) (acc : Access) (a : Nat) : Prop :=
  ∀ pte, s.walkedPte va acc = some pte → a < pte ∨ pte + pteSize s.cfg ≤ a

/-- The instruction met a synchronous exception in `s` and took its trap, to `t`: nothing was changed before the trap,
but by the translation of its access where that failed (60_exceptions.md R454). -/
def Trapped (i : Instr) (s t : State) : Prop :=
  ∃ u code bad, Raised u t code bad ∧
    (u = s ∨ ∃ va acc n, DataAccess i s va acc n ∧ s.translate va acc n = .fail u ∧
      u = { s with mem := u.mem, tc := u.tc } ∧ ∀ a, s.unmarked va acc a → u.mem.read a = s.mem.read a)

/-- The instruction completed, from `s` to `t`: every register it names exists and, by kind of instruction, it is a CSR
instruction that passes the checks, ERET or MRTS where they are legal, or one that changes no status and no trap
register. -/
def Completed (i : Instr) (s t : State) : Prop :=
  s.hasRegs (namedRegs i) = true ∧
  ((∃ a w r, UsesCsr i s a w ∧ s.csrCheck a w = some r) ∨ (i = .eret ∧ s.prv ≠ .user) ∨
    (i = .mrts ∧ s.prv = .machine ∧ s.cfg.hasS = true) ∨
    ((∀ a, ¬AccessesCsr i a) ∧ i ≠ .eret ∧ i ≠ .mrts ∧
      t = { s with x := t.x, pc := t.pc, instret := t.instret, mem := t.mem, tc := t.tc, stalled := t.stalled }))

/-! ## The page-table walk, as a relation (21_paged_vm.md R245, steps 2 to 4) -/

/-- From the table at `a`, level `i`, with `glob` saying whether a pointer so far was global, the walk for `va`
finds the leaf. -/
inductive FindsLeaf (c : Config) (m : Memory) (va : Nat) : Nat → Nat → Bool → Leaf → Prop where
  | leaf (i a : Nat) (glob : Bool) (addr : Nat) (pte : Word)
      (hAddr : addr = a + va / 2 ^ (12 + vpnBits c * i) % 2 ^ vpnBits c * pteSize c)
      (hPte : pte = m.readWord addr (pteSize c))
      (hReadable : physCheck c addr (pteSize c) .load .supervisor true = true)
      (hValid : pte.getLsbD 0 = true)
      (hLeaf : 2 ≤ (pte.extractLsb' 1 4).toNat) :
      FindsLeaf c m va i a glob ⟨pte, i, addr, glob || decide (12 ≤ (pte.extractLsb' 1 4).toNat)⟩
  | pointer (i a : Nat) (glob : Bool) (addr : Nat) (pte : Word) (found : Leaf)
      (hAddr : addr = a + va / 2 ^ (12 + vpnBits c * (i + 1)) % 2 ^ vpnBits c * pteSize c)
      (hPte : pte = m.readWord addr (pteSize c))
      (hReadable : physCheck c addr (pteSize c) .load .supervisor true = true)
      (hValid : pte.getLsbD 0 = true)
      (hPointer : (pte.extractLsb' 1 4).toNat < 2)
      (next : FindsLeaf c m va i (ptePpn c pte * 4096) (glob || decide ((pte.extractLsb' 1 4).toNat = 1)) found) :
      FindsLeaf c m va (i + 1) a glob found

/-! ## Invariants -/

/-- The low `n` bits of a word are zero. -/
def lowZero (v : Word) (n : Nat) : Prop := v.toNat % 2 ^ n = 0

/-- Instruction addresses are 4-byte aligned wherever they are held (45_base_isa_interface.md R354): `pc`, `mepc`,
`sepc`, `mtvec`, `stvec`. -/
structure AlignedPc (s : State) : Prop where
  pc : lowZero s.pc 2
  mepc : lowZero s.mepc 2
  sepc : lowZero s.sepc 2
  mtvec : lowZero s.mtvec 2
  stvec : lowZero s.stvec 2

/-- The mode fields hold supported modes, VM a supported scheme, and FS and XS are 0 where hardwired (10_state.md
R32, R49; 11_machine_csrs.md R77, R78, R82). -/
structure LegalStatus (s : State) : Prop where
  prv : s.cfg.supports s.mstatus.e0.prv = true
  prv1 : s.cfg.supports s.mstatus.e1.prv = true
  prv2 : s.cfg.supports s.mstatus.e2.prv = true
  vm : s.cfg.supportsScheme s.mstatus.vm = true
  fs : s.cfg.hasF = false → s.mstatus.fs = .off
  xs : s.cfg.hasXs = false → s.mstatus.xs = .off

/-- A counter that stands on its compare value has set its latch (11_machine_csrs.md R116; 12_supervisor_csrs.md
R154). -/
structure TimersLatched (s : State) : Prop where
  machine : s.mtime.setWidth 32 = s.mtimecmp → s.mip.mti = true
  supervisor : s.cfg.hasS = true → s.stime.setWidth 32 = s.stimecmp → s.mip.sti = true

/-- Bits that are hardwired or do not exist read zero: the interrupt bits of an absent S-mode (11_machine_csrs.md
R109, R110), the delegation bits outside the mask (R103), the low bits of `sptbr` and the bits of `sasid` above
ASIDLEN (12_supervisor_csrs.md R162, R163). -/
structure HardwiredZero (s : State) : Prop where
  mip : s.cfg.hasS = false → s.mip.ssi = false ∧ s.mip.sti = false
  mie : s.cfg.hasS = false → s.mie.ssi = false ∧ s.mie.sti = false
  mtdeleg : s.mtdeleg &&& ~~~s.cfg.mtdelegMask = 0
  sptbr : lowZero s.sptbr 12
  sasid : s.sasid.toNat < 2 ^ s.cfg.asidLen

/-- A value fits XLEN bits. -/
def fits (s : State) (v : Word) : Prop := v.toNat < 2 ^ s.cfg.xlen

/-- Every XLEN-bit register holds an XLEN-bit value. -/
structure WidthOk (s : State) : Prop where
  x : ∀ r : Reg, fits s (s.x[r.toNat]'r.isLt)
  pc : fits s s.pc
  mtvec : fits s s.mtvec
  mtdeleg : fits s s.mtdeleg
  mscratch : fits s s.mscratch
  mepc : fits s s.mepc
  mbadaddr : fits s s.mbadaddr
  mbase : fits s s.mbase
  mbound : fits s s.mbound
  mibase : fits s s.mibase
  mibound : fits s s.mibound
  mdbase : fits s s.mdbase
  mdbound : fits s s.mdbound
  mtohost : fits s s.mtohost
  mfromhost : fits s s.mfromhost
  stvec : fits s s.stvec
  sscratch : fits s s.sscratch
  sepc : fits s s.sepc
  sbadaddr : fits s s.sbadaddr
  sptbr : fits s s.sptbr
  sasid : fits s s.sasid

end Sys2Proof.Machine
end

