-- ==== Sys2Proof/Certificates/Slice0/Obligations.lean ====
section
/-! DEFINITION. The statements about the model. OBLIGATIONS.json says, for each, which rules of spec/ it formalises. -/

open Sys2Proof Sys2Proof.Machine

/-! ## Encoding -/

/-- Every well-formed instruction, with every operand at every value its field admits, decodes from its encoding. The
base ISA's encodings are the spec's general knowledge (log 25). -/
def Obligations.DecodeOfEncode : Prop := ∀ i : Instr, i.wellFormed = true → decode (encode i) = .ok i

/-- A word the decoder accepts is the encoding of the instruction it reads: no bit is dropped, and no two words read
as one instruction. Unused fields of FENCE and FENCE.I are operands (log 14). -/
def Obligations.EncodeOfDecode : Prop := ∀ (w : Insn) (i : Instr), decode w = .ok i → encode i = w

/-- The words the spec writes out decode to the instructions it says they are (40_csr_instructions.md R292 to R297,
30_encoding.md R275, 46_base_isa_general_knowledge.md R380 to R431). The base ISA's words are general knowledge (log
25). -/
def Obligations.SpecWordsDecode : Prop :=
  decode 0x340312F3#32 = .ok (.csrrw 5 0x340 6) ∧ decode 0x34433073#32 = .ok (.csrrc 0 0x344 6) ∧
  decode 0xC00062F3#32 = .ok (.csrrsi 5 0xC00 0) ∧ decode 0x10000073#32 = .ok .eret ∧
  decode 0x30500073#32 = .ok .mrts ∧ decode 0x123452B7#32 = .ok (.lui 5 0x12345) ∧
  decode 0x008000EF#32 = .ok (.jal 1 8) ∧ decode 0xFE029EE3#32 = .ok (.bne 5 0 (-4)) ∧
  decode 0x0002A303#32 = .ok (.lw 6 5 0) ∧ decode 0x0062A023#32 = .ok (.sw 5 6 0) ∧
  decode 0xFFF00293#32 = .ok (.addi 5 0 (-1)) ∧ decode 0x006282B3#32 = .ok (.add 5 5 6) ∧
  decode 0x0FF0000F#32 = .ok (.fence 0 15 15 0 0) ∧ decode 0x0000100F#32 = .ok (.fenceI 0 0 0)

/-- The SYSTEM encodings that 30_encoding.md R277 lists have no instruction, and neither has any word whose low two
bits are not 11 (46_base_isa_general_knowledge.md R432): the decoder refuses each by its reason. That they are
illegal instructions is decision D18. -/
def Obligations.ReservedWordsRefused : Prop :=
  ∀ w : Insn,
    (w.extractLsb' 0 7 = 0x73#7 →
      (w.extractLsb' 12 3 = 4#3 ∨
        (w.extractLsb' 12 3 = 0#3 ∧
          (w.extractLsb' 7 5 ≠ 0#5 ∨ (w.extractLsb' 15 5 ≠ 0#5 ∧ w.extractLsb' 20 12 ≠ 0x101#12) ∨
            w.extractLsb' 20 12 ∉ [0x000#12, 0x001#12, 0x100#12, 0x101#12, 0x102#12, 0x205#12, 0x305#12, 0x306#12]))) →
      decode w = .error .reservedSystem) ∧
    (w.extractLsb' 0 2 ≠ 3#2 → decode w = .error .unknownOpcode)

/-! ## The step -/

/-- When the four bytes at the pc decode to `i`, and no interrupt is taken, the step is `exec` of `i`, on the state
the fetch leaves; around it, the environment acts first and its entry is used up after. R490 is the spec's own
composition; the environment's schedule is log 6. -/
def Obligations.StepRunsDecodedInstruction : Prop :=
  ∀ (s e t : State) (pa : Nat) (i : Instr),
    s.cfg.admitted = true → e = s.environment.woken → s.environment.staysStalled = false →
    e.chooseIrq e.now.irq = none → e.pc.toNat % 4 = 0 → e.translate e.pc .fetch 4 = .found t pa →
    decodeBytes [t.mem.read pa, t.mem.read (pa + 1), t.mem.read (pa + 2), t.mem.read (pa + 3)] = .ok (i, []) →
    step s = popOutcome (exec i t)

/-- When no interrupt is taken: a fetch that fails raises an instruction access fault at the pc, with the pc as bad
address; a word the decoder refuses raises illegal instruction. Causes by decisions D11 and D18. -/
def Obligations.StepWithoutInstruction : Prop :=
  ∀ (s e : State),
    s.cfg.admitted = true → e = s.environment.woken → s.environment.staysStalled = false →
    e.chooseIrq e.now.irq = none → e.pc.toNat % 4 = 0 →
    (∀ t, e.translate e.pc .fetch 4 = .fail t → ∃ u, step s = .next u.popEnv ∧ Raised t u 1 (some e.pc)) ∧
    (∀ t pa err, e.translate e.pc .fetch 4 = .found t pa →
      decode (insnOfBytes (t.mem.read pa) (t.mem.read (pa + 1)) (t.mem.read (pa + 2)) (t.mem.read (pa + 3))) =
        .error err →
      ∃ u, step s = .next u.popEnv ∧ Raised t u 2 none)

/-- An interrupt that is chosen is takeable, and the step is its trap: cause 0 or 1 with the interrupt bit, the
delegation bit 17, 19, 21 or 23 deciding its handler, the pc of the next instruction saved. With the choice `first`,
one is taken whenever some source is takeable. Choice and saved pc are decisions D7 and D34; `first` is log 7. -/
def Obligations.InterruptIsTaken : Prop :=
  ∀ (s e : State),
    s.cfg.admitted = true → e = s.environment.woken → s.environment.staysStalled = false →
    (∀ i, e.chooseIrq e.now.irq = some i →
      e.takeable i = true ∧
      ∃ t, step s = .next t.popEnv ∧
        TrapEntry e t true (if i = .ssi ∨ i = .msi then 0 else 1) (delegationBit i) e.pc none) ∧
    (e.now.irq = .first → (∃ i, e.takeable i = true) → ∃ i, e.chooseIrq e.now.irq = some i)

/-- A source is enabled when its `mie` bit is set and its level is above the current mode, or equal to it with IE
set; takeable when its `mip` bit is set too. So in U-mode IE does not matter, and in M-mode only the machine-level
sources can be taken, and need IE. R471 is marked derived by the spec. -/
def Obligations.InterruptEnabling : Prop :=
  ∀ (s : State) (i : Irq),
    (s.enabled i = true ↔ s.mie.get i = true ∧
      (s.prv.level < i.level.level ∨ (i.level = s.prv ∧ s.mstatus.e0.ie = true))) ∧
    (s.takeable i = true ↔ s.enabled i = true ∧ s.mip.get i = true) ∧
    (s.prv = .user → (s.enabled i = true ↔ s.mie.get i = true)) ∧
    (s.prv = .supervisor →
      (s.enabled i = true ↔ s.mie.get i = true ∧ ((i = .ssi ∨ i = .sti) → s.mstatus.e0.ie = true))) ∧
    (s.prv = .machine →
      (s.enabled i = true ↔ s.mie.get i = true ∧ (i = .msi ∨ i = .mti) ∧ s.mstatus.e0.ie = true))

/-- A stalled hart with nothing pending and no spurious wake-up executes nothing: the step is the environment's
alone. With any bit of `mip` set, enabled or not, the step is that of the hart awake. That a hart that wakes goes on
in the same step is log 35; the choices are log 8. -/
def Obligations.StallAndWake : Prop :=
  ∀ (s e : State),
    s.cfg.admitted = true → e = s.environment → e.stalled = true →
    (e.mip.any = false → e.now.wake = false → step s = .next e.popEnv) ∧
    ((e.mip.ssi = true ∨ e.mip.msi = true ∨ e.mip.sti = true ∨ e.mip.mti = true) →
      step s = popOutcome e.woken.hart)

/-- What the environment may do between two steps: advance the wall-clock counters by one amount and `cycle` by
another, each timer latch set when a value passed through meets the compare register; set or clear MSIP; set SSIP
where S-mode exists; write memory; drop cached translations; supply `mfromhost` where there is a host interface.
Nothing else changes. The schedule is log 6, `mfromhost` log 16, cache entries that leave log 9. -/
def Obligations.EnvironmentActions : Prop :=
  ∀ (s t : State) (e : EnvStep), e = s.now → t = s.environment →
    t = { s with mip := t.mip, mtime := t.mtime, stime := t.stime, time := t.time, cycle := t.cycle, mem := t.mem
                 mfromhost := t.mfromhost, tc := t.tc } ∧
    t.mtime = s.mtime + BitVec.ofNat 64 e.ticks ∧ t.stime = s.stime + BitVec.ofNat 64 e.ticks ∧
    t.time = s.time + BitVec.ofNat 64 e.ticks ∧ t.cycle = s.cycle + BitVec.ofNat 64 e.cycles ∧
    (t.mip.mti = true ↔ s.mip.mti = true ∨
      ∃ j ≤ e.ticks, (s.mtime + BitVec.ofNat 64 j).setWidth 32 = s.mtimecmp) ∧
    (t.mip.sti = true ↔ s.mip.sti = true ∨
      (s.cfg.hasS = true ∧ ∃ j ≤ e.ticks, (s.stime + BitVec.ofNat 64 j).setWidth 32 = s.stimecmp)) ∧
    t.mip.msi = e.msip.getD s.mip.msi ∧
    (t.mip.ssi = true ↔ s.mip.ssi = true ∨ (e.ssip = true ∧ s.cfg.hasS = true)) ∧
    (∀ a, (∀ b, (a, b) ∉ e.writes) → t.mem.read a = s.mem.read a) ∧
    (∀ c ∈ t.tc, c ∈ s.tc) ∧
    (s.cfg.hostInterface = false → t.mfromhost = s.mfromhost)

/-! ## Reset and the invariants -/

/-- After reset, whatever the configuration, the hart is in M-mode under Mbare, `mtvec` holds one of the two standard
values and the pc is the reset vector that belongs to it. -/
def Obligations.ResetState : Prop :=
  ∀ c : Config,
    (State.resetOf c).prv = .machine ∧ (State.resetOf c).mstatus.vm = .mbare ∧
    (c.mtvecHome = .low → (State.resetOf c).mtvec.toNat = 0x100 ∧ (State.resetOf c).pc.toNat = 0x200) ∧
    (c.mtvecHome = .high → (State.resetOf c).mtvec.toNat = 2 ^ c.xlen - 0x200 ∧
      (State.resetOf c).pc.toNat = 2 ^ c.xlen - 0x100)

/-- Every invariant below holds after reset, whatever the configuration; the hart is not stalled and TC is empty
(R502, which the spec marks derived); the configuration is the one given, and the reset state without one is that of
`Config.standard` (log 1). Canonical empty memory, the trap registers and the timer latches at reset are the model's
choices (log 3, log 4). -/
def Obligations.InvariantsAtReset : Prop :=
  ∀ c : Config,
    (State.resetOf c).mem.wf = true ∧ AlignedPc (State.resetOf c) ∧ LegalStatus (State.resetOf c) ∧
    TimersLatched (State.resetOf c) ∧ HardwiredZero (State.resetOf c) ∧ WidthOk (State.resetOf c) ∧
    (State.resetOf c).stalled = false ∧ (State.resetOf c).tc = [] ∧
    (State.resetOf c).cfg = c ∧ State.reset = State.resetOf Config.standard

/-- Every step keeps memory in its canonical form (the model's own form, log 4). -/
def Obligations.StepKeepsMemoryCanonical : Prop :=
  ∀ s t : State, s.mem.wf = true → step s = .next t → t.mem.wf = true

/-- Every step keeps the pc, and every register that a pc comes from, 4-byte aligned. For `stvec` by decision D9, for
`sepc` D29; IALIGN = 32 is D2. -/
def Obligations.StepKeepsPcAligned : Prop := ∀ s t : State, AlignedPc s → step s = .next t → AlignedPc t

/-- Every step keeps the modes supported ones, VM a supported scheme, and FS and XS zero where hardwired. That
unsupported values cannot be written is decision D6 (log 11). -/
def Obligations.StepKeepsLegalStatus : Prop := ∀ s t : State, LegalStatus s → step s = .next t → LegalStatus t

/-- Every step keeps the timer rule: a counter standing on its compare value has its pending bit set. -/
def Obligations.StepKeepsTimersLatched : Prop :=
  ∀ s t : State, TimersLatched s → step s = .next t → TimersLatched t

/-- A step never changes the implementation parameters, and keeps hardwired and absent bits zero. The low bits of
`sptbr` are decision D29. -/
def Obligations.StepKeepsHardwiredZero : Prop :=
  ∀ s t : State, step s = .next t → t.cfg = s.cfg ∧ (HardwiredZero s → HardwiredZero t)

/-- Every step keeps every XLEN-bit register an XLEN-bit value. Values in 64 bits whatever XLEN is log 2. -/
def Obligations.StepKeepsWidth : Prop := ∀ s t : State, WidthOk s → step s = .next t → WidthOk t

/-! ## Traps and privilege -/

/-- Taking a trap: the handler mode, the stack pushed with IE cleared, MPRV cleared, the `m` or the `s` registers
written, the vector, the hart awake, and nothing else; and what the cause registers then read as. Supervisor
registers and vector by decisions D33 and D9, the sum modulo 2^XLEN D12; code in bits 3:0 is general knowledge (log
24). -/
def Obligations.TakingATrap : Prop :=
  ∀ (s t : State) (interrupt : Bool) (code : BitVec 4) (d : Nat) (epc : Word) (bad : Option Word),
    t = s.takeTrap interrupt code d epc bad →
    TrapEntry s t interrupt code d epc bad ∧
    (s.handlerMode s.prv d = .machine →
      (t.csrRead .mcause).toNat = (if interrupt then 2 ^ (s.cfg.xlen - 1) else 0) + code.toNat) ∧
    (s.handlerMode s.prv d = .supervisor →
      (t.csrRead .scause).toNat = (if interrupt then 2 ^ (s.cfg.xlen - 1) else 0) + code.toNat)

/-- ECALL raises the environment-call exception of the current mode, code 8 + priv, and EBREAK the breakpoint
exception, code 3, in every mode; both save their own address, so neither completes. The registers and the vector of
a trap delegated to S-mode are decisions D33 and D9, the vector's sum modulo 2^XLEN D12, the unchanged count D30. -/
def Obligations.EnvironmentCallsTrap : Prop :=
  ∀ s : State, Raises .ecall s (BitVec.ofNat 4 (8 + prvNumber s.prv)) none ∧ Raises .ebreak s 3 none

/-- ERET pops the privilege stack and continues at the `epc` of the mode it is executed in; in U-mode it is illegal.
Popping undoes the push of a trap. That it is counted is decision D30 (R304), that popping undoes the push the spec's
derivation in R317, the U-mode trap's supervisor registers and vector decisions D33 and D9. -/
def Obligations.EretReturns : Prop :=
  ∀ s : State,
    (s.prv = .user → Raises .eret s 2 none) ∧
    (s.prv ≠ .user →
      ∃ t, exec .eret s = .next t ∧
        t.pc = s.valueOf (if s.prv = .machine then s.mepc else s.sepc).toNat ∧
        t.mstatus.e0 = s.mstatus.e1 ∧
        (s.cfg.depth = 2 → t.mstatus.e1 = ⟨s.cfg.lowest, true⟩ ∧ t.mstatus.e2 = s.mstatus.e2) ∧
        (s.cfg.depth = 3 → t.mstatus.e1 = s.mstatus.e2 ∧ t.mstatus.e2 = ⟨s.cfg.lowest, true⟩) ∧
        t.mstatus = { s.mstatus with e0 := t.mstatus.e0, e1 := t.mstatus.e1, e2 := t.mstatus.e2 } ∧
        t.instret = s.instret + 1 ∧ (∀ r, t.readX r = s.readX r) ∧ (∀ a, t.mem.read a = s.mem.read a) ∧
        t = { s with pc := t.pc, mstatus := t.mstatus, instret := t.instret }) ∧
    (∀ target, ((s.mstatus.push s.cfg target).pop s.cfg).e0 = s.mstatus.e0 ∧
      (s.cfg.depth = 3 → ((s.mstatus.push s.cfg target).pop s.cfg).e1 = s.mstatus.e1))

/-- MRTS, in M-mode where S-mode exists, copies `mepc`, `mcause`, `mbadaddr` to the supervisor's registers, changes
the mode to S and continues at `stvec`, leaving IE, the rest of the stack and MPRV alone; elsewhere it is illegal.
MRTH and HRTS are illegal everywhere (no admitted configuration has H-mode). Decisions D17, D18, D33, D4. -/
def Obligations.TrapRedirection : Prop :=
  ∀ s : State,
    (s.prv = .machine → s.cfg.hasS = true →
      ∃ t, exec .mrts s = .next t ∧ t.sepc = s.mepc ∧ t.scause = s.mcause ∧ t.sbadaddr = s.mbadaddr ∧
        t.mstatus = { s.mstatus with e0 := ⟨.supervisor, s.mstatus.e0.ie⟩ } ∧ t.pc = s.valueOf s.stvec.toNat ∧
        t.instret = s.instret + 1 ∧ (∀ r, t.readX r = s.readX r) ∧ (∀ a, t.mem.read a = s.mem.read a) ∧
        t = { s with sepc := t.sepc, scause := t.scause, sbadaddr := t.sbadaddr, mstatus := t.mstatus, pc := t.pc
                     instret := t.instret }) ∧
    ((s.prv ≠ .machine ∨ s.cfg.hasS = false) → Raises .mrts s 2 none) ∧
    Raises .mrth s 2 none ∧ Raises .hrts s 2 none

/-- MRTS after a trap to M-mode leaves what a delegated trap would have left: the same status, supervisor registers
and pc, for an exception and for an interrupt. (42_trap_redirect.md R322; the bad address is compared where the trap
has one.) The spec's own derivation from decisions D17, D33. -/
def Obligations.RedirectionEqualsDelegation : Prop :=
  ∀ (s d t u v : State) (interrupt : Bool) (code : BitVec 4) (k : Nat) (epc : Word) (bad : Option Word),
    s.cfg.hasS = true → s.prv ≠ .machine → s.mtdeleg.getLsbD k = false →
    d.mtdeleg.getLsbD k = true → d = { s with mtdeleg := d.mtdeleg } → fits s s.stvec →
    t = s.takeTrap interrupt code k epc bad → exec .mrts t = .next u → v = d.takeTrap interrupt code k epc bad →
    u.mstatus = v.mstatus ∧ u.sepc = v.sepc ∧ u.scause = v.scause ∧ u.pc = v.pc ∧
    (bad.isSome = true → u.sbadaddr = v.sbadaddr)

/-- The only ways an instruction changes the privilege mode: a trap, which never lowers it and pushes the stack; ERET
outside U-mode, which restores entry 1; MRTS in M-mode, which gives S; a CSR instruction on `mstatus` in M-mode. By a
CSR write of PRV: the spec's derivation in R72. -/
def Obligations.ModeChanges : Prop :=
  ∀ (i : Instr) (s t : State), exec i s = .next t → t.prv ≠ s.prv →
    (s.prv.level ≤ t.prv.level ∧ t.mstatus = s.mstatus.push s.cfg t.prv ∧ t.instret = s.instret) ∨
    (i = .eret ∧ s.prv ≠ .user ∧ t.prv = s.mstatus.e1.prv) ∨
    (i = .mrts ∧ s.prv = .machine ∧ t.prv = .supervisor) ∨
    (AccessesCsr i 0x300#12 ∧ s.prv = .machine)

/-- What an instruction executed in U-mode can change: integer and floating-point status registers, the pc, memory
and cached translations, the count of instructions; and by a trap the trap registers and the privilege stack. Every
other register of every level is as before, the scheme, the vectors, the delegation, the timers, the interrupt
registers and the page-table root among them. Precise traps are decision D39. -/
def Obligations.UserModeConfinement : Prop :=
  ∀ (i : Instr) (s t : State), s.prv = .user → exec i s = .next t →
    t = { s with x := t.x, pc := t.pc, fflags := t.fflags, frm := t.frm, instret := t.instret, mstatus := t.mstatus
                 mepc := t.mepc, mcause := t.mcause, mbadaddr := t.mbadaddr, sepc := t.sepc, scause := t.scause
                 sbadaddr := t.sbadaddr, stalled := t.stalled, tc := t.tc, mem := t.mem, free := t.free } ∧
    ((t.mstatus = s.mstatus.push s.cfg t.prv ∧ t.instret = s.instret) ∨
      (t.mstatus = { s.mstatus with fs := t.mstatus.fs } ∧ t.mepc = s.mepc ∧ t.mcause = s.mcause ∧
        t.mbadaddr = s.mbadaddr ∧ t.sepc = s.sepc ∧ t.scause = s.scause ∧ t.sbadaddr = s.sbadaddr ∧
        t.stalled = s.stalled ∧ t.free = s.free))

/-- WFI outside U-mode completes as a NOP and may leave the hart stalled, never with an interrupt pending; in U-mode
it is illegal. Whether it stalls is the schedule's choice (log 8). -/
def Obligations.WfiCompletes : Prop :=
  ∀ s : State,
    (s.prv = .user → Raises .wfi s 2 none) ∧
    (s.prv ≠ .user →
      ∃ t, exec .wfi s = .next t ∧ t.pc = s.nextPc ∧ t.instret = s.instret + 1 ∧
        (t.stalled = true ↔ s.now.stall = true ∧ s.mip = ⟨false, false, false, false⟩) ∧
        (∀ r, t.readX r = s.readX r) ∧ (∀ a, t.mem.read a = s.mem.read a) ∧
        t = { s with pc := t.pc, instret := t.instret, stalled := t.stalled })

/-- SFENCE.VM outside U-mode removes every cached translation that covers the address in `x[rs1]` (all, when rs1 is
x0) and belongs to the address space in `sasid` (all, and the global ones, when `sasid` is 0 or absent), and changes
nothing else but the pc and the count; in U-mode it is illegal. That no other entry goes is the model's choice (log
31). The cache is decision D36. -/
def Obligations.SfenceVmRemoves : Prop :=
  ∀ (s : State) (rs1 : Reg),
    (s.prv = .user → Raises (.sfenceVm rs1) s 2 none) ∧
    (s.prv ≠ .user → s.hasRegs [rs1] = true →
      ∃ t, exec (.sfenceVm rs1) s = .next t ∧
        (∀ e, e ∈ t.tc ↔ e ∈ s.tc ∧
          ¬((rs1 = 0 ∨ (s.readX rs1).toNat / pageBytes s.cfg e.level = e.vaBase.toNat / pageBytes s.cfg e.level) ∧
            (s.sasid = 0 ∨ s.cfg.hasS = false ∨ s.cfg.hasPaging = false ∨
              (e.asid = s.sasid ∧ e.isGlobal = false)))) ∧
        t.pc = s.nextPc ∧ t.instret = s.instret + 1 ∧ (∀ r, t.readX r = s.readX r) ∧
        (∀ a, t.mem.read a = s.mem.read a) ∧ t = { s with tc := t.tc, pc := t.pc, instret := t.instret })

/-! ## CSRs -/

/-- The registers an implementation has, and at which address (10_state.md R35 to R38, R41, R42): an access to one
passes the checks exactly where the privilege that bits 9:8 of the address name is held, it is no write of a
read-only register, no higher level intercepts it, and, for a floating-point CSR, FS is not Off. A CSR instruction on
an address where no register is implemented, or that fails one of these tests, raises illegal instruction and changes
no register. CSRRWI with zero is decision D19, floating-point CSRs D32, the host interface D26 (log 16), the
addresses of `scause` and `sbadaddr` D25 (log 33). -/
def Obligations.CsrIllegalAccess : Prop :=
  ∀ (s : State) (a : CsrAddr) (rd rs1 : Reg) (zimm : BitVec 5) (write : Bool),
    (s.cfg.admitted = true → ∀ r, s.csrCheck a write = some r ↔ CsrAllowed s a write r) ∧
    ((csrAt s.cfg a = none ∨ prvNumber s.prv < a.toNat / 256 % 4 ∨
      (write = true ∧ ∃ row, csrAt s.cfg a = some row ∧ row.readOnly = true) ∨
      (a, s.prv, write) ∈ s.cfg.trapLower ∨
      ((a = 0x001#12 ∨ a = 0x002#12 ∨ a = 0x003#12) ∧ s.mstatus.fs = .off)) →
      s.csrCheck a write = none) ∧
    (s.csrCheck a write = none →
      (write = true → Raises (.csrrw rd a rs1) s 2 none) ∧
      (write = decide (rs1 ≠ 0) → Raises (.csrrs rd a rs1) s 2 none ∧ Raises (.csrrc rd a rs1) s 2 none) ∧
      (write = (decide (zimm ≠ 0) || s.cfg.csrrwiZeroWrites) → Raises (.csrrwi rd a zimm) s 2 none) ∧
      (write = decide (zimm ≠ 0) → Raises (.csrrsi rd a zimm) s 2 none ∧ Raises (.csrrci rd a zimm) s 2 none))

/-- A CSR instruction that does not write (rs1 = x0 in the set and clear forms, a zero immediate) and passes the
checks reads the register into `x[rd]` and changes nothing else. CSRRWI with zero is decision D19. -/
def Obligations.CsrReadOnlyForms : Prop :=
  ∀ (s : State) (a : CsrAddr) (r : Csr) (rd : Reg),
    s.csrCheck a false = some r → s.hasRegs [rd] = true →
    (∀ i, i ∈ [Instr.csrrs rd a 0, .csrrc rd a 0, .csrrsi rd a 0, .csrrci rd a 0] →
      ∃ t, exec i s = .next t ∧ Wrote s t rd (s.csrRead r) s.nextPc) ∧
    (s.cfg.csrrwiZeroWrites = false →
      ∃ t, exec (.csrrwi rd a 0) s = .next t ∧ Wrote s t rd (s.csrRead r) s.nextPc)

/-- A CSR instruction that writes and passes the checks: `x[rd]` gets the old value, the register gets the operand
(swap), the old value with the operand's bits set, or with them cleared; nothing else changes but the pc and the
count. rd and rs1 may be one register. The dropped count is decision D30 (log 19). -/
def Obligations.CsrWritingForms : Prop :=
  ∀ (s : State) (a : CsrAddr) (r : Csr) (rd rs1 : Reg) (zimm : BitVec 5),
    s.csrCheck a true = some r → s.hasRegs [rd, rs1] = true →
    WritesCsr (.csrrw rd a rs1) s r rd (s.readX rs1) ∧
    (rs1 ≠ 0 → WritesCsr (.csrrs rd a rs1) s r rd (s.csrRead r ||| s.readX rs1) ∧
      WritesCsr (.csrrc rd a rs1) s r rd (s.csrRead r &&& ~~~s.readX rs1)) ∧
    (zimm ≠ 0 ∨ s.cfg.csrrwiZeroWrites = true → WritesCsr (.csrrwi rd a zimm) s r rd (zimm.setWidth 64)) ∧
    (zimm ≠ 0 → WritesCsr (.csrrsi rd a zimm) s r rd (s.csrRead r ||| zimm.setWidth 64) ∧
      WritesCsr (.csrrci rd a zimm) s r rd (s.csrRead r &&& ~~~zimm.setWidth 64))

/-- Every instruction answers a next state in every state, but for one refusal, which happens exactly where a CSR
instruction whose registers exist passes the checks and the value it writes to `mstatus` has an unsupported PRV, PRVn
or VM value. No instruction faults. The refusal is decision D6 (log 11), CSRRWI with zero D19. -/
def Obligations.OnlyUnsupportedStatusIsRefused : Prop :=
  ∀ (i : Instr) (s : State),
    ((∃ t, exec i s = .next t) ∨ exec i s = .refused .unsupportedStatusValue) ∧
    (exec i s = .refused .unsupportedStatusValue ↔
      s.hasRegs (namedRegs i) = true ∧
      ∃ v, WritesValue i s 0x300#12 .mstatus v ∧ s.csrCheck 0x300#12 true = some .mstatus ∧
        s.csrWrite .mstatus v = none)

/-- What a write of an XLEN-bit value leaves to be read: the whole value in a plain register; the low two bits zero
in `mepc`, `sepc`, `stvec`; the low twelve in `sptbr`; ASIDLEN bits of `sasid`; 32 bits of a compare register; the
sign bit and four bits of `mcause`; the writable bits of `mtdeleg`; the bits of the floating-point CSRs; all of a
counter, or one of its halves with XLEN = 32, the other half as before. And the identity registers read the
parameters. Decisions D9, D14, D29, D32 and general knowledge (log 24). -/
def Obligations.CsrReadBack : Prop :=
  ∀ (s u : State) (r : Csr) (v : Word), fits s v → s.csrWrite r v = some u →
    (r ∈ [Csr.mscratch, .sscratch, .mbadaddr, .mbase, .mbound, .mibase, .mibound, .mdbase, .mdbound, .mtohost,
        .mfromhost, .cycle, .time, .instret, .mtime, .stime] → u.csrRead r = v) ∧
    (r ∈ [Csr.mepc, .sepc, .stvec] → (u.csrRead r).toNat = v.toNat / 4 * 4) ∧
    (r = .sptbr → (u.csrRead r).toNat = v.toNat / 4096 * 4096) ∧
    (r = .sasid → (u.csrRead r).toNat = v.toNat % 2 ^ s.cfg.asidLen) ∧
    (r ∈ [Csr.mtimecmp, .stimecmp] → (u.csrRead r).toNat = v.toNat % 2 ^ 32) ∧
    (r = .mcause → (u.csrRead r).toNat =
      v.toNat / 2 ^ (s.cfg.xlen - 1) % 2 * 2 ^ (s.cfg.xlen - 1) + v.toNat % 16) ∧
    (r = .mtdeleg → u.csrRead r = v &&& s.cfg.mtdelegMask) ∧
    (r = .fflags → (u.csrRead .fflags).toNat = v.toNat % 32 ∧ u.csrRead .frm = s.csrRead .frm) ∧
    (r = .frm → (u.csrRead .frm).toNat = v.toNat % 8 ∧ u.csrRead .fflags = s.csrRead .fflags) ∧
    (r = .fcsr → (u.csrRead .fflags).toNat = v.toNat % 32 ∧ (u.csrRead .frm).toNat = v.toNat / 32 % 8 ∧
      (u.csrRead .fcsr).toNat = v.toNat % 256) ∧
    (r ∈ [Csr.cycleh, .timeh, .instreth, .mtimeh, .stimeh] → s.cfg.rv64 = false → u.csrRead r = v) ∧
    (∀ (low high : Csr) (old new : BitVec 64),
      (low, high, old, new) ∈
        [ (Csr.cycle, Csr.cycleh, s.cycle, u.cycle), (.time, .timeh, s.time, u.time)
        , (.instret, .instreth, s.instret, u.instret), (.mtime, .mtimeh, s.mtime, u.mtime)
        , (.stime, .stimeh, s.stime, u.stime) ] →
      s.cfg.rv64 = false →
      (r = low → new.toNat = old.toNat / 2 ^ 32 * 2 ^ 32 + v.toNat) ∧
      (r = high → new.toNat = v.toNat * 2 ^ 32 + old.toNat % 2 ^ 32)) ∧
    (s.cfg.admitted = true →
      s.csrRead .mcpuid = s.cfg.mcpuid ∧ s.csrRead .mimpid = s.cfg.mimpid ∧ s.csrRead .mhartid = s.cfg.mhartid)

/-- A write of `mstatus` is refused exactly when VM is not the number of a supported scheme (Mbare 0, Mbb 1, Mbbid 2,
Sv32 8, Sv39 9, Sv48 10) or, with more than one mode, a PRV field that exists is not the number of a supported mode;
else every field takes its bits of the value, but those hardwired. R89 is marked derived by the spec; the refusal is
decision D6 (log 11). -/
def Obligations.MstatusWrite : Prop :=
  ∀ (s : State) (v : Word),
    (s.csrWrite .mstatus v = none ↔
      (∀ k, vmNumber k = v.toNat / 131072 % 32 → s.cfg.supportsScheme k = false) ∨
      (s.cfg.modes ≠ .m ∧ ((∀ p, prvNumber p = v.toNat / 2 % 4 → s.cfg.supports p = false) ∨
        (∀ p, prvNumber p = v.toNat / 16 % 4 → s.cfg.supports p = false) ∨
        (s.cfg.depth = 3 ∧ ∀ p, prvNumber p = v.toNat / 128 % 4 → s.cfg.supports p = false)))) ∧
    (∀ u, s.csrWrite .mstatus v = some u →
      vmNumber u.mstatus.vm = v.toNat / 131072 % 32 ∧ u.mstatus.mprv = v.getLsbD 16 ∧
      u.mstatus.e0.ie = v.getLsbD 0 ∧ u.mstatus.e1.ie = v.getLsbD 3 ∧
      (s.cfg.depth = 3 → u.mstatus.e2.ie = v.getLsbD 6) ∧ (s.cfg.depth ≠ 3 → u.mstatus.e2 = s.mstatus.e2) ∧
      (s.cfg.modes ≠ .m → prvNumber u.mstatus.e0.prv = v.toNat / 2 % 4 ∧
        prvNumber u.mstatus.e1.prv = v.toNat / 16 % 4 ∧
        (s.cfg.depth = 3 → prvNumber u.mstatus.e2.prv = v.toNat / 128 % 4)) ∧
      (s.cfg.modes = .m → u.mstatus.e0.prv = s.mstatus.e0.prv ∧ u.mstatus.e1.prv = s.mstatus.e1.prv) ∧
      statusNumber u.mstatus.fs = (if s.cfg.hasF then v.toNat / 4096 % 4 else 0) ∧
      statusNumber u.mstatus.xs = (if s.cfg.hasXs then v.toNat / 16384 % 4 else 0) ∧
      u = { s with mstatus := u.mstatus })

/-- What `mstatus` reads as: each field at its place, VM by the numbers 0, 1, 2, 8, 9, 10, FS and XS by 0 to 3, SD at
bit XLEN-1 computed from FS and XS, zero elsewhere; SD is no storage, a write of it is ignored. Entries that do not
exist read 0 by decision D5. -/
def Obligations.MstatusRead : Prop :=
  ∀ s : State,
    (s.csrRead .mstatus).toNat =
      s.mstatus.e0.ie.toNat + 2 * prvNumber s.mstatus.e0.prv + 8 * s.mstatus.e1.ie.toNat +
      16 * prvNumber s.mstatus.e1.prv +
      (if s.cfg.depth = 3 then 64 * s.mstatus.e2.ie.toNat + 128 * prvNumber s.mstatus.e2.prv else 0) +
      4096 * statusNumber s.mstatus.fs + 16384 * statusNumber s.mstatus.xs + 65536 * s.mstatus.mprv.toNat +
      131072 * vmNumber s.mstatus.vm +
      (if s.mstatus.fs = .dirty ∨ s.mstatus.xs = .dirty then 2 ^ (s.cfg.xlen - 1) else 0) ∧
    ∀ v w, v &&& ~~~s.cfg.signBit = w &&& ~~~s.cfg.signBit → s.csrWrite .mstatus v = s.csrWrite .mstatus w

/-- `sstatus` is a view of `mstatus`: IE, PIE = IE1, PS = 0 exactly when PRV1 is U, FS, XS, MPRV and SD; a write
changes those fields of `mstatus` and nothing else. The view is decision D28. -/
def Obligations.SstatusView : Prop :=
  ∀ s : State,
    (s.csrRead .sstatus).toNat =
      s.mstatus.e0.ie.toNat + 8 * s.mstatus.e1.ie.toNat + (if s.mstatus.e1.prv = .user then 0 else 16) +
      4096 * statusNumber s.mstatus.fs + 16384 * statusNumber s.mstatus.xs + 65536 * s.mstatus.mprv.toNat +
      (if s.mstatus.fs = .dirty ∨ s.mstatus.xs = .dirty then 2 ^ (s.cfg.xlen - 1) else 0) ∧
    ∀ v, ∃ u, s.csrWrite .sstatus v = some u ∧
      u.mstatus.e0 = ⟨s.mstatus.e0.prv, v.getLsbD 0⟩ ∧
      u.mstatus.e1 = ⟨if v.getLsbD 4 then .supervisor else .user, v.getLsbD 3⟩ ∧ u.mstatus.e2 = s.mstatus.e2 ∧
      statusNumber u.mstatus.fs = (if s.cfg.hasF then v.toNat / 4096 % 4 else 0) ∧
      statusNumber u.mstatus.xs = (if s.cfg.hasXs then v.toNat / 16384 % 4 else 0) ∧ u.mstatus.mprv = v.getLsbD 16 ∧
      u.mstatus.vm = s.mstatus.vm ∧ u = { s with mstatus := u.mstatus }

/-- A write of `mtimecmp` or `stimecmp`, whatever the value, stores its low 32 bits and clears the pending bit,
unless the counter stands on the value written. A write of `mtime` does not clear it. Their upper bits are decision
D14. -/
def Obligations.CompareWriteClearsTimer : Prop :=
  ∀ (s u : State) (v : Word),
    (s.csrWrite .mtimecmp v = some u →
      u.mtimecmp = v.setWidth 32 ∧ (u.mip.mti = true ↔ s.mtime.setWidth 32 = v.setWidth 32)) ∧
    (s.csrWrite .stimecmp v = some u →
      u.stimecmp = v.setWidth 32 ∧
      (u.mip.sti = true ↔ s.cfg.hasS = true ∧ s.stime.setWidth 32 = v.setWidth 32)) ∧
    (s.csrWrite .mtime v = some u → s.mip.mti = true → u.mip.mti = true) ∧
    (s.csrWrite .mip v = some u → u.mip.mti = s.mip.mti ∧ u.mip.sti = s.mip.sti)

/-- `mip` and `mie` at their bits; a write of `mip` changes the software-interrupt bits only, a write of `sip` SSIP
only, a write of `sie` the supervisor's two enables only; the bits of an absent S-mode stay zero. The software bits'
places are general knowledge (log 24), the views decision D28. -/
def Obligations.InterruptRegisters : Prop :=
  ∀ (s : State) (v : Word),
    (s.csrRead .mip).toNat =
      2 * s.mip.ssi.toNat + 8 * s.mip.msi.toNat + 32 * s.mip.sti.toNat + 128 * s.mip.mti.toNat ∧
    (s.csrRead .mie).toNat =
      2 * s.mie.ssi.toNat + 8 * s.mie.msi.toNat + 32 * s.mie.sti.toNat + 128 * s.mie.mti.toNat ∧
    (s.csrRead .sip).toNat = 2 * s.mip.ssi.toNat + 32 * s.mip.sti.toNat ∧
    (s.csrRead .sie).toNat = 2 * s.mie.ssi.toNat + 32 * s.mie.sti.toNat ∧
    s.csrWrite .mip v =
      some { s with mip := ⟨s.cfg.hasS && v.getLsbD 1, v.getLsbD 3, s.mip.sti, s.mip.mti⟩ } ∧
    s.csrWrite .mie v =
      some { s with mie := ⟨s.cfg.hasS && v.getLsbD 1, v.getLsbD 3, s.cfg.hasS && v.getLsbD 5, v.getLsbD 7⟩ } ∧
    s.csrWrite .sip v = some { s with mip := ⟨v.getLsbD 1, s.mip.msi, s.mip.sti, s.mip.mti⟩ } ∧
    s.csrWrite .sie v = some { s with mie := ⟨v.getLsbD 1, s.mie.msi, v.getLsbD 5, s.mie.mti⟩ }

/-- A write of `mtvec`: nothing with no writable bit; else every writable bit takes its bit of the value, the bits
between the highest writable bit and the sign bit take the sign bit, and the low two bits are zero. Which way the
sign bit goes is read from R94; log 29 for the other bits. -/
def Obligations.MtvecWrite : Prop :=
  ∀ (s u : State) (v : Word), s.cfg.admitted = true → fits s v → s.csrWrite .mtvec v = some u →
    (s.cfg.mtvecMask = 0 → u = s) ∧
    (s.cfg.mtvecMask ≠ 0 →
      (∀ j, s.cfg.mtvecMask.getLsbD j = true → u.mtvec.getLsbD j = v.getLsbD j) ∧
      (∀ j, j < s.cfg.xlen - 1 → (∀ k, j ≤ k → k < s.cfg.xlen - 1 → s.cfg.mtvecMask.getLsbD k = false) →
        u.mtvec.getLsbD j = v.getLsbD (s.cfg.xlen - 1)) ∧
      u.mtvec.toNat % 4 = 0)

/-- With Mbbid present the addresses of `mbase` and `mbound` are access paths: a write goes to both pairs, a read
comes from the data pair. Without it they are registers of their own. -/
def Obligations.BaseBoundAccessPaths : Prop :=
  ∀ (s : State) (v : Word), s.cfg.admitted = true → WidthOk s →
    (s.cfg.hasMbbid = true →
      s.cfg.hasMbb = true ∧
      s.csrWrite .mbase v = some { s with mibase := v, mdbase := v } ∧
      s.csrWrite .mbound v = some { s with mibound := v, mdbound := v } ∧
      s.csrRead .mbase = s.mdbase ∧ s.csrRead .mbound = s.mdbound) ∧
    (s.cfg.hasMbbid = false →
      s.csrWrite .mbase v = some { s with mbase := v } ∧ s.csrWrite .mbound v = some { s with mbound := v } ∧
      s.csrRead .mbase = s.mbase ∧ s.csrRead .mbound = s.mbound)

/-- A write of a floating-point CSR makes FS Dirty; with FS = Off no floating-point CSR can be accessed in any mode,
and without a floating-point unit none exists. Decision D32. -/
def Obligations.FloatingPointCsrs : Prop :=
  ∀ (s : State) (a : CsrAddr) (w : Bool), s.cfg.admitted = true → a ∈ [0x001#12, 0x002#12, 0x003#12] →
    (s.mstatus.fs = .off → s.csrCheck a w = none) ∧
    (s.cfg.hasF = false → s.csrCheck a w = none) ∧
    (∀ r u v, s.csrCheck a w = some r → s.csrWrite r v = some u → u.mstatus.fs = .dirty)

/-- An instruction counts in `instret` exactly when it completes. One that traps adds nothing, saves its own address,
and has changed nothing before but by the translation of its own access, where that failed; one that completes adds
one; a CSR instruction that writes `instret` leaves there what it wrote, its own count dropped. Decisions D30 and D39
(log 19). -/
def Obligations.RetiresOrTraps : Prop :=
  ∀ (i : Instr) (s t : State), exec i s = .next t →
    (Trapped i s t ∧ t.instret = s.instret) ∨
    (Completed i s t ∧ t.instret = s.instret + 1 ∧
      ∀ a r v, WritesValue i s a r v → s.csrCheck a true = some r → r ≠ .instret ∧ r ≠ .instreth) ∨
    (s.hasRegs (namedRegs i) = true ∧
      ∃ a r v u, WritesValue i s a r v ∧ s.csrCheck a true = some r ∧ (r = .instret ∨ r = .instreth) ∧
        s.csrWrite r v = some u ∧ t.instret = u.instret)

/-! ## Translation -/

/-- Under Mbare, and for an access performed at M, the physical address is the virtual one with the bits at and above
PALEN dropped; the access fails exactly where the physical checks reject it, and changes no state. The checks: the
access lies below 2^PALEN and in a region that supports its kind and width, and that grants its kind at its privilege
where the access control applies: to every access in U or S, and to loads and stores under MPRV. M-mode under the
paged schemes is decision D10, `PhysCheck` D23 as a list of regions (log 10), MPRV with PRV1 = M log 22. -/
def Obligations.UntranslatedAccess : Prop :=
  ∀ (s : State) (va : Word) (acc : Access) (n : Nat),
    (∀ pa, s.mstatus.vm = .mbare ∨ s.effPriv acc = .machine → pa = va.toNat % 2 ^ s.cfg.palen →
      s.translate va acc n =
        if physCheck s.cfg pa n acc (s.effPriv acc) (s.controlled acc) then .found s pa else .fail s) ∧
    (s.controlled acc = true ↔ s.prv ≠ .machine ∨ (acc ≠ .fetch ∧ s.mstatus.mprv = true)) ∧
    (∀ pa p controlled, physCheck s.cfg pa n acc p controlled = true ↔
      pa + n ≤ 2 ^ s.cfg.palen ∧
      ∃ r ∈ s.cfg.regions, r.base ≤ pa ∧ pa + n ≤ r.base + r.size ∧ (acc, n) ∈ r.supported ∧
        (controlled = true → (acc, p) ∈ r.granted))

/-- The privilege a load or store is performed at is PRV1 under MPRV, else PRV; a fetch is performed at PRV. -/
def Obligations.EffectivePrivilege : Prop :=
  ∀ s : State,
    s.effPriv .fetch = s.prv ∧
    (s.mstatus.mprv = true → s.effPriv .load = s.mstatus.e1.prv ∧ s.effPriv .store = s.mstatus.e1.prv) ∧
    (s.mstatus.mprv = false → s.effPriv .load = s.prv ∧ s.effPriv .store = s.prv)

/-- Under Mbb, below M: an access whose last byte is at or past the bound fails; else the base is added modulo 2^XLEN
and the sum truncated to PALEN bits. With Mbbid present each kind of access uses its own pair. Decisions D38 and D12
(log 20), `PhysCheck` D23 (log 10); with Mbbid present the spec's derivation in R193. -/
def Obligations.BaseAndBound : Prop :=
  ∀ (s : State) (va base bound : Word) (acc : Access) (n : Nat),
    s.mstatus.vm = .mbb → s.effPriv acc ≠ .machine →
    base = (if s.cfg.hasMbbid then (if acc = .fetch then s.mibase else s.mdbase) else s.mbase) →
    bound = (if s.cfg.hasMbbid then (if acc = .fetch then s.mibound else s.mdbound) else s.mbound) →
    (bound.toNat ≤ va.toNat + (n - 1) → s.translate va acc n = .fail s) ∧
    (∀ pa, va.toNat + (n - 1) < bound.toNat → pa = (va.toNat + base.toNat) % 2 ^ s.cfg.xlen % 2 ^ s.cfg.palen →
      s.translate va acc n =
        if physCheck s.cfg pa n acc (s.effPriv acc) (s.controlled acc) then .found s pa else .fail s)

/-- Under Mbbid, below M: a fetch needs the top bit of its address set and is translated without it through the
instruction pair; a load or store goes through the data pair. The sums are taken modulo 2^XLEN and truncated to PALEN
bits. Decisions D11, D38 and D12 (log 20), `PhysCheck` D23 (log 10). -/
def Obligations.SplitBaseAndBound : Prop :=
  ∀ (s : State) (va : Word) (acc : Access) (n : Nat),
    s.mstatus.vm = .mbbid → s.effPriv acc ≠ .machine → fits s va →
    (acc = .fetch →
      (va.toNat < 2 ^ (s.cfg.xlen - 1) → s.translate va acc n = .fail s) ∧
      (∀ off, va.toNat = 2 ^ (s.cfg.xlen - 1) + off →
        (s.mibound.toNat ≤ off + (n - 1) → s.translate va acc n = .fail s) ∧
        (∀ pa, off + (n - 1) < s.mibound.toNat → pa = (off + s.mibase.toNat) % 2 ^ s.cfg.xlen % 2 ^ s.cfg.palen →
          s.translate va acc n =
            if physCheck s.cfg pa n acc (s.effPriv acc) (s.controlled acc) then .found s pa else .fail s))) ∧
    (acc ≠ .fetch →
      (s.mdbound.toNat ≤ va.toNat + (n - 1) → s.translate va acc n = .fail s) ∧
      (∀ pa, va.toNat + (n - 1) < s.mdbound.toNat →
        pa = (va.toNat + s.mdbase.toNat) % 2 ^ s.cfg.xlen % 2 ^ s.cfg.palen →
        s.translate va acc n =
          if physCheck s.cfg pa n acc (s.effPriv acc) (s.controlled acc) then .found s pa else .fail s))

/-- The walk's search for a leaf is the relation of the translation algorithm, steps 2 to 4: from each level it
follows valid pointers through readable entries and ends at the first valid leaf. The checks of the walk's own
accesses are decision D27; V at bit 0 is the source's, Type at bits 4:1 of a PTE general knowledge (G6, log 24). -/
def Obligations.WalkFindsTheLeaf : Prop :=
  ∀ (c : Config) (m : Memory) (va level table : Nat) (glob : Bool) (leaf : Leaf),
    findLeaf c m va level table glob = some leaf ↔ FindsLeaf c m va level table glob leaf

/-- The outcome of a walk. It fails, changing nothing, for an address that is not canonical (bits above VABITS not
all equal to the highest below), where no leaf is found, where the leaf does not permit the access, or where a bit of
the leaf is to be set and the physical checks reject that write. Else it succeeds: the leaf's R bit, and for a store
its D bit, are set, no other byte of memory and no other bit of the leaf changes, and the physical address takes the
page offset (of the superpage) from the virtual address and the rest from the leaf. Failures by decision D11, the
checks D27; the positions of Type, R and D are general knowledge (G6, log 24). -/
def Obligations.WalkOutcome : Prop :=
  ∀ (s : State) (va : Word) (acc : Access) (p : Priv) (leaf? : Option Leaf) (canonicalVa : Prop),
    leaf? = findLeaf s.cfg s.mem va.toNat (s.mstatus.vm.levels - 1) s.sptbr.toNat false →
    canonicalVa = (s.cfg.rv64 = true →
      ∀ j, s.mstatus.vm.vaBits ≤ j → j < 64 → va.getLsbD j = va.getLsbD (s.mstatus.vm.vaBits - 1)) →
    (¬canonicalVa → s.walk va acc p = .fail s) ∧
    (leaf? = none → s.walk va acc p = .fail s) ∧
    (∀ leaf, leaf? = some leaf → permit (leaf.pte.extractLsb' 1 4) acc p = false → s.walk va acc p = .fail s) ∧
    (∀ leaf, leaf? = some leaf → usedPte leaf.pte acc ≠ leaf.pte →
      physCheck s.cfg leaf.addr (pteSize s.cfg) .store .supervisor true = false → s.walk va acc p = .fail s) ∧
    (∀ leaf, leaf? = some leaf → canonicalVa → permit (leaf.pte.extractLsb' 1 4) acc p = true →
      (usedPte leaf.pte acc = leaf.pte ∨
        physCheck s.cfg leaf.addr (pteSize s.cfg) .store .supervisor true = true) →
      ∃ t, s.walk va acc p = .found t (pageAddress s.cfg leaf.pte leaf.level va) ∧
        (s.mem.wf = true →
          t.mem.readNat leaf.addr (pteSize s.cfg) = (usedPte leaf.pte acc).toNat % 256 ^ pteSize s.cfg) ∧
        (∀ a, a < leaf.addr ∨ leaf.addr + pteSize s.cfg ≤ a → t.mem.read a = s.mem.read a) ∧
        t = { s with mem := t.mem, tc := t.tc })

/-- The permissions of Table 4.2: for each leaf type, what the supervisor and what the user may do. R235 is marked
derived by the spec. -/
def Obligations.LeafPermissions : Prop :=
  ∀ (t : BitVec 4) (acc : Access), 2 ≤ t.toNat →
    (permit t acc .supervisor = true ↔
      match acc with
      | .load => True
      | .store => t.toNat % 2 = 1
      | .fetch => 6 ≤ t.toNat ∧ 2 ≤ t.toNat % 4) ∧
    (permit t acc .user = true ↔
      t.toNat < 8 ∧
      match acc with
      | .load => True
      | .store => t.toNat % 2 = 1
      | .fetch => t.toNat = 2 ∨ t.toNat = 3 ∨ 6 ≤ t.toNat)

/-- Translating an access under a paged scheme, below M, is a cached translation where one is used, else a walk, and
then the physical checks. It can change memory only in the page-table entry a walk marks, and the translation cache,
to which it adds one entry at most: the leaf that its walk found, with the updated R and D bits, and only where the
cache fills. For an access that is not walked, nothing changes. A cached translation that is used is usable: it
covers the address, is global or of this address space, permits the access, and has R (for a store D) set. The cache
is decision D36 (log 9), the checks D23 (log 10), the positions of Type, R and D general knowledge (G6, log 24). -/
def Obligations.TranslationFrame : Prop :=
  ∀ (s t : State) (va : Word) (acc : Access) (n : Nat) (p : Priv),
    t = (s.translate va acc n).after → p = s.effPriv acc →
    t = { s with mem := t.mem, tc := t.tc } ∧
    (∀ a, s.unmarked va acc a → t.mem.read a = s.mem.read a) ∧
    (s.effPriv acc = .machine ∨ s.mstatus.vm.levels = 0 → t = s) ∧
    (∃ added, t.tc = added ++ s.tc ∧ added.length ≤ 1 ∧
      ∀ e ∈ added, (s.tcChoice acc).fill = true ∧ s.cached va acc p = none ∧
        ∃ leaf, findLeaf s.cfg s.mem va.toNat (s.mstatus.vm.levels - 1) s.sptbr.toNat false = some leaf ∧
          CachesLeaf s va acc leaf e) ∧
    (∀ e, s.cached va acc p = some e →
      e ∈ s.tc ∧ va.toNat / pageBytes s.cfg e.level = e.vaBase.toNat / pageBytes s.cfg e.level ∧
      (e.isGlobal = true ∨ e.asid = s.sasid) ∧ permit (e.pte.extractLsb' 1 4) acc p = true ∧
      e.pte.getLsbD 5 = true ∧ (acc = .store → e.pte.getLsbD 6 = true)) ∧
    (p ≠ .machine → s.mstatus.vm ∈ [Scheme.sv32, .sv39, .sv48] →
      (∀ e pa, s.cached va acc p = some e → pa = pageAddress s.cfg e.pte e.level va →
        s.translate va acc n = if physCheck s.cfg pa n acc p (s.controlled acc) then .found s pa else .fail s) ∧
      (∀ u, s.cached va acc p = none → s.walk va acc p = .fail u → s.translate va acc n = .fail s) ∧
      (∀ u pa, s.cached va acc p = none → s.walk va acc p = .found u pa →
        s.translate va acc n = (if physCheck s.cfg pa n acc p (s.controlled acc) then .found u pa else .fail u) ∧
        ((s.tcChoice acc).fill = true →
          ∃ leaf e, findLeaf s.cfg s.mem va.toNat (s.mstatus.vm.levels - 1) s.sptbr.toNat false = some leaf ∧
            CachesLeaf s va acc leaf e ∧ e ∈ u.tc)))

/-! ## The base ISA -/

/-- LUI, AUIPC, ADDI, ADD, SUB: sums and differences modulo 2^XLEN, immediates sign-extended. General knowledge (log
25). -/
def Obligations.AdditiveResults : Prop :=
  ∀ (s : State) (rd rs1 rs2 : Reg) (imm : BitVec 12) (upper : BitVec 20), s.hasRegs [rd, rs1, rs2] = true →
    Computes (.lui rd upper) s rd (upper.toInt * 4096) ∧
    Computes (.auipc rd upper) s rd (s.pc.toNat + upper.toInt * 4096) ∧
    Computes (.addi rd rs1 imm) s rd ((s.readX rs1).toNat + imm.toInt) ∧
    Computes (.add rd rs1 rs2) s rd ((s.readX rs1).toNat + (s.readX rs2).toNat) ∧
    Computes (.sub rd rs1 rs2) s rd ((s.readX rs1).toNat - (s.readX rs2).toNat)

/-- XORI, ORI, ANDI, XOR, OR, AND bit by bit; SLTI, SLTIU, SLT, SLTU as comparisons of signed and of unsigned values.
General knowledge (log 25). -/
def Obligations.LogicAndCompareResults : Prop :=
  ∀ (s : State) (rd rs1 rs2 : Reg) (imm : BitVec 12) (a b k : Nat),
    s.hasRegs [rd, rs1, rs2] = true → a = (s.readX rs1).toNat → b = (s.readX rs2).toNat →
    k = (imm.toInt % 2 ^ s.cfg.xlen).toNat →
    Computes (.xori rd rs1 imm) s rd (a ^^^ k : Nat) ∧ Computes (.ori rd rs1 imm) s rd (a ||| k : Nat) ∧
    Computes (.andi rd rs1 imm) s rd (a &&& k : Nat) ∧ Computes (.xor rd rs1 rs2) s rd (a ^^^ b : Nat) ∧
    Computes (.or rd rs1 rs2) s rd (a ||| b : Nat) ∧ Computes (.and rd rs1 rs2) s rd (a &&& b : Nat) ∧
    Computes (.slti rd rs1 imm) s rd (if s.signed (s.readX rs1) < imm.toInt then 1 else 0) ∧
    Computes (.sltiu rd rs1 imm) s rd (if a < k then 1 else 0) ∧
    Computes (.slt rd rs1 rs2) s rd (if s.signed (s.readX rs1) < s.signed (s.readX rs2) then 1 else 0) ∧
    Computes (.sltu rd rs1 rs2) s rd (if a < b then 1 else 0)

/-- Shifts: left as a product, right as a quotient, arithmetic right as the floor of the signed quotient by a power
of two; register amounts modulo XLEN, immediate amounts below XLEN (others are illegal). General knowledge (log
25). -/
def Obligations.ShiftResults : Prop :=
  ∀ (s : State) (rd rs1 rs2 : Reg) (shamt : BitVec 6) (a b : Nat),
    s.hasRegs [rd, rs1, rs2] = true → a = (s.readX rs1).toNat → b = (s.readX rs2).toNat % s.cfg.xlen →
    (shamt.toNat < s.cfg.xlen →
      Computes (.slli rd rs1 shamt) s rd (a * 2 ^ shamt.toNat) ∧
      Computes (.srli rd rs1 shamt) s rd (a / 2 ^ shamt.toNat) ∧
      Computes (.srai rd rs1 shamt) s rd (s.signed (s.readX rs1) / 2 ^ shamt.toNat)) ∧
    Computes (.sll rd rs1 rs2) s rd (a * 2 ^ b) ∧ Computes (.srl rd rs1 rs2) s rd (a / 2 ^ b) ∧
    Computes (.sra rd rs1 rs2) s rd (s.signed (s.readX rs1) / 2 ^ b)

/-- The RV64 word forms: the result of the low 32 bits, sign-extended. General knowledge (log 25). -/
def Obligations.WordResults : Prop :=
  ∀ (s : State) (rd rs1 rs2 : Reg) (imm : BitVec 12) (shamt : BitVec 5) (a b : Int) (n : Nat),
    s.cfg.rv64 = true → s.hasRegs [rd, rs1, rs2] = true → a = (s.readX rs1).toNat → b = (s.readX rs2).toNat →
    n = (s.readX rs2).toNat % 32 →
    Computes (.addiw rd rs1 imm) s rd (Int.bmod (a + imm.toInt) (2 ^ 32)) ∧
    Computes (.addw rd rs1 rs2) s rd (Int.bmod (a + b) (2 ^ 32)) ∧
    Computes (.subw rd rs1 rs2) s rd (Int.bmod (a - b) (2 ^ 32)) ∧
    Computes (.slliw rd rs1 shamt) s rd (Int.bmod (a * 2 ^ shamt.toNat) (2 ^ 32)) ∧
    Computes (.srliw rd rs1 shamt) s rd (Int.bmod (a % 2 ^ 32 / 2 ^ shamt.toNat) (2 ^ 32)) ∧
    Computes (.sraiw rd rs1 shamt) s rd (Int.bmod a (2 ^ 32) / 2 ^ shamt.toNat) ∧
    Computes (.sllw rd rs1 rs2) s rd (Int.bmod (a * 2 ^ n) (2 ^ 32)) ∧
    Computes (.srlw rd rs1 rs2) s rd (Int.bmod (a % 2 ^ 32 / 2 ^ n) (2 ^ 32)) ∧
    Computes (.sraw rd rs1 rs2) s rd (Int.bmod a (2 ^ 32) / 2 ^ n)

/-- JAL and JALR: to an aligned target, the return address is written and the pc is the target (JALR's with its
lowest bit cleared); a misaligned target raises instruction address misaligned at the jump and writes no register.
General knowledge (log 25). -/
def Obligations.JumpResults : Prop :=
  ∀ (s : State) (rd rs1 : Reg) (offset : BitVec 21) (imm : BitVec 12) (near far : Word),
    s.hasRegs [rd, rs1] = true → near = s.valueOf (s.pc.toNat + offset.toInt) →
    far = s.valueOf (((s.readX rs1).toNat + imm.toInt) / 2 * 2) →
    (near.toNat % 4 = 0 → ∃ t, exec (.jal rd offset) s = .next t ∧ Wrote s t rd s.nextPc near) ∧
    (near.toNat % 4 ≠ 0 → Raises (.jal rd offset) s 0 (some near)) ∧
    (far.toNat % 4 = 0 → ∃ t, exec (.jalr rd rs1 imm) s = .next t ∧ Wrote s t rd s.nextPc far) ∧
    (far.toNat % 4 ≠ 0 → Raises (.jalr rd rs1 imm) s 0 (some far))

/-- The six branches: taken exactly on their condition; to an aligned target the pc is the target, a misaligned
target of a taken branch raises, and a branch not taken goes on. General knowledge (log 25). -/
def Obligations.BranchResults : Prop :=
  ∀ (s : State) (rs1 rs2 : Reg) (offset : BitVec 13) (target : Word) (a b : Nat) (i : Instr) (taken : Prop),
    s.hasRegs [rs1, rs2] = true → target = s.valueOf (s.pc.toNat + offset.toInt) →
    a = (s.readX rs1).toNat → b = (s.readX rs2).toNat →
    ((i = .beq rs1 rs2 offset ∧ taken = (a = b)) ∨ (i = .bne rs1 rs2 offset ∧ taken = (a ≠ b)) ∨
      (i = .blt rs1 rs2 offset ∧ taken = (s.signed (s.readX rs1) < s.signed (s.readX rs2))) ∨
      (i = .bge rs1 rs2 offset ∧ taken = (s.signed (s.readX rs2) ≤ s.signed (s.readX rs1))) ∨
      (i = .bltu rs1 rs2 offset ∧ taken = (a < b)) ∨ (i = .bgeu rs1 rs2 offset ∧ taken = (b ≤ a))) →
    (¬taken → ∃ t, exec i s = .next t ∧ Moved s t s.nextPc) ∧
    (taken → target.toNat % 4 = 0 → ∃ t, exec i s = .next t ∧ Moved s t target) ∧
    (taken → target.toNat % 4 ≠ 0 → Raises i s 0 (some target))

/-- Loads: the bytes at the translated address, lowest first, sign- or zero-extended, into `x[rd]`; a misaligned
address raises load address misaligned, a failed translation a load access fault, each with the address. General
knowledge (log 25); misaligned accesses are decision D22. -/
def Obligations.LoadResults : Prop :=
  ∀ (s : State) (rd rs1 : Reg) (imm : BitVec 12) (va : Word) (i : Instr) (n : Nat) (isSigned : Bool),
    s.hasRegs [rd, rs1] = true → va = s.address rs1 (immI imm) →
    ((i = .lb rd rs1 imm ∧ n = 1 ∧ isSigned = true) ∨ (i = .lh rd rs1 imm ∧ n = 2 ∧ isSigned = true) ∨
      (i = .lw rd rs1 imm ∧ n = 4 ∧ isSigned = true) ∨ (i = .lbu rd rs1 imm ∧ n = 1 ∧ isSigned = false) ∨
      (i = .lhu rd rs1 imm ∧ n = 2 ∧ isSigned = false) ∨
      (i = .lwu rd rs1 imm ∧ n = 4 ∧ isSigned = false ∧ s.cfg.rv64 = true) ∨
      (i = .ld rd rs1 imm ∧ n = 8 ∧ isSigned = false ∧ s.cfg.rv64 = true)) →
    va = s.valueOf ((s.readX rs1).toNat + imm.toInt) ∧
    (va.toNat % n ≠ 0 → s.cfg.misalignedOk = false → Raises i s 4 (some va)) ∧
    (va.toNat % n = 0 ∨ s.cfg.misalignedOk = true →
      (∀ u, s.translate va .load n = .fail u → ∃ t, exec i s = .next t ∧ Raised u t 5 (some va)) ∧
      (∀ u pa, s.translate va .load n = .found u pa →
        ∃ t, exec i s = .next t ∧
          Wrote u t rd (s.valueOf (if isSigned then Int.bmod (u.mem.readNat pa n) (256 ^ n) else u.mem.readNat pa n))
            s.nextPc))

/-- Stores: the low bytes of `x[rs2]` at the translated address, lowest first, every byte outside them as the
translation left it (which differs from before only in the page-table entry a walk marks); a misaligned address
raises store address misaligned, a failed translation a store access fault, each with the address, and stores
nothing. General knowledge (log 25); misaligned accesses are decision D22. -/
def Obligations.StoreResults : Prop :=
  ∀ (s : State) (rs1 rs2 : Reg) (imm : BitVec 12) (va : Word) (i : Instr) (n : Nat),
    s.mem.wf = true → s.hasRegs [rs1, rs2] = true → va = s.address rs1 (immS imm) →
    ((i = .sb rs1 rs2 imm ∧ n = 1) ∨ (i = .sh rs1 rs2 imm ∧ n = 2) ∨ (i = .sw rs1 rs2 imm ∧ n = 4) ∨
      (i = .sd rs1 rs2 imm ∧ n = 8 ∧ s.cfg.rv64 = true)) →
    va = s.valueOf ((s.readX rs1).toNat + imm.toInt) ∧
    (va.toNat % n ≠ 0 → s.cfg.misalignedOk = false → Raises i s 6 (some va)) ∧
    (va.toNat % n = 0 ∨ s.cfg.misalignedOk = true →
      (∀ u, s.translate va .store n = .fail u → ∃ t, exec i s = .next t ∧ Raised u t 7 (some va)) ∧
      (∀ u pa, s.translate va .store n = .found u pa →
        ∃ t, exec i s = .next t ∧ Stored u t pa n (s.readX rs2) ∧ (∀ r, t.readX r = s.readX r) ∧
          t = { s with mem := t.mem, tc := u.tc, pc := t.pc, instret := t.instret } ∧
          ∀ a, (a < pa ∨ pa + n ≤ a) → s.unmarked va .store a → t.mem.read a = s.mem.read a))

/-- What a store puts in memory the next load of the same size and address reads back, zero- or sign-extended: under
every scheme, where the load's translation ends at the same place and marks no page-table entry inside it; so under
Mbare wherever the physical checks allow the two accesses. Byte order is decision D1 (log 25), misaligned accesses
D22 (log 23). -/
def Obligations.LoadAfterStore : Prop :=
  ∀ (s : State) (rd rs1 rs2 : Reg) (imm : BitVec 12) (st ld : Instr) (n : Nat) (isSigned : Bool) (va v : Word),
    s.mem.wf = true → s.hasRegs [rd, rs1, rs2] = true → va = s.valueOf ((s.readX rs1).toNat + imm.toInt) →
    va.toNat % n = 0 ∨ s.cfg.misalignedOk = true →
    ((n = 1 ∧ st = .sb rs1 rs2 imm ∧
        ((ld = .lb rd rs1 imm ∧ isSigned = true) ∨ (ld = .lbu rd rs1 imm ∧ isSigned = false))) ∨
      (n = 2 ∧ st = .sh rs1 rs2 imm ∧
        ((ld = .lh rd rs1 imm ∧ isSigned = true) ∨ (ld = .lhu rd rs1 imm ∧ isSigned = false))) ∨
      (n = 4 ∧ st = .sw rs1 rs2 imm ∧
        ((ld = .lw rd rs1 imm ∧ isSigned = true) ∨ (ld = .lwu rd rs1 imm ∧ isSigned = false ∧ s.cfg.rv64 = true))) ∨
      (n = 8 ∧ s.cfg.rv64 = true ∧ st = .sd rs1 rs2 imm ∧ ld = .ld rd rs1 imm ∧ isSigned = false)) →
    v = (if rd = 0 then 0 else
      s.valueOf (if isSigned then Int.bmod (s.readX rs2).toNat (256 ^ n) else (s.readX rs2).toNat % 256 ^ n)) →
    (∀ u pa, s.translate va .store n = .found u pa →
      ∃ t, exec st s = .next t ∧
        ∀ w, t.translate va .load n = .found w pa → (∀ k, k < n → t.unmarked va .load (pa + k)) →
          ∃ x, exec ld t = .next x ∧ x.readX rd = v) ∧
    (∀ pa, s.mstatus.vm = .mbare → pa = va.toNat % 2 ^ s.cfg.palen →
      physCheck s.cfg pa n .store (s.effPriv .store) (s.controlled .store) = true →
      physCheck s.cfg pa n .load (s.effPriv .load) (s.controlled .load) = true →
      ∃ t x, exec st s = .next t ∧ exec ld t = .next x ∧ x.readX rd = v)

/-- FENCE and FENCE.I change nothing but the pc and the count. General knowledge (log 25). -/
def Obligations.FencesMoveOn : Prop :=
  ∀ (s : State) (fm pred succ : BitVec 4) (imm : BitVec 12) (rs1 rd : Reg),
    (∃ t, exec (.fence fm pred succ rs1 rd) s = .next t ∧ Moved s t s.nextPc) ∧
    (∃ t, exec (.fenceI imm rs1 rd) s = .next t ∧ Moved s t s.nextPc)

/-- Forms that do not exist are illegal instructions: a register that RV32E has not (log 12), a row of RV64I with
XLEN = 32, a shift amount of 32 or more with XLEN = 32. General knowledge (log 25). -/
def Obligations.AbsentFormsAreIllegal : Prop :=
  ∀ (i : Instr) (s : State),
    (s.hasRegs (namedRegs i) = false → Raises i s 2 none) ∧
    (s.cfg.rv64 = false → ∀ (rd rs1 rs2 : Reg) (imm : BitVec 12) (sh5 : BitVec 5) (sh6 : BitVec 6),
      i ∈ [Instr.lwu rd rs1 imm, .ld rd rs1 imm, .sd rs1 rs2 imm, .addiw rd rs1 imm, .slliw rd rs1 sh5,
        .srliw rd rs1 sh5, .sraiw rd rs1 sh5, .addw rd rs1 rs2, .subw rd rs1 rs2, .sllw rd rs1 rs2, .srlw rd rs1 rs2,
        .sraw rd rs1 rs2] ∨
      (32 ≤ sh6.toNat ∧ i ∈ [Instr.slli rd rs1 sh6, .srli rd rs1 sh6, .srai rd rs1 sh6]) →
      Raises i s 2 none)
end

