-- ==== Sys2Proof/Laws/Memory.lean ====
section
/-! SUPPORT. Memory: a read after a write, and the canonical form. -/

namespace Sys2Proof.Machine

/-! ## The canonical form -/

theorem Memory.wf_cons (a : Nat) (b : Byte) (m : Memory) :
    Memory.wf ((a, b) :: m) = true ↔ b ≠ Memory.unlisted ∧ (∀ p ∈ m.head?, a < p.1) ∧ Memory.wf m = true := by
  cases m with
  | nil => simp [Memory.wf]
  | cons p m => simp [Memory.wf, and_assoc, and_left_comm]

/-- What a write may put first: the address written, or what was first. -/
theorem Memory.head_write (m : Memory) (k : Nat) (v : Byte) (x : Nat) (hk : x < k) (hm : ∀ p ∈ m.head?, x < p.1)
    (hwf : Memory.wf m = true) : ∀ p ∈ (m.write k v).head?, x < p.1 := by
  cases m with
  | nil => intro p; simp only [Memory.write]; split <;> simp; rintro rfl; exact hk
  | cons q m =>
    obtain ⟨a, b⟩ := q
    have ha : x < a := hm (a, b) (by simp)
    intro p
    simp only [Memory.write]
    split
    · split <;> simp <;> rintro rfl <;> assumption
    · split
      · split
        · intro hp
          have := ((Memory.wf_cons a b m).1 hwf).2.1 p hp
          omega
        · simp; rintro rfl; exact hk
      · simp; rintro rfl; exact ha

/-- A write keeps the canonical form. -/
theorem Memory.wf_write (m : Memory) (k : Nat) (v : Byte) (h : Memory.wf m = true) :
    Memory.wf (m.write k v) = true := by
  induction m with
  | nil =>
    simp only [Memory.write]
    split
    · rfl
    · simpa [Memory.wf] using ‹¬_›
  | cons q m ih =>
    obtain ⟨a, b⟩ := q
    obtain ⟨hb, hlt, hm⟩ := (Memory.wf_cons a b m).1 h
    simp only [Memory.write]
    split
    · split
      · exact h
      · rw [Memory.wf_cons]; exact ⟨‹¬_›, by simpa using ‹k < a›, h⟩
    · split
      · split
        · exact hm
        · rename_i hk hv; subst hk; rw [Memory.wf_cons]; exact ⟨hv, hlt, hm⟩
      · rw [Memory.wf_cons]
        exact ⟨hb, Memory.head_write m k v a (by omega) hlt hm, ih hm⟩

theorem Memory.wf_writeWord (m : Memory) (a n : Nat) (v : Word) (h : Memory.wf m = true) :
    Memory.wf (m.writeWord a n v) = true := by
  induction n generalizing m a v with
  | zero => exact h
  | succ n ih => exact ih _ _ _ (Memory.wf_write m a _ h)

theorem Memory.wf_writeCells (m : Memory) (cells : List Host.Cell) (h : Memory.wf m = true) :
    Memory.wf (m.writeCells cells) = true := by
  induction cells generalizing m with
  | nil => exact h
  | cons c cells ih => exact ih _ (Memory.wf_write m _ _ h)

/-! ## Reads after writes -/

/-- Below the first listed address every byte reads as an unlisted one. -/
theorem Memory.read_of_lt (m : Memory) (k : Nat) (hwf : Memory.wf m = true) (h : ∀ p ∈ m.head?, k < p.1) :
    m.read k = Memory.unlisted := by
  induction m with
  | nil => rfl
  | cons q m ih =>
    obtain ⟨a, b⟩ := q
    have ha : k < a := h (a, b) (by simp)
    obtain ⟨-, hlt, hm⟩ := (Memory.wf_cons a b m).1 hwf
    simp only [Memory.read]
    rw [if_neg (by omega)]
    exact ih hm fun p hp => lt_trans ha (hlt p hp)

/-- The byte written is the byte read, in a canonical memory. -/
theorem Memory.read_write_same (m : Memory) (k : Nat) (v : Byte) (hwf : Memory.wf m = true) :
    (m.write k v).read k = v := by
  induction m with
  | nil => simp only [Memory.write]; split <;> simp_all [Memory.read]
  | cons q m ih =>
    obtain ⟨a, b⟩ := q
    obtain ⟨-, hlt, hm⟩ := (Memory.wf_cons a b m).1 hwf
    simp only [Memory.write]
    split
    · split
      · rw [Memory.read_of_lt _ _ hwf (by simpa using ‹k < a›)]; exact Eq.symm ‹_›
      · simp [Memory.read]
    · split
      · subst k
        split
        · rw [Memory.read_of_lt _ _ hm hlt]; exact Eq.symm ‹_›
        · simp [Memory.read]
      · simp only [Memory.read]
        rw [if_neg ‹_›]
        exact ih hm

/-- Every other byte reads as before. -/
theorem Memory.read_write_other (m : Memory) (k a : Nat) (v : Byte) (h : a ≠ k) : (m.write k v).read a = m.read a := by
  induction m with
  | nil => simp only [Memory.write]; split <;> simp [Memory.read, h]
  | cons q m ih =>
    obtain ⟨a', b⟩ := q
    simp only [Memory.write]
    split
    · split <;> simp [Memory.read, h]
    · split
      · subst k
        split <;> simp [Memory.read, h]
      · simp only [Memory.read]; split <;> simp [ih]

/-- A write of several bytes leaves every byte outside them alone. -/
theorem Memory.read_writeWord_other (m : Memory) (pa n a : Nat) (v : Word) (h : a < pa ∨ pa + n ≤ a) :
    (m.writeWord pa n v).read a = m.read a := by
  induction n generalizing m pa v with
  | zero => rfl
  | succ n ih =>
    simp only [Memory.writeWord]
    rw [ih _ _ _ (by omega), Memory.read_write_other _ _ _ _ (by omega)]

/-- Byte `k` of a write of several bytes is byte `k` of the value. -/
theorem Memory.read_writeWord_byte (m : Memory) (pa n k : Nat) (v : Word) (hk : k < n) (hwf : Memory.wf m = true) :
    ((m.writeWord pa n v).read (pa + k)).toNat = v.toNat / 256 ^ k % 256 := by
  induction n generalizing m pa v k with
  | zero => omega
  | succ n ih =>
    simp only [Memory.writeWord]
    cases k with
    | zero =>
      rw [Memory.read_writeWord_other _ _ _ _ _ (by omega), Nat.add_zero, Memory.read_write_same _ _ _ hwf]
      simp
    | succ k =>
      rw [show pa + (k + 1) = pa + 1 + k by omega, ih _ _ _ _ (by omega) (Memory.wf_write m pa _ hwf)]
      rw [BitVec.toNat_ushiftRight, Nat.shiftRight_eq_div_pow, Nat.div_div_eq_div_mul, show 2 ^ 8 * 256 ^ k = 256 ^ (k + 1) by
        rw [Nat.pow_succ]; omega]

/-- What is read after a write of as many bytes: the low bytes of the value. -/
theorem Memory.readNat_writeWord (m : Memory) (pa n : Nat) (v : Word) (hwf : Memory.wf m = true) :
    (m.writeWord pa n v).readNat pa n = v.toNat % 256 ^ n := by
  induction n generalizing m pa v with
  | zero => simp [Memory.readNat, Nat.mod_one]
  | succ n ih =>
    simp only [Memory.readNat, Memory.writeWord]
    rw [ih _ _ _ (Memory.wf_write m pa _ hwf), Memory.read_writeWord_other _ _ _ _ _ (by omega),
      Memory.read_write_same _ _ _ hwf, BitVec.toNat_setWidth, BitVec.toNat_ushiftRight, Nat.shiftRight_eq_div_pow]
    rw [show (2 : Nat) ^ 8 = 256 by norm_num, Nat.pow_succ, Nat.mul_comm (256 ^ n), Nat.mod_mul]

/-- A value of `n` bytes is below 256^n. -/
theorem Memory.readNat_lt (m : Memory) (a n : Nat) : m.readNat a n < 256 ^ n := by
  induction n generalizing a with
  | zero => simp [Memory.readNat]
  | succ n ih =>
    have h := ih (a + 1)
    have hb := (m.read a).isLt
    simp only [Memory.readNat]
    rw [Nat.pow_succ]
    omega

end Sys2Proof.Machine
end

