-- ==== Sys2Proof/Laws/State.lean ====
section
/-! SUPPORT. What each named update of the state leaves in each field: one lemma per field per update, so that no
proof unfolds an update. -/

namespace Sys2Proof.Machine

/-! ## `setX` -/

@[simp] theorem State.setX_cfg (s : State) (r : Reg) (v : Word) : (s.setX r v).cfg = s.cfg := rfl
@[simp] theorem State.setX_pc (s : State) (r : Reg) (v : Word) : (s.setX r v).pc = s.pc := rfl
@[simp] theorem State.setX_f (s : State) (r : Reg) (v : Word) : (s.setX r v).f = s.f := rfl
@[simp] theorem State.setX_fflags (s : State) (r : Reg) (v : Word) : (s.setX r v).fflags = s.fflags := rfl
@[simp] theorem State.setX_frm (s : State) (r : Reg) (v : Word) : (s.setX r v).frm = s.frm := rfl
@[simp] theorem State.setX_cycle (s : State) (r : Reg) (v : Word) : (s.setX r v).cycle = s.cycle := rfl
@[simp] theorem State.setX_time (s : State) (r : Reg) (v : Word) : (s.setX r v).time = s.time := rfl
@[simp] theorem State.setX_instret (s : State) (r : Reg) (v : Word) : (s.setX r v).instret = s.instret := rfl
@[simp] theorem State.setX_mstatus (s : State) (r : Reg) (v : Word) : (s.setX r v).mstatus = s.mstatus := rfl
@[simp] theorem State.setX_mtvec (s : State) (r : Reg) (v : Word) : (s.setX r v).mtvec = s.mtvec := rfl
@[simp] theorem State.setX_mtdeleg (s : State) (r : Reg) (v : Word) : (s.setX r v).mtdeleg = s.mtdeleg := rfl
@[simp] theorem State.setX_mip (s : State) (r : Reg) (v : Word) : (s.setX r v).mip = s.mip := rfl
@[simp] theorem State.setX_mie (s : State) (r : Reg) (v : Word) : (s.setX r v).mie = s.mie := rfl
@[simp] theorem State.setX_mtime (s : State) (r : Reg) (v : Word) : (s.setX r v).mtime = s.mtime := rfl
@[simp] theorem State.setX_mtimecmp (s : State) (r : Reg) (v : Word) : (s.setX r v).mtimecmp = s.mtimecmp := rfl
@[simp] theorem State.setX_mscratch (s : State) (r : Reg) (v : Word) : (s.setX r v).mscratch = s.mscratch := rfl
@[simp] theorem State.setX_mepc (s : State) (r : Reg) (v : Word) : (s.setX r v).mepc = s.mepc := rfl
@[simp] theorem State.setX_mcause (s : State) (r : Reg) (v : Word) : (s.setX r v).mcause = s.mcause := rfl
@[simp] theorem State.setX_mbadaddr (s : State) (r : Reg) (v : Word) : (s.setX r v).mbadaddr = s.mbadaddr := rfl
@[simp] theorem State.setX_mbase (s : State) (r : Reg) (v : Word) : (s.setX r v).mbase = s.mbase := rfl
@[simp] theorem State.setX_mbound (s : State) (r : Reg) (v : Word) : (s.setX r v).mbound = s.mbound := rfl
@[simp] theorem State.setX_mibase (s : State) (r : Reg) (v : Word) : (s.setX r v).mibase = s.mibase := rfl
@[simp] theorem State.setX_mibound (s : State) (r : Reg) (v : Word) : (s.setX r v).mibound = s.mibound := rfl
@[simp] theorem State.setX_mdbase (s : State) (r : Reg) (v : Word) : (s.setX r v).mdbase = s.mdbase := rfl
@[simp] theorem State.setX_mdbound (s : State) (r : Reg) (v : Word) : (s.setX r v).mdbound = s.mdbound := rfl
@[simp] theorem State.setX_mtohost (s : State) (r : Reg) (v : Word) : (s.setX r v).mtohost = s.mtohost := rfl
@[simp] theorem State.setX_mfromhost (s : State) (r : Reg) (v : Word) : (s.setX r v).mfromhost = s.mfromhost := rfl
@[simp] theorem State.setX_stvec (s : State) (r : Reg) (v : Word) : (s.setX r v).stvec = s.stvec := rfl
@[simp] theorem State.setX_stime (s : State) (r : Reg) (v : Word) : (s.setX r v).stime = s.stime := rfl
@[simp] theorem State.setX_stimecmp (s : State) (r : Reg) (v : Word) : (s.setX r v).stimecmp = s.stimecmp := rfl
@[simp] theorem State.setX_sscratch (s : State) (r : Reg) (v : Word) : (s.setX r v).sscratch = s.sscratch := rfl
@[simp] theorem State.setX_sepc (s : State) (r : Reg) (v : Word) : (s.setX r v).sepc = s.sepc := rfl
@[simp] theorem State.setX_scause (s : State) (r : Reg) (v : Word) : (s.setX r v).scause = s.scause := rfl
@[simp] theorem State.setX_sbadaddr (s : State) (r : Reg) (v : Word) : (s.setX r v).sbadaddr = s.sbadaddr := rfl
@[simp] theorem State.setX_sptbr (s : State) (r : Reg) (v : Word) : (s.setX r v).sptbr = s.sptbr := rfl
@[simp] theorem State.setX_sasid (s : State) (r : Reg) (v : Word) : (s.setX r v).sasid = s.sasid := rfl
@[simp] theorem State.setX_stalled (s : State) (r : Reg) (v : Word) : (s.setX r v).stalled = s.stalled := rfl
@[simp] theorem State.setX_tc (s : State) (r : Reg) (v : Word) : (s.setX r v).tc = s.tc := rfl
@[simp] theorem State.setX_mem (s : State) (r : Reg) (v : Word) : (s.setX r v).mem = s.mem := rfl
@[simp] theorem State.setX_env (s : State) (r : Reg) (v : Word) : (s.setX r v).env = s.env := rfl
@[simp] theorem State.setX_free (s : State) (r : Reg) (v : Word) : (s.setX r v).free = s.free := rfl

/-! ## `setPc` -/

@[simp] theorem State.setPc_cfg (s : State) (v : Word) : (s.setPc v).cfg = s.cfg := rfl
@[simp] theorem State.setPc_x (s : State) (v : Word) : (s.setPc v).x = s.x := rfl
@[simp] theorem State.setPc_pc (s : State) (v : Word) : (s.setPc v).pc = s.cfg.norm v := rfl
@[simp] theorem State.setPc_f (s : State) (v : Word) : (s.setPc v).f = s.f := rfl
@[simp] theorem State.setPc_fflags (s : State) (v : Word) : (s.setPc v).fflags = s.fflags := rfl
@[simp] theorem State.setPc_frm (s : State) (v : Word) : (s.setPc v).frm = s.frm := rfl
@[simp] theorem State.setPc_cycle (s : State) (v : Word) : (s.setPc v).cycle = s.cycle := rfl
@[simp] theorem State.setPc_time (s : State) (v : Word) : (s.setPc v).time = s.time := rfl
@[simp] theorem State.setPc_instret (s : State) (v : Word) : (s.setPc v).instret = s.instret := rfl
@[simp] theorem State.setPc_mstatus (s : State) (v : Word) : (s.setPc v).mstatus = s.mstatus := rfl
@[simp] theorem State.setPc_mtvec (s : State) (v : Word) : (s.setPc v).mtvec = s.mtvec := rfl
@[simp] theorem State.setPc_mtdeleg (s : State) (v : Word) : (s.setPc v).mtdeleg = s.mtdeleg := rfl
@[simp] theorem State.setPc_mip (s : State) (v : Word) : (s.setPc v).mip = s.mip := rfl
@[simp] theorem State.setPc_mie (s : State) (v : Word) : (s.setPc v).mie = s.mie := rfl
@[simp] theorem State.setPc_mtime (s : State) (v : Word) : (s.setPc v).mtime = s.mtime := rfl
@[simp] theorem State.setPc_mtimecmp (s : State) (v : Word) : (s.setPc v).mtimecmp = s.mtimecmp := rfl
@[simp] theorem State.setPc_mscratch (s : State) (v : Word) : (s.setPc v).mscratch = s.mscratch := rfl
@[simp] theorem State.setPc_mepc (s : State) (v : Word) : (s.setPc v).mepc = s.mepc := rfl
@[simp] theorem State.setPc_mcause (s : State) (v : Word) : (s.setPc v).mcause = s.mcause := rfl
@[simp] theorem State.setPc_mbadaddr (s : State) (v : Word) : (s.setPc v).mbadaddr = s.mbadaddr := rfl
@[simp] theorem State.setPc_mbase (s : State) (v : Word) : (s.setPc v).mbase = s.mbase := rfl
@[simp] theorem State.setPc_mbound (s : State) (v : Word) : (s.setPc v).mbound = s.mbound := rfl
@[simp] theorem State.setPc_mibase (s : State) (v : Word) : (s.setPc v).mibase = s.mibase := rfl
@[simp] theorem State.setPc_mibound (s : State) (v : Word) : (s.setPc v).mibound = s.mibound := rfl
@[simp] theorem State.setPc_mdbase (s : State) (v : Word) : (s.setPc v).mdbase = s.mdbase := rfl
@[simp] theorem State.setPc_mdbound (s : State) (v : Word) : (s.setPc v).mdbound = s.mdbound := rfl
@[simp] theorem State.setPc_mtohost (s : State) (v : Word) : (s.setPc v).mtohost = s.mtohost := rfl
@[simp] theorem State.setPc_mfromhost (s : State) (v : Word) : (s.setPc v).mfromhost = s.mfromhost := rfl
@[simp] theorem State.setPc_stvec (s : State) (v : Word) : (s.setPc v).stvec = s.stvec := rfl
@[simp] theorem State.setPc_stime (s : State) (v : Word) : (s.setPc v).stime = s.stime := rfl
@[simp] theorem State.setPc_stimecmp (s : State) (v : Word) : (s.setPc v).stimecmp = s.stimecmp := rfl
@[simp] theorem State.setPc_sscratch (s : State) (v : Word) : (s.setPc v).sscratch = s.sscratch := rfl
@[simp] theorem State.setPc_sepc (s : State) (v : Word) : (s.setPc v).sepc = s.sepc := rfl
@[simp] theorem State.setPc_scause (s : State) (v : Word) : (s.setPc v).scause = s.scause := rfl
@[simp] theorem State.setPc_sbadaddr (s : State) (v : Word) : (s.setPc v).sbadaddr = s.sbadaddr := rfl
@[simp] theorem State.setPc_sptbr (s : State) (v : Word) : (s.setPc v).sptbr = s.sptbr := rfl
@[simp] theorem State.setPc_sasid (s : State) (v : Word) : (s.setPc v).sasid = s.sasid := rfl
@[simp] theorem State.setPc_stalled (s : State) (v : Word) : (s.setPc v).stalled = s.stalled := rfl
@[simp] theorem State.setPc_tc (s : State) (v : Word) : (s.setPc v).tc = s.tc := rfl
@[simp] theorem State.setPc_mem (s : State) (v : Word) : (s.setPc v).mem = s.mem := rfl
@[simp] theorem State.setPc_env (s : State) (v : Word) : (s.setPc v).env = s.env := rfl
@[simp] theorem State.setPc_free (s : State) (v : Word) : (s.setPc v).free = s.free := rfl

/-! ## `complete` -/

@[simp] theorem State.complete_cfg (s : State) (npc : Word) : (s.complete npc).cfg = s.cfg := rfl
@[simp] theorem State.complete_x (s : State) (npc : Word) : (s.complete npc).x = s.x := rfl
@[simp] theorem State.complete_pc (s : State) (npc : Word) : (s.complete npc).pc = s.cfg.norm npc := rfl
@[simp] theorem State.complete_f (s : State) (npc : Word) : (s.complete npc).f = s.f := rfl
@[simp] theorem State.complete_fflags (s : State) (npc : Word) : (s.complete npc).fflags = s.fflags := rfl
@[simp] theorem State.complete_frm (s : State) (npc : Word) : (s.complete npc).frm = s.frm := rfl
@[simp] theorem State.complete_cycle (s : State) (npc : Word) : (s.complete npc).cycle = s.cycle := rfl
@[simp] theorem State.complete_time (s : State) (npc : Word) : (s.complete npc).time = s.time := rfl
@[simp] theorem State.complete_instret (s : State) (npc : Word) : (s.complete npc).instret = s.instret + 1 := rfl
@[simp] theorem State.complete_mstatus (s : State) (npc : Word) : (s.complete npc).mstatus = s.mstatus := rfl
@[simp] theorem State.complete_mtvec (s : State) (npc : Word) : (s.complete npc).mtvec = s.mtvec := rfl
@[simp] theorem State.complete_mtdeleg (s : State) (npc : Word) : (s.complete npc).mtdeleg = s.mtdeleg := rfl
@[simp] theorem State.complete_mip (s : State) (npc : Word) : (s.complete npc).mip = s.mip := rfl
@[simp] theorem State.complete_mie (s : State) (npc : Word) : (s.complete npc).mie = s.mie := rfl
@[simp] theorem State.complete_mtime (s : State) (npc : Word) : (s.complete npc).mtime = s.mtime := rfl
@[simp] theorem State.complete_mtimecmp (s : State) (npc : Word) : (s.complete npc).mtimecmp = s.mtimecmp := rfl
@[simp] theorem State.complete_mscratch (s : State) (npc : Word) : (s.complete npc).mscratch = s.mscratch := rfl
@[simp] theorem State.complete_mepc (s : State) (npc : Word) : (s.complete npc).mepc = s.mepc := rfl
@[simp] theorem State.complete_mcause (s : State) (npc : Word) : (s.complete npc).mcause = s.mcause := rfl
@[simp] theorem State.complete_mbadaddr (s : State) (npc : Word) : (s.complete npc).mbadaddr = s.mbadaddr := rfl
@[simp] theorem State.complete_mbase (s : State) (npc : Word) : (s.complete npc).mbase = s.mbase := rfl
@[simp] theorem State.complete_mbound (s : State) (npc : Word) : (s.complete npc).mbound = s.mbound := rfl
@[simp] theorem State.complete_mibase (s : State) (npc : Word) : (s.complete npc).mibase = s.mibase := rfl
@[simp] theorem State.complete_mibound (s : State) (npc : Word) : (s.complete npc).mibound = s.mibound := rfl
@[simp] theorem State.complete_mdbase (s : State) (npc : Word) : (s.complete npc).mdbase = s.mdbase := rfl
@[simp] theorem State.complete_mdbound (s : State) (npc : Word) : (s.complete npc).mdbound = s.mdbound := rfl
@[simp] theorem State.complete_mtohost (s : State) (npc : Word) : (s.complete npc).mtohost = s.mtohost := rfl
@[simp] theorem State.complete_mfromhost (s : State) (npc : Word) : (s.complete npc).mfromhost = s.mfromhost := rfl
@[simp] theorem State.complete_stvec (s : State) (npc : Word) : (s.complete npc).stvec = s.stvec := rfl
@[simp] theorem State.complete_stime (s : State) (npc : Word) : (s.complete npc).stime = s.stime := rfl
@[simp] theorem State.complete_stimecmp (s : State) (npc : Word) : (s.complete npc).stimecmp = s.stimecmp := rfl
@[simp] theorem State.complete_sscratch (s : State) (npc : Word) : (s.complete npc).sscratch = s.sscratch := rfl
@[simp] theorem State.complete_sepc (s : State) (npc : Word) : (s.complete npc).sepc = s.sepc := rfl
@[simp] theorem State.complete_scause (s : State) (npc : Word) : (s.complete npc).scause = s.scause := rfl
@[simp] theorem State.complete_sbadaddr (s : State) (npc : Word) : (s.complete npc).sbadaddr = s.sbadaddr := rfl
@[simp] theorem State.complete_sptbr (s : State) (npc : Word) : (s.complete npc).sptbr = s.sptbr := rfl
@[simp] theorem State.complete_sasid (s : State) (npc : Word) : (s.complete npc).sasid = s.sasid := rfl
@[simp] theorem State.complete_stalled (s : State) (npc : Word) : (s.complete npc).stalled = s.stalled := rfl
@[simp] theorem State.complete_tc (s : State) (npc : Word) : (s.complete npc).tc = s.tc := rfl
@[simp] theorem State.complete_mem (s : State) (npc : Word) : (s.complete npc).mem = s.mem := rfl
@[simp] theorem State.complete_env (s : State) (npc : Word) : (s.complete npc).env = s.env := rfl
@[simp] theorem State.complete_free (s : State) (npc : Word) : (s.complete npc).free = s.free := rfl

/-! ## `advance` -/

@[simp] theorem State.advance_cfg (s : State) : (s.advance).cfg = s.cfg := rfl
@[simp] theorem State.advance_x (s : State) : (s.advance).x = s.x := rfl
@[simp] theorem State.advance_pc (s : State) : (s.advance).pc = s.cfg.norm (s.pc + 4) := rfl
@[simp] theorem State.advance_f (s : State) : (s.advance).f = s.f := rfl
@[simp] theorem State.advance_fflags (s : State) : (s.advance).fflags = s.fflags := rfl
@[simp] theorem State.advance_frm (s : State) : (s.advance).frm = s.frm := rfl
@[simp] theorem State.advance_cycle (s : State) : (s.advance).cycle = s.cycle := rfl
@[simp] theorem State.advance_time (s : State) : (s.advance).time = s.time := rfl
@[simp] theorem State.advance_instret (s : State) : (s.advance).instret = s.instret + 1 := rfl
@[simp] theorem State.advance_mstatus (s : State) : (s.advance).mstatus = s.mstatus := rfl
@[simp] theorem State.advance_mtvec (s : State) : (s.advance).mtvec = s.mtvec := rfl
@[simp] theorem State.advance_mtdeleg (s : State) : (s.advance).mtdeleg = s.mtdeleg := rfl
@[simp] theorem State.advance_mip (s : State) : (s.advance).mip = s.mip := rfl
@[simp] theorem State.advance_mie (s : State) : (s.advance).mie = s.mie := rfl
@[simp] theorem State.advance_mtime (s : State) : (s.advance).mtime = s.mtime := rfl
@[simp] theorem State.advance_mtimecmp (s : State) : (s.advance).mtimecmp = s.mtimecmp := rfl
@[simp] theorem State.advance_mscratch (s : State) : (s.advance).mscratch = s.mscratch := rfl
@[simp] theorem State.advance_mepc (s : State) : (s.advance).mepc = s.mepc := rfl
@[simp] theorem State.advance_mcause (s : State) : (s.advance).mcause = s.mcause := rfl
@[simp] theorem State.advance_mbadaddr (s : State) : (s.advance).mbadaddr = s.mbadaddr := rfl
@[simp] theorem State.advance_mbase (s : State) : (s.advance).mbase = s.mbase := rfl
@[simp] theorem State.advance_mbound (s : State) : (s.advance).mbound = s.mbound := rfl
@[simp] theorem State.advance_mibase (s : State) : (s.advance).mibase = s.mibase := rfl
@[simp] theorem State.advance_mibound (s : State) : (s.advance).mibound = s.mibound := rfl
@[simp] theorem State.advance_mdbase (s : State) : (s.advance).mdbase = s.mdbase := rfl
@[simp] theorem State.advance_mdbound (s : State) : (s.advance).mdbound = s.mdbound := rfl
@[simp] theorem State.advance_mtohost (s : State) : (s.advance).mtohost = s.mtohost := rfl
@[simp] theorem State.advance_mfromhost (s : State) : (s.advance).mfromhost = s.mfromhost := rfl
@[simp] theorem State.advance_stvec (s : State) : (s.advance).stvec = s.stvec := rfl
@[simp] theorem State.advance_stime (s : State) : (s.advance).stime = s.stime := rfl
@[simp] theorem State.advance_stimecmp (s : State) : (s.advance).stimecmp = s.stimecmp := rfl
@[simp] theorem State.advance_sscratch (s : State) : (s.advance).sscratch = s.sscratch := rfl
@[simp] theorem State.advance_sepc (s : State) : (s.advance).sepc = s.sepc := rfl
@[simp] theorem State.advance_scause (s : State) : (s.advance).scause = s.scause := rfl
@[simp] theorem State.advance_sbadaddr (s : State) : (s.advance).sbadaddr = s.sbadaddr := rfl
@[simp] theorem State.advance_sptbr (s : State) : (s.advance).sptbr = s.sptbr := rfl
@[simp] theorem State.advance_sasid (s : State) : (s.advance).sasid = s.sasid := rfl
@[simp] theorem State.advance_stalled (s : State) : (s.advance).stalled = s.stalled := rfl
@[simp] theorem State.advance_tc (s : State) : (s.advance).tc = s.tc := rfl
@[simp] theorem State.advance_mem (s : State) : (s.advance).mem = s.mem := rfl
@[simp] theorem State.advance_env (s : State) : (s.advance).env = s.env := rfl
@[simp] theorem State.advance_free (s : State) : (s.advance).free = s.free := rfl

/-! ## `setMem` -/

@[simp] theorem State.setMem_cfg (s : State) (m : Memory) : (s.setMem m).cfg = s.cfg := rfl
@[simp] theorem State.setMem_x (s : State) (m : Memory) : (s.setMem m).x = s.x := rfl
@[simp] theorem State.setMem_pc (s : State) (m : Memory) : (s.setMem m).pc = s.pc := rfl
@[simp] theorem State.setMem_f (s : State) (m : Memory) : (s.setMem m).f = s.f := rfl
@[simp] theorem State.setMem_fflags (s : State) (m : Memory) : (s.setMem m).fflags = s.fflags := rfl
@[simp] theorem State.setMem_frm (s : State) (m : Memory) : (s.setMem m).frm = s.frm := rfl
@[simp] theorem State.setMem_cycle (s : State) (m : Memory) : (s.setMem m).cycle = s.cycle := rfl
@[simp] theorem State.setMem_time (s : State) (m : Memory) : (s.setMem m).time = s.time := rfl
@[simp] theorem State.setMem_instret (s : State) (m : Memory) : (s.setMem m).instret = s.instret := rfl
@[simp] theorem State.setMem_mstatus (s : State) (m : Memory) : (s.setMem m).mstatus = s.mstatus := rfl
@[simp] theorem State.setMem_mtvec (s : State) (m : Memory) : (s.setMem m).mtvec = s.mtvec := rfl
@[simp] theorem State.setMem_mtdeleg (s : State) (m : Memory) : (s.setMem m).mtdeleg = s.mtdeleg := rfl
@[simp] theorem State.setMem_mip (s : State) (m : Memory) : (s.setMem m).mip = s.mip := rfl
@[simp] theorem State.setMem_mie (s : State) (m : Memory) : (s.setMem m).mie = s.mie := rfl
@[simp] theorem State.setMem_mtime (s : State) (m : Memory) : (s.setMem m).mtime = s.mtime := rfl
@[simp] theorem State.setMem_mtimecmp (s : State) (m : Memory) : (s.setMem m).mtimecmp = s.mtimecmp := rfl
@[simp] theorem State.setMem_mscratch (s : State) (m : Memory) : (s.setMem m).mscratch = s.mscratch := rfl
@[simp] theorem State.setMem_mepc (s : State) (m : Memory) : (s.setMem m).mepc = s.mepc := rfl
@[simp] theorem State.setMem_mcause (s : State) (m : Memory) : (s.setMem m).mcause = s.mcause := rfl
@[simp] theorem State.setMem_mbadaddr (s : State) (m : Memory) : (s.setMem m).mbadaddr = s.mbadaddr := rfl
@[simp] theorem State.setMem_mbase (s : State) (m : Memory) : (s.setMem m).mbase = s.mbase := rfl
@[simp] theorem State.setMem_mbound (s : State) (m : Memory) : (s.setMem m).mbound = s.mbound := rfl
@[simp] theorem State.setMem_mibase (s : State) (m : Memory) : (s.setMem m).mibase = s.mibase := rfl
@[simp] theorem State.setMem_mibound (s : State) (m : Memory) : (s.setMem m).mibound = s.mibound := rfl
@[simp] theorem State.setMem_mdbase (s : State) (m : Memory) : (s.setMem m).mdbase = s.mdbase := rfl
@[simp] theorem State.setMem_mdbound (s : State) (m : Memory) : (s.setMem m).mdbound = s.mdbound := rfl
@[simp] theorem State.setMem_mtohost (s : State) (m : Memory) : (s.setMem m).mtohost = s.mtohost := rfl
@[simp] theorem State.setMem_mfromhost (s : State) (m : Memory) : (s.setMem m).mfromhost = s.mfromhost := rfl
@[simp] theorem State.setMem_stvec (s : State) (m : Memory) : (s.setMem m).stvec = s.stvec := rfl
@[simp] theorem State.setMem_stime (s : State) (m : Memory) : (s.setMem m).stime = s.stime := rfl
@[simp] theorem State.setMem_stimecmp (s : State) (m : Memory) : (s.setMem m).stimecmp = s.stimecmp := rfl
@[simp] theorem State.setMem_sscratch (s : State) (m : Memory) : (s.setMem m).sscratch = s.sscratch := rfl
@[simp] theorem State.setMem_sepc (s : State) (m : Memory) : (s.setMem m).sepc = s.sepc := rfl
@[simp] theorem State.setMem_scause (s : State) (m : Memory) : (s.setMem m).scause = s.scause := rfl
@[simp] theorem State.setMem_sbadaddr (s : State) (m : Memory) : (s.setMem m).sbadaddr = s.sbadaddr := rfl
@[simp] theorem State.setMem_sptbr (s : State) (m : Memory) : (s.setMem m).sptbr = s.sptbr := rfl
@[simp] theorem State.setMem_sasid (s : State) (m : Memory) : (s.setMem m).sasid = s.sasid := rfl
@[simp] theorem State.setMem_stalled (s : State) (m : Memory) : (s.setMem m).stalled = s.stalled := rfl
@[simp] theorem State.setMem_tc (s : State) (m : Memory) : (s.setMem m).tc = s.tc := rfl
@[simp] theorem State.setMem_mem (s : State) (m : Memory) : (s.setMem m).mem = m := rfl
@[simp] theorem State.setMem_env (s : State) (m : Memory) : (s.setMem m).env = s.env := rfl
@[simp] theorem State.setMem_free (s : State) (m : Memory) : (s.setMem m).free = s.free := rfl

/-! ## `setTc` -/

@[simp] theorem State.setTc_cfg (s : State) (c : List TcEntry) : (s.setTc c).cfg = s.cfg := rfl
@[simp] theorem State.setTc_x (s : State) (c : List TcEntry) : (s.setTc c).x = s.x := rfl
@[simp] theorem State.setTc_pc (s : State) (c : List TcEntry) : (s.setTc c).pc = s.pc := rfl
@[simp] theorem State.setTc_f (s : State) (c : List TcEntry) : (s.setTc c).f = s.f := rfl
@[simp] theorem State.setTc_fflags (s : State) (c : List TcEntry) : (s.setTc c).fflags = s.fflags := rfl
@[simp] theorem State.setTc_frm (s : State) (c : List TcEntry) : (s.setTc c).frm = s.frm := rfl
@[simp] theorem State.setTc_cycle (s : State) (c : List TcEntry) : (s.setTc c).cycle = s.cycle := rfl
@[simp] theorem State.setTc_time (s : State) (c : List TcEntry) : (s.setTc c).time = s.time := rfl
@[simp] theorem State.setTc_instret (s : State) (c : List TcEntry) : (s.setTc c).instret = s.instret := rfl
@[simp] theorem State.setTc_mstatus (s : State) (c : List TcEntry) : (s.setTc c).mstatus = s.mstatus := rfl
@[simp] theorem State.setTc_mtvec (s : State) (c : List TcEntry) : (s.setTc c).mtvec = s.mtvec := rfl
@[simp] theorem State.setTc_mtdeleg (s : State) (c : List TcEntry) : (s.setTc c).mtdeleg = s.mtdeleg := rfl
@[simp] theorem State.setTc_mip (s : State) (c : List TcEntry) : (s.setTc c).mip = s.mip := rfl
@[simp] theorem State.setTc_mie (s : State) (c : List TcEntry) : (s.setTc c).mie = s.mie := rfl
@[simp] theorem State.setTc_mtime (s : State) (c : List TcEntry) : (s.setTc c).mtime = s.mtime := rfl
@[simp] theorem State.setTc_mtimecmp (s : State) (c : List TcEntry) : (s.setTc c).mtimecmp = s.mtimecmp := rfl
@[simp] theorem State.setTc_mscratch (s : State) (c : List TcEntry) : (s.setTc c).mscratch = s.mscratch := rfl
@[simp] theorem State.setTc_mepc (s : State) (c : List TcEntry) : (s.setTc c).mepc = s.mepc := rfl
@[simp] theorem State.setTc_mcause (s : State) (c : List TcEntry) : (s.setTc c).mcause = s.mcause := rfl
@[simp] theorem State.setTc_mbadaddr (s : State) (c : List TcEntry) : (s.setTc c).mbadaddr = s.mbadaddr := rfl
@[simp] theorem State.setTc_mbase (s : State) (c : List TcEntry) : (s.setTc c).mbase = s.mbase := rfl
@[simp] theorem State.setTc_mbound (s : State) (c : List TcEntry) : (s.setTc c).mbound = s.mbound := rfl
@[simp] theorem State.setTc_mibase (s : State) (c : List TcEntry) : (s.setTc c).mibase = s.mibase := rfl
@[simp] theorem State.setTc_mibound (s : State) (c : List TcEntry) : (s.setTc c).mibound = s.mibound := rfl
@[simp] theorem State.setTc_mdbase (s : State) (c : List TcEntry) : (s.setTc c).mdbase = s.mdbase := rfl
@[simp] theorem State.setTc_mdbound (s : State) (c : List TcEntry) : (s.setTc c).mdbound = s.mdbound := rfl
@[simp] theorem State.setTc_mtohost (s : State) (c : List TcEntry) : (s.setTc c).mtohost = s.mtohost := rfl
@[simp] theorem State.setTc_mfromhost (s : State) (c : List TcEntry) : (s.setTc c).mfromhost = s.mfromhost := rfl
@[simp] theorem State.setTc_stvec (s : State) (c : List TcEntry) : (s.setTc c).stvec = s.stvec := rfl
@[simp] theorem State.setTc_stime (s : State) (c : List TcEntry) : (s.setTc c).stime = s.stime := rfl
@[simp] theorem State.setTc_stimecmp (s : State) (c : List TcEntry) : (s.setTc c).stimecmp = s.stimecmp := rfl
@[simp] theorem State.setTc_sscratch (s : State) (c : List TcEntry) : (s.setTc c).sscratch = s.sscratch := rfl
@[simp] theorem State.setTc_sepc (s : State) (c : List TcEntry) : (s.setTc c).sepc = s.sepc := rfl
@[simp] theorem State.setTc_scause (s : State) (c : List TcEntry) : (s.setTc c).scause = s.scause := rfl
@[simp] theorem State.setTc_sbadaddr (s : State) (c : List TcEntry) : (s.setTc c).sbadaddr = s.sbadaddr := rfl
@[simp] theorem State.setTc_sptbr (s : State) (c : List TcEntry) : (s.setTc c).sptbr = s.sptbr := rfl
@[simp] theorem State.setTc_sasid (s : State) (c : List TcEntry) : (s.setTc c).sasid = s.sasid := rfl
@[simp] theorem State.setTc_stalled (s : State) (c : List TcEntry) : (s.setTc c).stalled = s.stalled := rfl
@[simp] theorem State.setTc_tc (s : State) (c : List TcEntry) : (s.setTc c).tc = c := rfl
@[simp] theorem State.setTc_mem (s : State) (c : List TcEntry) : (s.setTc c).mem = s.mem := rfl
@[simp] theorem State.setTc_env (s : State) (c : List TcEntry) : (s.setTc c).env = s.env := rfl
@[simp] theorem State.setTc_free (s : State) (c : List TcEntry) : (s.setTc c).free = s.free := rfl

/-! ## `setMstatus` -/

@[simp] theorem State.setMstatus_cfg (s : State) (m : Mstatus) : (s.setMstatus m).cfg = s.cfg := rfl
@[simp] theorem State.setMstatus_x (s : State) (m : Mstatus) : (s.setMstatus m).x = s.x := rfl
@[simp] theorem State.setMstatus_pc (s : State) (m : Mstatus) : (s.setMstatus m).pc = s.pc := rfl
@[simp] theorem State.setMstatus_f (s : State) (m : Mstatus) : (s.setMstatus m).f = s.f := rfl
@[simp] theorem State.setMstatus_fflags (s : State) (m : Mstatus) : (s.setMstatus m).fflags = s.fflags := rfl
@[simp] theorem State.setMstatus_frm (s : State) (m : Mstatus) : (s.setMstatus m).frm = s.frm := rfl
@[simp] theorem State.setMstatus_cycle (s : State) (m : Mstatus) : (s.setMstatus m).cycle = s.cycle := rfl
@[simp] theorem State.setMstatus_time (s : State) (m : Mstatus) : (s.setMstatus m).time = s.time := rfl
@[simp] theorem State.setMstatus_instret (s : State) (m : Mstatus) : (s.setMstatus m).instret = s.instret := rfl
@[simp] theorem State.setMstatus_mstatus (s : State) (m : Mstatus) : (s.setMstatus m).mstatus = m := rfl
@[simp] theorem State.setMstatus_mtvec (s : State) (m : Mstatus) : (s.setMstatus m).mtvec = s.mtvec := rfl
@[simp] theorem State.setMstatus_mtdeleg (s : State) (m : Mstatus) : (s.setMstatus m).mtdeleg = s.mtdeleg := rfl
@[simp] theorem State.setMstatus_mip (s : State) (m : Mstatus) : (s.setMstatus m).mip = s.mip := rfl
@[simp] theorem State.setMstatus_mie (s : State) (m : Mstatus) : (s.setMstatus m).mie = s.mie := rfl
@[simp] theorem State.setMstatus_mtime (s : State) (m : Mstatus) : (s.setMstatus m).mtime = s.mtime := rfl
@[simp] theorem State.setMstatus_mtimecmp (s : State) (m : Mstatus) : (s.setMstatus m).mtimecmp = s.mtimecmp := rfl
@[simp] theorem State.setMstatus_mscratch (s : State) (m : Mstatus) : (s.setMstatus m).mscratch = s.mscratch := rfl
@[simp] theorem State.setMstatus_mepc (s : State) (m : Mstatus) : (s.setMstatus m).mepc = s.mepc := rfl
@[simp] theorem State.setMstatus_mcause (s : State) (m : Mstatus) : (s.setMstatus m).mcause = s.mcause := rfl
@[simp] theorem State.setMstatus_mbadaddr (s : State) (m : Mstatus) : (s.setMstatus m).mbadaddr = s.mbadaddr := rfl
@[simp] theorem State.setMstatus_mbase (s : State) (m : Mstatus) : (s.setMstatus m).mbase = s.mbase := rfl
@[simp] theorem State.setMstatus_mbound (s : State) (m : Mstatus) : (s.setMstatus m).mbound = s.mbound := rfl
@[simp] theorem State.setMstatus_mibase (s : State) (m : Mstatus) : (s.setMstatus m).mibase = s.mibase := rfl
@[simp] theorem State.setMstatus_mibound (s : State) (m : Mstatus) : (s.setMstatus m).mibound = s.mibound := rfl
@[simp] theorem State.setMstatus_mdbase (s : State) (m : Mstatus) : (s.setMstatus m).mdbase = s.mdbase := rfl
@[simp] theorem State.setMstatus_mdbound (s : State) (m : Mstatus) : (s.setMstatus m).mdbound = s.mdbound := rfl
@[simp] theorem State.setMstatus_mtohost (s : State) (m : Mstatus) : (s.setMstatus m).mtohost = s.mtohost := rfl
@[simp] theorem State.setMstatus_mfromhost (s : State) (m : Mstatus) : (s.setMstatus m).mfromhost = s.mfromhost := rfl
@[simp] theorem State.setMstatus_stvec (s : State) (m : Mstatus) : (s.setMstatus m).stvec = s.stvec := rfl
@[simp] theorem State.setMstatus_stime (s : State) (m : Mstatus) : (s.setMstatus m).stime = s.stime := rfl
@[simp] theorem State.setMstatus_stimecmp (s : State) (m : Mstatus) : (s.setMstatus m).stimecmp = s.stimecmp := rfl
@[simp] theorem State.setMstatus_sscratch (s : State) (m : Mstatus) : (s.setMstatus m).sscratch = s.sscratch := rfl
@[simp] theorem State.setMstatus_sepc (s : State) (m : Mstatus) : (s.setMstatus m).sepc = s.sepc := rfl
@[simp] theorem State.setMstatus_scause (s : State) (m : Mstatus) : (s.setMstatus m).scause = s.scause := rfl
@[simp] theorem State.setMstatus_sbadaddr (s : State) (m : Mstatus) : (s.setMstatus m).sbadaddr = s.sbadaddr := rfl
@[simp] theorem State.setMstatus_sptbr (s : State) (m : Mstatus) : (s.setMstatus m).sptbr = s.sptbr := rfl
@[simp] theorem State.setMstatus_sasid (s : State) (m : Mstatus) : (s.setMstatus m).sasid = s.sasid := rfl
@[simp] theorem State.setMstatus_stalled (s : State) (m : Mstatus) : (s.setMstatus m).stalled = s.stalled := rfl
@[simp] theorem State.setMstatus_tc (s : State) (m : Mstatus) : (s.setMstatus m).tc = s.tc := rfl
@[simp] theorem State.setMstatus_mem (s : State) (m : Mstatus) : (s.setMstatus m).mem = s.mem := rfl
@[simp] theorem State.setMstatus_env (s : State) (m : Mstatus) : (s.setMstatus m).env = s.env := rfl
@[simp] theorem State.setMstatus_free (s : State) (m : Mstatus) : (s.setMstatus m).free = s.free := rfl

/-! ## `dirtyFs` -/

@[simp] theorem State.dirtyFs_cfg (s : State) : (s.dirtyFs).cfg = s.cfg := rfl
@[simp] theorem State.dirtyFs_x (s : State) : (s.dirtyFs).x = s.x := rfl
@[simp] theorem State.dirtyFs_pc (s : State) : (s.dirtyFs).pc = s.pc := rfl
@[simp] theorem State.dirtyFs_f (s : State) : (s.dirtyFs).f = s.f := rfl
@[simp] theorem State.dirtyFs_fflags (s : State) : (s.dirtyFs).fflags = s.fflags := rfl
@[simp] theorem State.dirtyFs_frm (s : State) : (s.dirtyFs).frm = s.frm := rfl
@[simp] theorem State.dirtyFs_cycle (s : State) : (s.dirtyFs).cycle = s.cycle := rfl
@[simp] theorem State.dirtyFs_time (s : State) : (s.dirtyFs).time = s.time := rfl
@[simp] theorem State.dirtyFs_instret (s : State) : (s.dirtyFs).instret = s.instret := rfl
@[simp] theorem State.dirtyFs_mstatus (s : State) : (s.dirtyFs).mstatus = { s.mstatus with fs := .dirty } := rfl
@[simp] theorem State.dirtyFs_mtvec (s : State) : (s.dirtyFs).mtvec = s.mtvec := rfl
@[simp] theorem State.dirtyFs_mtdeleg (s : State) : (s.dirtyFs).mtdeleg = s.mtdeleg := rfl
@[simp] theorem State.dirtyFs_mip (s : State) : (s.dirtyFs).mip = s.mip := rfl
@[simp] theorem State.dirtyFs_mie (s : State) : (s.dirtyFs).mie = s.mie := rfl
@[simp] theorem State.dirtyFs_mtime (s : State) : (s.dirtyFs).mtime = s.mtime := rfl
@[simp] theorem State.dirtyFs_mtimecmp (s : State) : (s.dirtyFs).mtimecmp = s.mtimecmp := rfl
@[simp] theorem State.dirtyFs_mscratch (s : State) : (s.dirtyFs).mscratch = s.mscratch := rfl
@[simp] theorem State.dirtyFs_mepc (s : State) : (s.dirtyFs).mepc = s.mepc := rfl
@[simp] theorem State.dirtyFs_mcause (s : State) : (s.dirtyFs).mcause = s.mcause := rfl
@[simp] theorem State.dirtyFs_mbadaddr (s : State) : (s.dirtyFs).mbadaddr = s.mbadaddr := rfl
@[simp] theorem State.dirtyFs_mbase (s : State) : (s.dirtyFs).mbase = s.mbase := rfl
@[simp] theorem State.dirtyFs_mbound (s : State) : (s.dirtyFs).mbound = s.mbound := rfl
@[simp] theorem State.dirtyFs_mibase (s : State) : (s.dirtyFs).mibase = s.mibase := rfl
@[simp] theorem State.dirtyFs_mibound (s : State) : (s.dirtyFs).mibound = s.mibound := rfl
@[simp] theorem State.dirtyFs_mdbase (s : State) : (s.dirtyFs).mdbase = s.mdbase := rfl
@[simp] theorem State.dirtyFs_mdbound (s : State) : (s.dirtyFs).mdbound = s.mdbound := rfl
@[simp] theorem State.dirtyFs_mtohost (s : State) : (s.dirtyFs).mtohost = s.mtohost := rfl
@[simp] theorem State.dirtyFs_mfromhost (s : State) : (s.dirtyFs).mfromhost = s.mfromhost := rfl
@[simp] theorem State.dirtyFs_stvec (s : State) : (s.dirtyFs).stvec = s.stvec := rfl
@[simp] theorem State.dirtyFs_stime (s : State) : (s.dirtyFs).stime = s.stime := rfl
@[simp] theorem State.dirtyFs_stimecmp (s : State) : (s.dirtyFs).stimecmp = s.stimecmp := rfl
@[simp] theorem State.dirtyFs_sscratch (s : State) : (s.dirtyFs).sscratch = s.sscratch := rfl
@[simp] theorem State.dirtyFs_sepc (s : State) : (s.dirtyFs).sepc = s.sepc := rfl
@[simp] theorem State.dirtyFs_scause (s : State) : (s.dirtyFs).scause = s.scause := rfl
@[simp] theorem State.dirtyFs_sbadaddr (s : State) : (s.dirtyFs).sbadaddr = s.sbadaddr := rfl
@[simp] theorem State.dirtyFs_sptbr (s : State) : (s.dirtyFs).sptbr = s.sptbr := rfl
@[simp] theorem State.dirtyFs_sasid (s : State) : (s.dirtyFs).sasid = s.sasid := rfl
@[simp] theorem State.dirtyFs_stalled (s : State) : (s.dirtyFs).stalled = s.stalled := rfl
@[simp] theorem State.dirtyFs_tc (s : State) : (s.dirtyFs).tc = s.tc := rfl
@[simp] theorem State.dirtyFs_mem (s : State) : (s.dirtyFs).mem = s.mem := rfl
@[simp] theorem State.dirtyFs_env (s : State) : (s.dirtyFs).env = s.env := rfl
@[simp] theorem State.dirtyFs_free (s : State) : (s.dirtyFs).free = s.free := rfl

/-! ## `latchTimers` -/

@[simp] theorem State.latchTimers_cfg (s : State) : (s.latchTimers).cfg = s.cfg := rfl
@[simp] theorem State.latchTimers_x (s : State) : (s.latchTimers).x = s.x := rfl
@[simp] theorem State.latchTimers_pc (s : State) : (s.latchTimers).pc = s.pc := rfl
@[simp] theorem State.latchTimers_f (s : State) : (s.latchTimers).f = s.f := rfl
@[simp] theorem State.latchTimers_fflags (s : State) : (s.latchTimers).fflags = s.fflags := rfl
@[simp] theorem State.latchTimers_frm (s : State) : (s.latchTimers).frm = s.frm := rfl
@[simp] theorem State.latchTimers_cycle (s : State) : (s.latchTimers).cycle = s.cycle := rfl
@[simp] theorem State.latchTimers_time (s : State) : (s.latchTimers).time = s.time := rfl
@[simp] theorem State.latchTimers_instret (s : State) : (s.latchTimers).instret = s.instret := rfl
@[simp] theorem State.latchTimers_mstatus (s : State) : (s.latchTimers).mstatus = s.mstatus := rfl
@[simp] theorem State.latchTimers_mtvec (s : State) : (s.latchTimers).mtvec = s.mtvec := rfl
@[simp] theorem State.latchTimers_mtdeleg (s : State) : (s.latchTimers).mtdeleg = s.mtdeleg := rfl
@[simp] theorem State.latchTimers_mip (s : State) : (s.latchTimers).mip = s.latched 0 := rfl
@[simp] theorem State.latchTimers_mie (s : State) : (s.latchTimers).mie = s.mie := rfl
@[simp] theorem State.latchTimers_mtime (s : State) : (s.latchTimers).mtime = s.mtime := rfl
@[simp] theorem State.latchTimers_mtimecmp (s : State) : (s.latchTimers).mtimecmp = s.mtimecmp := rfl
@[simp] theorem State.latchTimers_mscratch (s : State) : (s.latchTimers).mscratch = s.mscratch := rfl
@[simp] theorem State.latchTimers_mepc (s : State) : (s.latchTimers).mepc = s.mepc := rfl
@[simp] theorem State.latchTimers_mcause (s : State) : (s.latchTimers).mcause = s.mcause := rfl
@[simp] theorem State.latchTimers_mbadaddr (s : State) : (s.latchTimers).mbadaddr = s.mbadaddr := rfl
@[simp] theorem State.latchTimers_mbase (s : State) : (s.latchTimers).mbase = s.mbase := rfl
@[simp] theorem State.latchTimers_mbound (s : State) : (s.latchTimers).mbound = s.mbound := rfl
@[simp] theorem State.latchTimers_mibase (s : State) : (s.latchTimers).mibase = s.mibase := rfl
@[simp] theorem State.latchTimers_mibound (s : State) : (s.latchTimers).mibound = s.mibound := rfl
@[simp] theorem State.latchTimers_mdbase (s : State) : (s.latchTimers).mdbase = s.mdbase := rfl
@[simp] theorem State.latchTimers_mdbound (s : State) : (s.latchTimers).mdbound = s.mdbound := rfl
@[simp] theorem State.latchTimers_mtohost (s : State) : (s.latchTimers).mtohost = s.mtohost := rfl
@[simp] theorem State.latchTimers_mfromhost (s : State) : (s.latchTimers).mfromhost = s.mfromhost := rfl
@[simp] theorem State.latchTimers_stvec (s : State) : (s.latchTimers).stvec = s.stvec := rfl
@[simp] theorem State.latchTimers_stime (s : State) : (s.latchTimers).stime = s.stime := rfl
@[simp] theorem State.latchTimers_stimecmp (s : State) : (s.latchTimers).stimecmp = s.stimecmp := rfl
@[simp] theorem State.latchTimers_sscratch (s : State) : (s.latchTimers).sscratch = s.sscratch := rfl
@[simp] theorem State.latchTimers_sepc (s : State) : (s.latchTimers).sepc = s.sepc := rfl
@[simp] theorem State.latchTimers_scause (s : State) : (s.latchTimers).scause = s.scause := rfl
@[simp] theorem State.latchTimers_sbadaddr (s : State) : (s.latchTimers).sbadaddr = s.sbadaddr := rfl
@[simp] theorem State.latchTimers_sptbr (s : State) : (s.latchTimers).sptbr = s.sptbr := rfl
@[simp] theorem State.latchTimers_sasid (s : State) : (s.latchTimers).sasid = s.sasid := rfl
@[simp] theorem State.latchTimers_stalled (s : State) : (s.latchTimers).stalled = s.stalled := rfl
@[simp] theorem State.latchTimers_tc (s : State) : (s.latchTimers).tc = s.tc := rfl
@[simp] theorem State.latchTimers_mem (s : State) : (s.latchTimers).mem = s.mem := rfl
@[simp] theorem State.latchTimers_env (s : State) : (s.latchTimers).env = s.env := rfl
@[simp] theorem State.latchTimers_free (s : State) : (s.latchTimers).free = s.free := rfl

/-! ## `popEnv` -/

@[simp] theorem State.popEnv_cfg (s : State) : (s.popEnv).cfg = s.cfg := rfl
@[simp] theorem State.popEnv_x (s : State) : (s.popEnv).x = s.x := rfl
@[simp] theorem State.popEnv_pc (s : State) : (s.popEnv).pc = s.pc := rfl
@[simp] theorem State.popEnv_f (s : State) : (s.popEnv).f = s.f := rfl
@[simp] theorem State.popEnv_fflags (s : State) : (s.popEnv).fflags = s.fflags := rfl
@[simp] theorem State.popEnv_frm (s : State) : (s.popEnv).frm = s.frm := rfl
@[simp] theorem State.popEnv_cycle (s : State) : (s.popEnv).cycle = s.cycle := rfl
@[simp] theorem State.popEnv_time (s : State) : (s.popEnv).time = s.time := rfl
@[simp] theorem State.popEnv_instret (s : State) : (s.popEnv).instret = s.instret := rfl
@[simp] theorem State.popEnv_mstatus (s : State) : (s.popEnv).mstatus = s.mstatus := rfl
@[simp] theorem State.popEnv_mtvec (s : State) : (s.popEnv).mtvec = s.mtvec := rfl
@[simp] theorem State.popEnv_mtdeleg (s : State) : (s.popEnv).mtdeleg = s.mtdeleg := rfl
@[simp] theorem State.popEnv_mip (s : State) : (s.popEnv).mip = s.mip := rfl
@[simp] theorem State.popEnv_mie (s : State) : (s.popEnv).mie = s.mie := rfl
@[simp] theorem State.popEnv_mtime (s : State) : (s.popEnv).mtime = s.mtime := rfl
@[simp] theorem State.popEnv_mtimecmp (s : State) : (s.popEnv).mtimecmp = s.mtimecmp := rfl
@[simp] theorem State.popEnv_mscratch (s : State) : (s.popEnv).mscratch = s.mscratch := rfl
@[simp] theorem State.popEnv_mepc (s : State) : (s.popEnv).mepc = s.mepc := rfl
@[simp] theorem State.popEnv_mcause (s : State) : (s.popEnv).mcause = s.mcause := rfl
@[simp] theorem State.popEnv_mbadaddr (s : State) : (s.popEnv).mbadaddr = s.mbadaddr := rfl
@[simp] theorem State.popEnv_mbase (s : State) : (s.popEnv).mbase = s.mbase := rfl
@[simp] theorem State.popEnv_mbound (s : State) : (s.popEnv).mbound = s.mbound := rfl
@[simp] theorem State.popEnv_mibase (s : State) : (s.popEnv).mibase = s.mibase := rfl
@[simp] theorem State.popEnv_mibound (s : State) : (s.popEnv).mibound = s.mibound := rfl
@[simp] theorem State.popEnv_mdbase (s : State) : (s.popEnv).mdbase = s.mdbase := rfl
@[simp] theorem State.popEnv_mdbound (s : State) : (s.popEnv).mdbound = s.mdbound := rfl
@[simp] theorem State.popEnv_mtohost (s : State) : (s.popEnv).mtohost = s.mtohost := rfl
@[simp] theorem State.popEnv_mfromhost (s : State) : (s.popEnv).mfromhost = s.mfromhost := rfl
@[simp] theorem State.popEnv_stvec (s : State) : (s.popEnv).stvec = s.stvec := rfl
@[simp] theorem State.popEnv_stime (s : State) : (s.popEnv).stime = s.stime := rfl
@[simp] theorem State.popEnv_stimecmp (s : State) : (s.popEnv).stimecmp = s.stimecmp := rfl
@[simp] theorem State.popEnv_sscratch (s : State) : (s.popEnv).sscratch = s.sscratch := rfl
@[simp] theorem State.popEnv_sepc (s : State) : (s.popEnv).sepc = s.sepc := rfl
@[simp] theorem State.popEnv_scause (s : State) : (s.popEnv).scause = s.scause := rfl
@[simp] theorem State.popEnv_sbadaddr (s : State) : (s.popEnv).sbadaddr = s.sbadaddr := rfl
@[simp] theorem State.popEnv_sptbr (s : State) : (s.popEnv).sptbr = s.sptbr := rfl
@[simp] theorem State.popEnv_sasid (s : State) : (s.popEnv).sasid = s.sasid := rfl
@[simp] theorem State.popEnv_stalled (s : State) : (s.popEnv).stalled = s.stalled := rfl
@[simp] theorem State.popEnv_tc (s : State) : (s.popEnv).tc = s.tc := rfl
@[simp] theorem State.popEnv_mem (s : State) : (s.popEnv).mem = s.mem := rfl
@[simp] theorem State.popEnv_env (s : State) : (s.popEnv).env = s.env.tail := rfl
@[simp] theorem State.popEnv_free (s : State) : (s.popEnv).free = s.free := rfl

/-! ## `environment` -/

@[simp] theorem State.environment_cfg (s : State) : (s.environment).cfg = s.cfg := rfl
@[simp] theorem State.environment_x (s : State) : (s.environment).x = s.x := rfl
@[simp] theorem State.environment_pc (s : State) : (s.environment).pc = s.pc := rfl
@[simp] theorem State.environment_f (s : State) : (s.environment).f = s.f := rfl
@[simp] theorem State.environment_fflags (s : State) : (s.environment).fflags = s.fflags := rfl
@[simp] theorem State.environment_frm (s : State) : (s.environment).frm = s.frm := rfl
@[simp] theorem State.environment_instret (s : State) : (s.environment).instret = s.instret := rfl
@[simp] theorem State.environment_mstatus (s : State) : (s.environment).mstatus = s.mstatus := rfl
@[simp] theorem State.environment_mtvec (s : State) : (s.environment).mtvec = s.mtvec := rfl
@[simp] theorem State.environment_mtdeleg (s : State) : (s.environment).mtdeleg = s.mtdeleg := rfl
@[simp] theorem State.environment_mie (s : State) : (s.environment).mie = s.mie := rfl
@[simp] theorem State.environment_mtimecmp (s : State) : (s.environment).mtimecmp = s.mtimecmp := rfl
@[simp] theorem State.environment_mscratch (s : State) : (s.environment).mscratch = s.mscratch := rfl
@[simp] theorem State.environment_mepc (s : State) : (s.environment).mepc = s.mepc := rfl
@[simp] theorem State.environment_mcause (s : State) : (s.environment).mcause = s.mcause := rfl
@[simp] theorem State.environment_mbadaddr (s : State) : (s.environment).mbadaddr = s.mbadaddr := rfl
@[simp] theorem State.environment_mbase (s : State) : (s.environment).mbase = s.mbase := rfl
@[simp] theorem State.environment_mbound (s : State) : (s.environment).mbound = s.mbound := rfl
@[simp] theorem State.environment_mibase (s : State) : (s.environment).mibase = s.mibase := rfl
@[simp] theorem State.environment_mibound (s : State) : (s.environment).mibound = s.mibound := rfl
@[simp] theorem State.environment_mdbase (s : State) : (s.environment).mdbase = s.mdbase := rfl
@[simp] theorem State.environment_mdbound (s : State) : (s.environment).mdbound = s.mdbound := rfl
@[simp] theorem State.environment_mtohost (s : State) : (s.environment).mtohost = s.mtohost := rfl
@[simp] theorem State.environment_stvec (s : State) : (s.environment).stvec = s.stvec := rfl
@[simp] theorem State.environment_stimecmp (s : State) : (s.environment).stimecmp = s.stimecmp := rfl
@[simp] theorem State.environment_sscratch (s : State) : (s.environment).sscratch = s.sscratch := rfl
@[simp] theorem State.environment_sepc (s : State) : (s.environment).sepc = s.sepc := rfl
@[simp] theorem State.environment_scause (s : State) : (s.environment).scause = s.scause := rfl
@[simp] theorem State.environment_sbadaddr (s : State) : (s.environment).sbadaddr = s.sbadaddr := rfl
@[simp] theorem State.environment_sptbr (s : State) : (s.environment).sptbr = s.sptbr := rfl
@[simp] theorem State.environment_sasid (s : State) : (s.environment).sasid = s.sasid := rfl
@[simp] theorem State.environment_stalled (s : State) : (s.environment).stalled = s.stalled := rfl
@[simp] theorem State.environment_env (s : State) : (s.environment).env = s.env := rfl
@[simp] theorem State.environment_free (s : State) : (s.environment).free = s.free := rfl

/-! ## `raise` -/

@[simp] theorem State.raise_cfg (s : State) (e : Exc) (bad : Option Word) : (s.raise e bad).cfg = s.cfg := rfl
@[simp] theorem State.raise_x (s : State) (e : Exc) (bad : Option Word) : (s.raise e bad).x = s.x := rfl
@[simp] theorem State.raise_f (s : State) (e : Exc) (bad : Option Word) : (s.raise e bad).f = s.f := rfl
@[simp] theorem State.raise_fflags (s : State) (e : Exc) (bad : Option Word) :
    (s.raise e bad).fflags = s.fflags := rfl
@[simp] theorem State.raise_frm (s : State) (e : Exc) (bad : Option Word) : (s.raise e bad).frm = s.frm := rfl
@[simp] theorem State.raise_cycle (s : State) (e : Exc) (bad : Option Word) : (s.raise e bad).cycle = s.cycle := rfl
@[simp] theorem State.raise_time (s : State) (e : Exc) (bad : Option Word) : (s.raise e bad).time = s.time := rfl
@[simp] theorem State.raise_instret (s : State) (e : Exc) (bad : Option Word) :
    (s.raise e bad).instret = s.instret := rfl
@[simp] theorem State.raise_mtvec (s : State) (e : Exc) (bad : Option Word) : (s.raise e bad).mtvec = s.mtvec := rfl
@[simp] theorem State.raise_mtdeleg (s : State) (e : Exc) (bad : Option Word) :
    (s.raise e bad).mtdeleg = s.mtdeleg := rfl
@[simp] theorem State.raise_mip (s : State) (e : Exc) (bad : Option Word) : (s.raise e bad).mip = s.mip := rfl
@[simp] theorem State.raise_mie (s : State) (e : Exc) (bad : Option Word) : (s.raise e bad).mie = s.mie := rfl
@[simp] theorem State.raise_mtime (s : State) (e : Exc) (bad : Option Word) : (s.raise e bad).mtime = s.mtime := rfl
@[simp] theorem State.raise_mtimecmp (s : State) (e : Exc) (bad : Option Word) :
    (s.raise e bad).mtimecmp = s.mtimecmp := rfl
@[simp] theorem State.raise_mscratch (s : State) (e : Exc) (bad : Option Word) :
    (s.raise e bad).mscratch = s.mscratch := rfl
@[simp] theorem State.raise_mbase (s : State) (e : Exc) (bad : Option Word) : (s.raise e bad).mbase = s.mbase := rfl
@[simp] theorem State.raise_mbound (s : State) (e : Exc) (bad : Option Word) :
    (s.raise e bad).mbound = s.mbound := rfl
@[simp] theorem State.raise_mibase (s : State) (e : Exc) (bad : Option Word) :
    (s.raise e bad).mibase = s.mibase := rfl
@[simp] theorem State.raise_mibound (s : State) (e : Exc) (bad : Option Word) :
    (s.raise e bad).mibound = s.mibound := rfl
@[simp] theorem State.raise_mdbase (s : State) (e : Exc) (bad : Option Word) :
    (s.raise e bad).mdbase = s.mdbase := rfl
@[simp] theorem State.raise_mdbound (s : State) (e : Exc) (bad : Option Word) :
    (s.raise e bad).mdbound = s.mdbound := rfl
@[simp] theorem State.raise_mtohost (s : State) (e : Exc) (bad : Option Word) :
    (s.raise e bad).mtohost = s.mtohost := rfl
@[simp] theorem State.raise_mfromhost (s : State) (e : Exc) (bad : Option Word) :
    (s.raise e bad).mfromhost = s.mfromhost := rfl
@[simp] theorem State.raise_stvec (s : State) (e : Exc) (bad : Option Word) : (s.raise e bad).stvec = s.stvec := rfl
@[simp] theorem State.raise_stime (s : State) (e : Exc) (bad : Option Word) : (s.raise e bad).stime = s.stime := rfl
@[simp] theorem State.raise_stimecmp (s : State) (e : Exc) (bad : Option Word) :
    (s.raise e bad).stimecmp = s.stimecmp := rfl
@[simp] theorem State.raise_sscratch (s : State) (e : Exc) (bad : Option Word) :
    (s.raise e bad).sscratch = s.sscratch := rfl
@[simp] theorem State.raise_sptbr (s : State) (e : Exc) (bad : Option Word) : (s.raise e bad).sptbr = s.sptbr := rfl
@[simp] theorem State.raise_sasid (s : State) (e : Exc) (bad : Option Word) : (s.raise e bad).sasid = s.sasid := rfl
@[simp] theorem State.raise_stalled (s : State) (e : Exc) (bad : Option Word) : (s.raise e bad).stalled = false := rfl
@[simp] theorem State.raise_tc (s : State) (e : Exc) (bad : Option Word) : (s.raise e bad).tc = s.tc := rfl
@[simp] theorem State.raise_mem (s : State) (e : Exc) (bad : Option Word) : (s.raise e bad).mem = s.mem := rfl
@[simp] theorem State.raise_env (s : State) (e : Exc) (bad : Option Word) : (s.raise e bad).env = s.env := rfl

/-! ## `takeTrap` -/

@[simp] theorem State.takeTrap_cfg (s : State) (i : Bool) (c : BitVec 4) (d : Nat) (epc : Word) (bad : Option Word) :
    (s.takeTrap i c d epc bad).cfg = s.cfg := rfl
@[simp] theorem State.takeTrap_x (s : State) (i : Bool) (c : BitVec 4) (d : Nat) (epc : Word) (bad : Option Word) :
    (s.takeTrap i c d epc bad).x = s.x := rfl
@[simp] theorem State.takeTrap_f (s : State) (i : Bool) (c : BitVec 4) (d : Nat) (epc : Word) (bad : Option Word) :
    (s.takeTrap i c d epc bad).f = s.f := rfl
@[simp] theorem State.takeTrap_fflags (s : State) (i : Bool) (c : BitVec 4) (d : Nat) (epc : Word) (bad : Option Word) :
    (s.takeTrap i c d epc bad).fflags = s.fflags := rfl
@[simp] theorem State.takeTrap_frm (s : State) (i : Bool) (c : BitVec 4) (d : Nat) (epc : Word) (bad : Option Word) :
    (s.takeTrap i c d epc bad).frm = s.frm := rfl
@[simp] theorem State.takeTrap_cycle (s : State) (i : Bool) (c : BitVec 4) (d : Nat) (epc : Word) (bad : Option Word) :
    (s.takeTrap i c d epc bad).cycle = s.cycle := rfl
@[simp] theorem State.takeTrap_time (s : State) (i : Bool) (c : BitVec 4) (d : Nat) (epc : Word) (bad : Option Word) :
    (s.takeTrap i c d epc bad).time = s.time := rfl
@[simp] theorem State.takeTrap_instret (s : State) (i : Bool) (c : BitVec 4) (d : Nat) (epc : Word) (bad : Option Word) :
    (s.takeTrap i c d epc bad).instret = s.instret := rfl
@[simp] theorem State.takeTrap_mtvec (s : State) (i : Bool) (c : BitVec 4) (d : Nat) (epc : Word) (bad : Option Word) :
    (s.takeTrap i c d epc bad).mtvec = s.mtvec := rfl
@[simp] theorem State.takeTrap_mtdeleg (s : State) (i : Bool) (c : BitVec 4) (d : Nat) (epc : Word) (bad : Option Word) :
    (s.takeTrap i c d epc bad).mtdeleg = s.mtdeleg := rfl
@[simp] theorem State.takeTrap_mip (s : State) (i : Bool) (c : BitVec 4) (d : Nat) (epc : Word) (bad : Option Word) :
    (s.takeTrap i c d epc bad).mip = s.mip := rfl
@[simp] theorem State.takeTrap_mie (s : State) (i : Bool) (c : BitVec 4) (d : Nat) (epc : Word) (bad : Option Word) :
    (s.takeTrap i c d epc bad).mie = s.mie := rfl
@[simp] theorem State.takeTrap_mtime (s : State) (i : Bool) (c : BitVec 4) (d : Nat) (epc : Word) (bad : Option Word) :
    (s.takeTrap i c d epc bad).mtime = s.mtime := rfl
@[simp] theorem State.takeTrap_mtimecmp (s : State) (i : Bool) (c : BitVec 4) (d : Nat) (epc : Word) (bad : Option Word) :
    (s.takeTrap i c d epc bad).mtimecmp = s.mtimecmp := rfl
@[simp] theorem State.takeTrap_mscratch (s : State) (i : Bool) (c : BitVec 4) (d : Nat) (epc : Word) (bad : Option Word) :
    (s.takeTrap i c d epc bad).mscratch = s.mscratch := rfl
@[simp] theorem State.takeTrap_mbase (s : State) (i : Bool) (c : BitVec 4) (d : Nat) (epc : Word) (bad : Option Word) :
    (s.takeTrap i c d epc bad).mbase = s.mbase := rfl
@[simp] theorem State.takeTrap_mbound (s : State) (i : Bool) (c : BitVec 4) (d : Nat) (epc : Word) (bad : Option Word) :
    (s.takeTrap i c d epc bad).mbound = s.mbound := rfl
@[simp] theorem State.takeTrap_mibase (s : State) (i : Bool) (c : BitVec 4) (d : Nat) (epc : Word) (bad : Option Word) :
    (s.takeTrap i c d epc bad).mibase = s.mibase := rfl
@[simp] theorem State.takeTrap_mibound (s : State) (i : Bool) (c : BitVec 4) (d : Nat) (epc : Word) (bad : Option Word) :
    (s.takeTrap i c d epc bad).mibound = s.mibound := rfl
@[simp] theorem State.takeTrap_mdbase (s : State) (i : Bool) (c : BitVec 4) (d : Nat) (epc : Word) (bad : Option Word) :
    (s.takeTrap i c d epc bad).mdbase = s.mdbase := rfl
@[simp] theorem State.takeTrap_mdbound (s : State) (i : Bool) (c : BitVec 4) (d : Nat) (epc : Word) (bad : Option Word) :
    (s.takeTrap i c d epc bad).mdbound = s.mdbound := rfl
@[simp] theorem State.takeTrap_mtohost (s : State) (i : Bool) (c : BitVec 4) (d : Nat) (epc : Word) (bad : Option Word) :
    (s.takeTrap i c d epc bad).mtohost = s.mtohost := rfl
@[simp] theorem State.takeTrap_mfromhost (s : State) (i : Bool) (c : BitVec 4) (d : Nat) (epc : Word) (bad : Option Word) :
    (s.takeTrap i c d epc bad).mfromhost = s.mfromhost := rfl
@[simp] theorem State.takeTrap_stvec (s : State) (i : Bool) (c : BitVec 4) (d : Nat) (epc : Word) (bad : Option Word) :
    (s.takeTrap i c d epc bad).stvec = s.stvec := rfl
@[simp] theorem State.takeTrap_stime (s : State) (i : Bool) (c : BitVec 4) (d : Nat) (epc : Word) (bad : Option Word) :
    (s.takeTrap i c d epc bad).stime = s.stime := rfl
@[simp] theorem State.takeTrap_stimecmp (s : State) (i : Bool) (c : BitVec 4) (d : Nat) (epc : Word) (bad : Option Word) :
    (s.takeTrap i c d epc bad).stimecmp = s.stimecmp := rfl
@[simp] theorem State.takeTrap_sscratch (s : State) (i : Bool) (c : BitVec 4) (d : Nat) (epc : Word) (bad : Option Word) :
    (s.takeTrap i c d epc bad).sscratch = s.sscratch := rfl
@[simp] theorem State.takeTrap_sptbr (s : State) (i : Bool) (c : BitVec 4) (d : Nat) (epc : Word) (bad : Option Word) :
    (s.takeTrap i c d epc bad).sptbr = s.sptbr := rfl
@[simp] theorem State.takeTrap_sasid (s : State) (i : Bool) (c : BitVec 4) (d : Nat) (epc : Word) (bad : Option Word) :
    (s.takeTrap i c d epc bad).sasid = s.sasid := rfl
@[simp] theorem State.takeTrap_stalled (s : State) (i : Bool) (c : BitVec 4) (d : Nat) (epc : Word) (bad : Option Word) :
    (s.takeTrap i c d epc bad).stalled = false := rfl
@[simp] theorem State.takeTrap_tc (s : State) (i : Bool) (c : BitVec 4) (d : Nat) (epc : Word) (bad : Option Word) :
    (s.takeTrap i c d epc bad).tc = s.tc := rfl
@[simp] theorem State.takeTrap_mem (s : State) (i : Bool) (c : BitVec 4) (d : Nat) (epc : Word) (bad : Option Word) :
    (s.takeTrap i c d epc bad).mem = s.mem := rfl
@[simp] theorem State.takeTrap_env (s : State) (i : Bool) (c : BitVec 4) (d : Nat) (epc : Word) (bad : Option Word) :
    (s.takeTrap i c d epc bad).env = s.env := rfl

/-! ## `returnTo` -/

@[simp] theorem State.returnTo_cfg (s : State) (v : Word) : (s.returnTo v).cfg = s.cfg := rfl
@[simp] theorem State.returnTo_x (s : State) (v : Word) : (s.returnTo v).x = s.x := rfl
@[simp] theorem State.returnTo_pc (s : State) (v : Word) : (s.returnTo v).pc = s.cfg.norm v := rfl
@[simp] theorem State.returnTo_f (s : State) (v : Word) : (s.returnTo v).f = s.f := rfl
@[simp] theorem State.returnTo_fflags (s : State) (v : Word) : (s.returnTo v).fflags = s.fflags := rfl
@[simp] theorem State.returnTo_frm (s : State) (v : Word) : (s.returnTo v).frm = s.frm := rfl
@[simp] theorem State.returnTo_cycle (s : State) (v : Word) : (s.returnTo v).cycle = s.cycle := rfl
@[simp] theorem State.returnTo_time (s : State) (v : Word) : (s.returnTo v).time = s.time := rfl
@[simp] theorem State.returnTo_instret (s : State) (v : Word) : (s.returnTo v).instret = s.instret + 1 := rfl
@[simp] theorem State.returnTo_mstatus (s : State) (v : Word) : (s.returnTo v).mstatus = s.mstatus.pop s.cfg := rfl
@[simp] theorem State.returnTo_mtvec (s : State) (v : Word) : (s.returnTo v).mtvec = s.mtvec := rfl
@[simp] theorem State.returnTo_mtdeleg (s : State) (v : Word) : (s.returnTo v).mtdeleg = s.mtdeleg := rfl
@[simp] theorem State.returnTo_mip (s : State) (v : Word) : (s.returnTo v).mip = s.mip := rfl
@[simp] theorem State.returnTo_mie (s : State) (v : Word) : (s.returnTo v).mie = s.mie := rfl
@[simp] theorem State.returnTo_mtime (s : State) (v : Word) : (s.returnTo v).mtime = s.mtime := rfl
@[simp] theorem State.returnTo_mtimecmp (s : State) (v : Word) : (s.returnTo v).mtimecmp = s.mtimecmp := rfl
@[simp] theorem State.returnTo_mscratch (s : State) (v : Word) : (s.returnTo v).mscratch = s.mscratch := rfl
@[simp] theorem State.returnTo_mepc (s : State) (v : Word) : (s.returnTo v).mepc = s.mepc := rfl
@[simp] theorem State.returnTo_mcause (s : State) (v : Word) : (s.returnTo v).mcause = s.mcause := rfl
@[simp] theorem State.returnTo_mbadaddr (s : State) (v : Word) : (s.returnTo v).mbadaddr = s.mbadaddr := rfl
@[simp] theorem State.returnTo_mbase (s : State) (v : Word) : (s.returnTo v).mbase = s.mbase := rfl
@[simp] theorem State.returnTo_mbound (s : State) (v : Word) : (s.returnTo v).mbound = s.mbound := rfl
@[simp] theorem State.returnTo_mibase (s : State) (v : Word) : (s.returnTo v).mibase = s.mibase := rfl
@[simp] theorem State.returnTo_mibound (s : State) (v : Word) : (s.returnTo v).mibound = s.mibound := rfl
@[simp] theorem State.returnTo_mdbase (s : State) (v : Word) : (s.returnTo v).mdbase = s.mdbase := rfl
@[simp] theorem State.returnTo_mdbound (s : State) (v : Word) : (s.returnTo v).mdbound = s.mdbound := rfl
@[simp] theorem State.returnTo_mtohost (s : State) (v : Word) : (s.returnTo v).mtohost = s.mtohost := rfl
@[simp] theorem State.returnTo_mfromhost (s : State) (v : Word) : (s.returnTo v).mfromhost = s.mfromhost := rfl
@[simp] theorem State.returnTo_stvec (s : State) (v : Word) : (s.returnTo v).stvec = s.stvec := rfl
@[simp] theorem State.returnTo_stime (s : State) (v : Word) : (s.returnTo v).stime = s.stime := rfl
@[simp] theorem State.returnTo_stimecmp (s : State) (v : Word) : (s.returnTo v).stimecmp = s.stimecmp := rfl
@[simp] theorem State.returnTo_sscratch (s : State) (v : Word) : (s.returnTo v).sscratch = s.sscratch := rfl
@[simp] theorem State.returnTo_sepc (s : State) (v : Word) : (s.returnTo v).sepc = s.sepc := rfl
@[simp] theorem State.returnTo_scause (s : State) (v : Word) : (s.returnTo v).scause = s.scause := rfl
@[simp] theorem State.returnTo_sbadaddr (s : State) (v : Word) : (s.returnTo v).sbadaddr = s.sbadaddr := rfl
@[simp] theorem State.returnTo_sptbr (s : State) (v : Word) : (s.returnTo v).sptbr = s.sptbr := rfl
@[simp] theorem State.returnTo_sasid (s : State) (v : Word) : (s.returnTo v).sasid = s.sasid := rfl
@[simp] theorem State.returnTo_stalled (s : State) (v : Word) : (s.returnTo v).stalled = s.stalled := rfl
@[simp] theorem State.returnTo_tc (s : State) (v : Word) : (s.returnTo v).tc = s.tc := rfl
@[simp] theorem State.returnTo_mem (s : State) (v : Word) : (s.returnTo v).mem = s.mem := rfl
@[simp] theorem State.returnTo_env (s : State) (v : Word) : (s.returnTo v).env = s.env := rfl
@[simp] theorem State.returnTo_free (s : State) (v : Word) : (s.returnTo v).free = s.free := rfl

end Sys2Proof.Machine
end

