-- ==== Sys2Proof/Laws/Registers.lean ====
section
/-! SUPPORT. Values modulo 2^XLEN, and the registers. -/

namespace Sys2Proof

theorem Config.xlen_cases (c : Config) : (c.rv64 = true ∧ c.xlen = 64) ∨ (c.rv64 = false ∧ c.xlen = 32) := by
  unfold Config.xlen
  cases c.rv64 <;> simp

/-- `norm` is the remainder modulo 2^XLEN. -/
theorem Config.norm_toNat (c : Config) (v : Word) : (c.norm v).toNat = v.toNat % 2 ^ c.xlen := by
  have hv := v.isLt
  unfold Config.norm Config.xlen
  cases c.rv64
  · simp only [Bool.false_eq_true, if_false, BitVec.toNat_setWidth]; omega
  · simp only [if_true]; omega

theorem Config.norm_lt (c : Config) (v : Word) : (c.norm v).toNat < 2 ^ c.xlen := by
  rw [c.norm_toNat]; exact Nat.mod_lt _ (by positivity)

theorem Config.norm_of_lt (c : Config) (v : Word) (h : v.toNat < 2 ^ c.xlen) : c.norm v = v := by
  apply BitVec.eq_of_toNat_eq; rw [c.norm_toNat, Nat.mod_eq_of_lt h]

@[simp] theorem Config.norm_norm (c : Config) (v : Word) : c.norm (c.norm v) = c.norm v :=
  c.norm_of_lt _ (c.norm_lt v)

@[simp] theorem Config.norm_zero (c : Config) : c.norm 0 = 0 := by
  apply BitVec.eq_of_toNat_eq; rw [c.norm_toNat]; simp

/-- A power of two up to 2^32 that divides a value divides it modulo 2^XLEN. -/
theorem Config.norm_mod (c : Config) (v : Word) (n : Nat) (hn : n ≤ 32) :
    (c.norm v).toNat % 2 ^ n = v.toNat % 2 ^ n := by
  rw [c.norm_toNat]
  apply Nat.mod_mod_of_dvd
  apply Nat.pow_dvd_pow
  rcases c.xlen_cases with ⟨-, h⟩ | ⟨-, h⟩ <;> omega

namespace Machine

@[simp] theorem State.readX_zero (s : State) : s.readX 0 = 0 := rfl

/-- What a read gives depends on the registers and the width alone. -/
theorem State.readX_congr (s t : State) (r : Reg) (hx : t.x = s.x) (hc : t.cfg = s.cfg) : t.readX r = s.readX r := by
  unfold State.readX; rw [hx, hc]

theorem State.readX_lt (s : State) (r : Reg) : (s.readX r).toNat < 2 ^ s.cfg.xlen := by
  unfold State.readX
  split
  · simp
  · exact s.cfg.norm_lt _

@[simp] theorem State.norm_readX (s : State) (r : Reg) : s.cfg.norm (s.readX r) = s.readX r :=
  s.cfg.norm_of_lt _ (s.readX_lt r)

/-- The register written reads as the value modulo 2^XLEN, x0 as zero. -/
theorem State.readX_setX_same (s : State) (r : Reg) (v : Word) :
    (s.setX r v).readX r = if r = 0 then 0 else s.cfg.norm v := by
  unfold State.readX
  split
  · rfl
  · rename_i h
    simp only [State.setX, if_neg h, Vector.getElem_set_self, Config.norm_norm]

theorem State.readX_setX_other (s : State) (r r' : Reg) (v : Word) (h : r' ≠ r) : (s.setX r v).readX r' = s.readX r' := by
  unfold State.readX
  split
  · rfl
  · simp only [State.setX]
    split
    · rfl
    · have : r.toNat ≠ r'.toNat := fun e => h (BitVec.eq_of_toNat_eq e.symm)
      rw [Vector.getElem_set_ne _ _ this]

/-- A write to x0 changes nothing. -/
@[simp] theorem State.setX_zero (s : State) (v : Word) : s.setX 0 v = s := rfl

end Machine

end Sys2Proof
end

