-- ==== Sys2Proof/Laws/Access.lean ====
section
/-! SUPPORT. What a translation and the memory primitives can do to the state. -/

namespace Sys2Proof.Machine

/-- `t` is `s` with, at most, memory and the translation cache changed, memory kept canonical: what a translation
leaves. -/
structure Touched (s t : State) : Prop where
  frame : t = { s with mem := t.mem, tc := t.tc }
  wf : s.mem.wf = true → t.mem.wf = true

theorem Touched.refl (s : State) : Touched s s := ⟨rfl, id⟩

theorem Touched.readX {s t : State} (h : Touched s t) (r : Reg) : t.readX r = s.readX r :=
  State.readX_congr _ _ _ (by rw [h.frame]) (by rw [h.frame])

theorem touched_fillTc (s : State) (va : Word) (acc : Access) (leaf : Leaf) (pte : Word) :
    Touched s (s.fillTc va acc leaf pte) := by
  simp only [State.fillTc]
  split <;> exact ⟨rfl, id⟩

theorem touched_setMem_fillTc (s : State) (a n : Nat) (v va : Word) (acc : Access) (leaf : Leaf) (pte : Word) :
    Touched s ((s.setMem (s.mem.writeWord a n v)).fillTc va acc leaf pte) := by
  simp only [State.fillTc]
  split <;> exact ⟨rfl, Memory.wf_writeWord _ _ _ _⟩

theorem touched_walk (s : State) (va : Word) (acc : Access) (p : Priv) : Touched s (s.walk va acc p).after := by
  unfold State.walk
  split
  · exact Touched.refl s
  · split
    · exact Touched.refl s
    · split
      · exact Touched.refl s
      · simp only
        split
        · exact touched_fillTc s va acc _ _
        · split
          · exact Touched.refl s
          · exact touched_setMem_fillTc s _ _ _ va acc _ _

theorem touched_walkCached (s : State) (va : Word) (acc : Access) (p : Priv) :
    Touched s (s.walkCached va acc p).after := by
  unfold State.walkCached
  split
  · exact Touched.refl s
  · exact touched_walk s va acc p

theorem touched_locate (s : State) (pa : Option Nat) : Touched s (s.locate pa).after := by
  cases pa <;> exact Touched.refl s

theorem touched_map (s : State) (va : Word) (acc : Access) (n : Nat) : Touched s (s.map va acc n).after := by
  unfold State.map
  simp only
  split
  · exact Touched.refl s
  all_goals
    split
    · exact Touched.refl s
    · first
      | exact touched_locate s _
      | exact touched_walkCached s va acc _

/-- Translating an access changes memory and the translation cache at most. -/
theorem touched_translate (s : State) (va : Word) (acc : Access) (n : Nat) :
    Touched s (s.translate va acc n).after := by
  have h := touched_map s va acc n
  unfold State.translate
  revert h
  cases s.map va acc n with
  | fail t => exact id
  | found t pa => intro h; simp only; split <;> exact h

/-- The entry that a walk for `va` may add for a leaf whose PTE is now `pte`. -/
def State.leafEntry (s : State) (va : Word) (leaf : Leaf) (pte : Word) : TcEntry :=
  { asid := s.sasid, isGlobal := leaf.isGlobal
    vaBase := BitVec.ofNat 64 (va.toNat / pageBytes s.cfg leaf.level * pageBytes s.cfg leaf.level)
    level := leaf.level, pte := pte, pteAddr := leaf.addr }

/-- All a fill can do: it adds the leaf's entry, where the cache fills and does not have it yet, or nothing. -/
theorem fillTc_cases (s : State) (va : Word) (acc : Access) (leaf : Leaf) (pte : Word) :
    ((s.tcChoice acc).fill = true ∧ s.leafEntry va leaf pte ∉ s.tc ∧
      s.fillTc va acc leaf pte = s.setTc (s.leafEntry va leaf pte :: s.tc)) ∨
    (((s.tcChoice acc).fill = false ∨ s.leafEntry va leaf pte ∈ s.tc) ∧ s.fillTc va acc leaf pte = s) := by
  simp only [State.fillTc]
  split
  · rename_i h
    simp only [Bool.and_eq_true, Bool.not_eq_true', List.contains_eq_mem, decide_eq_false_iff_not] at h
    exact .inl ⟨h.1, h.2, rfl⟩
  · rename_i h
    simp only [Bool.and_eq_true, Bool.not_eq_true', List.contains_eq_mem, decide_eq_false_iff_not, not_and,
      not_not] at h
    refine .inr ⟨?_, rfl⟩
    cases hf : (s.tcChoice acc).fill
    · exact .inl rfl
    · exact .inr (h hf)

/-- All a walk can answer: a failure that changes nothing, or the leaf's address, the leaf's PTE marked. -/
theorem walk_cases (s : State) (va : Word) (acc : Access) (p : Priv) :
    s.walk va acc p = .fail s ∨
    ∃ leaf m, findLeaf s.cfg s.mem va.toNat (s.mstatus.vm.levels - 1) s.sptbr.toNat false = some leaf ∧
      (m = s.mem ∨ m = s.mem.writeWord leaf.addr (pteSize s.cfg) (markedPte leaf.pte acc)) ∧
      s.walk va acc p = .found ((s.setMem m).fillTc va acc leaf (markedPte leaf.pte acc))
        (leafAddress s.cfg leaf.pte leaf.level va.toNat) := by
  unfold State.walk
  split
  · exact .inl rfl
  · split
    · exact .inl rfl
    · rename_i leaf hl
      split
      · exact .inl rfl
      · simp only
        split
        · exact .inr ⟨leaf, _, hl, .inl rfl, rfl⟩
        · split
          · exact .inl rfl
          · exact .inr ⟨leaf, _, hl, .inr rfl, rfl⟩

/-- The state a translation leaves: unchanged, or that of the walk. -/
theorem translate_after (s : State) (va : Word) (acc : Access) (n : Nat) :
    (s.translate va acc n).after = s ∨
    (s.effPriv acc ≠ .machine ∧ s.mstatus.vm.levels ≠ 0 ∧ s.cached va acc (s.effPriv acc) = none ∧
      (s.translate va acc n).after = (s.walk va acc (s.effPriv acc)).after) := by
  have hmap : (s.translate va acc n).after = (s.map va acc n).after := by
    unfold State.translate
    cases s.map va acc n with
    | found t pa => simp only; split <;> rfl
    | fail t => rfl
  rw [hmap]
  unfold State.map
  simp only
  split
  · exact .inl rfl
  · split
    · exact .inl rfl
    · left; cases s.mbbAddress va acc n <;> rfl
  · split
    · exact .inl rfl
    · left; cases s.mbbidAddress va acc n <;> rfl
  all_goals
    rename_i hv
    split
    · exact .inl rfl
    · rename_i hm
      unfold State.walkCached
      split
      · exact .inl rfl
      · rename_i hc
        exact .inr ⟨hm, by rw [hv]; simp [Scheme.levels], hc, rfl⟩

end Sys2Proof.Machine
end

