-- ==== Sys2Proof/Laws/Effect.lean ====
section
/-! SUPPORT. What each shared operation of the meanings can do, said once; and from these, everything `exec` can
do, so that a property of all instructions needs one case per kind of effect. -/

namespace Sys2Proof.Machine

/-! ## One lemma per shared operation -/

theorem writeResult_next {legal : Bool} {rd : Reg} {sources : List Reg} {v : Word} {s t : State}
    (h : writeResult legal rd sources v s = .next t) :
    (legal = true ∧ s.hasRegs (rd :: sources) = true ∧ t = (s.setX rd v).advance) ∨ t = s.illegal := by
  unfold writeResult at h
  split at h
  · rename_i hc; simp only [Bool.and_eq_true] at hc
    injection h with h; exact .inl ⟨hc.1, hc.2, h.symm⟩
  · injection h with h; exact .inr h.symm

theorem jumpAndLink_next {rd : Reg} {sources : List Reg} {target : Word} {s t : State}
    (h : jumpAndLink rd sources target s = .next t) :
    t = s.illegal ∨ (target &&& 3 ≠ 0 ∧ t = s.raise .instrMisaligned (some (s.cfg.norm target))) ∨
    (target &&& 3 = 0 ∧ t = (s.setX rd (s.pc + 4)).complete target) := by
  unfold jumpAndLink at h
  split at h
  · injection h with h; exact .inl h.symm
  · split at h
    · injection h with h; exact .inr (.inl ⟨‹_›, h.symm⟩)
    · injection h with h; exact .inr (.inr ⟨not_not.1 ‹_›, h.symm⟩)

theorem branch_next {taken : Bool} {rs1 rs2 : Reg} {offset : BitVec 13} {s t : State}
    (h : branch taken rs1 rs2 offset s = .next t) :
    t = s.illegal ∨ t = s.advance ∨
    (s.pc + immB offset &&& 3 ≠ 0 ∧ t = s.raise .instrMisaligned (some (s.cfg.norm (s.pc + immB offset)))) ∨
    (s.pc + immB offset &&& 3 = 0 ∧ t = s.complete (s.pc + immB offset)) := by
  unfold branch at h
  simp only at h
  split at h
  · injection h with h; exact .inl h.symm
  · split at h
    · injection h with h; exact .inr (.inl h.symm)
    · split at h
      · injection h with h; exact .inr (.inr (.inl ⟨‹_›, h.symm⟩))
      · injection h with h; exact .inr (.inr (.inr ⟨not_not.1 ‹_›, h.symm⟩))

/-- `MemRead` answers the bytes at the translated address, or raises one of two exceptions. -/
theorem memRead_cases (s : State) (va : Word) (n : Nat) :
    (s.misaligned va n = true ∧ s.memRead va n = .raises s .loadMisaligned) ∨
    (s.misaligned va n = false ∧ ∃ t, s.translate va .load n = .fail t ∧ s.memRead va n = .raises t .loadAccess) ∨
    (s.misaligned va n = false ∧
      ∃ t pa, s.translate va .load n = .found t pa ∧ s.memRead va n = .ok t (t.mem.readWord pa n)) := by
  unfold State.memRead
  cases s.misaligned va n with
  | true => simp
  | false =>
    cases h : s.translate va .load n with
    | found t pa => exact .inr (.inr ⟨rfl, t, pa, rfl, by simp⟩)
    | fail t => exact .inr (.inl ⟨rfl, t, rfl, by simp [accessFault]⟩)

/-- `MemWrite` stores the bytes at the translated address, or raises one of two exceptions. -/
theorem memWrite_cases (s : State) (va : Word) (n : Nat) (v : Word) :
    (s.misaligned va n = true ∧ s.memWrite va n v = .raises s .storeMisaligned) ∨
    (s.misaligned va n = false ∧
      ∃ t, s.translate va .store n = .fail t ∧ s.memWrite va n v = .raises t .storeAccess) ∨
    (s.misaligned va n = false ∧ ∃ t pa, s.translate va .store n = .found t pa ∧
      s.memWrite va n v = .ok (t.setMem (t.mem.writeWord pa n v)) ()) := by
  unfold State.memWrite
  cases s.misaligned va n with
  | true => simp
  | false =>
    cases h : s.translate va .store n with
    | found t pa => exact .inr (.inr ⟨rfl, t, pa, rfl, by simp⟩)
    | fail t => exact .inr (.inl ⟨rfl, t, rfl, by simp [accessFault]⟩)

theorem touched_found {s t : State} {va : Word} {acc : Access} {n pa : Nat} (h : s.translate va acc n = .found t pa) :
    Touched s t := by
  have := touched_translate s va acc n; rwa [h] at this

theorem touched_fail {s t : State} {va : Word} {acc : Access} {n : Nat} (h : s.translate va acc n = .fail t) :
    Touched s t := by
  have := touched_translate s va acc n; rwa [h] at this

theorem loadOp_next {legal : Bool} {n : Nat} {extend : Word → Word} {rd rs1 : Reg} {imm : BitVec 12} {s t : State}
    (h : loadOp legal n extend rd rs1 imm s = .next t) :
    t = s.illegal ∨ (∃ u e, Touched s u ∧ t = u.raise e (some (s.address rs1 (immI imm)))) ∨
    (∃ u v, Touched s u ∧ t = (u.setX rd v).advance) := by
  unfold loadOp at h
  simp only at h
  split at h
  · rcases memRead_cases s (s.address rs1 (immI imm)) n with ⟨-, e⟩ | ⟨-, u, hu, e⟩ | ⟨-, u, pa, hu, e⟩ <;>
      rw [e] at h <;> injection h with h
    · exact .inr (.inl ⟨s, _, Touched.refl s, h.symm⟩)
    · exact .inr (.inl ⟨u, _, touched_fail hu, h.symm⟩)
    · exact .inr (.inr ⟨u, _, touched_found hu, h.symm⟩)
  · injection h with h; exact .inl h.symm

theorem storeOp_next {legal : Bool} {n : Nat} {rs1 rs2 : Reg} {imm : BitVec 12} {s t : State}
    (h : storeOp legal n rs1 rs2 imm s = .next t) :
    t = s.illegal ∨ (∃ u e, Touched s u ∧ t = u.raise e (some (s.address rs1 (immS imm)))) ∨
    (∃ u, Touched s u ∧ t = u.advance) := by
  unfold storeOp at h
  simp only at h
  split at h
  · rcases memWrite_cases s (s.address rs1 (immS imm)) n (s.readX rs2) with
      ⟨-, e⟩ | ⟨-, u, hu, e⟩ | ⟨-, u, pa, hu, e⟩ <;> rw [e] at h <;> injection h with h
    · exact .inr (.inl ⟨s, _, Touched.refl s, h.symm⟩)
    · exact .inr (.inl ⟨u, _, touched_fail hu, h.symm⟩)
    · refine .inr (.inr ⟨u.setMem (u.mem.writeWord pa n (s.readX rs2)), ?_, h.symm⟩)
      have hu := touched_found hu
      exact ⟨by conv_lhs => rw [hu.frame]
                rfl, fun w => Memory.wf_writeWord _ _ _ _ (hu.wf w)⟩
  · injection h with h; exact .inl h.symm

/-- A CSR instruction: illegal, a completed read, or a completed write of an accepted value. -/
theorem csrInstr_next {a : CsrAddr} {rd : Reg} {sources : List Reg} {operand : Word} {op : Word → Word → Word}
    {isWrite : Bool} {s t : State} (h : csrInstr a rd sources operand op isWrite s = .next t) :
    t = s.illegal ∨
    (∃ r, isWrite = false ∧ s.csrCheck a isWrite = some r ∧ t = (s.setX rd (s.csrRead r)).advance) ∨
    (∃ r u, isWrite = true ∧ s.csrCheck a isWrite = some r ∧ s.csrWrite r (op (s.csrRead r) operand) = some u ∧
      t = csrFinish true r rd (s.csrRead r) u) := by
  unfold csrInstr at h
  split at h
  · injection h with h; exact .inl h.symm
  · split at h
    · injection h with h; exact .inl h.symm
    · rename_i r hr
      simp only at h
      split at h
      · split at h
        · cases h
        · rename_i u hu
          injection h with h
          exact .inr (.inr ⟨r, u, ‹_›, hr, hu, h.symm⟩)
      · rename_i hw
        injection h with h
        exact .inr (.inl ⟨r, by simpa using hw, hr, by rw [← h]; rfl⟩)

/-! ## Everything `exec` can do -/

/-- The ways an instruction `i` can take `s` to a next state. -/
inductive Effect (i : Instr) (s : State) : State → Prop where
  | trap (u : State) (e : Exc) (bad : Option Word) (hu : Touched s u) (hbad : ∀ a, bad = some a → s.cfg.norm a = a) :
      Effect i s (u.raise e bad)
  | write (u : State) (rd : Reg) (v : Word) (hu : Touched s u) : Effect i s (u.setX rd v).advance
  | jump (rd : Reg) (v npc : Word) (aligned : npc &&& 3 = 0) : Effect i s ((s.setX rd v).complete npc)
  | csr (a : CsrAddr) (r : Csr) (rd : Reg) (v : Word) (u : State) (hi : AccessesCsr i a)
      (hcheck : s.csrCheck a true = some r) (hv : s.cfg.norm v = v) (hu : s.csrWrite r v = some u) :
      Effect i s (csrFinish true r rd (s.csrRead r) u)
  | eret (target : Word) (hi : i = .eret)
      (h : (s.prv = .supervisor ∧ target = s.sepc) ∨ (s.prv = .machine ∧ target = s.mepc)) :
      Effect i s (s.returnTo target)
  | mrts (t : State) (hi : i = .mrts) (hp : s.prv = .machine) (hs : s.cfg.hasS = true) (h : execMrts s = .next t) :
      Effect i s t
  | wfi (b : Bool) (hi : i = .wfi) (hp : s.prv ≠ .user) : Effect i s { s.advance with stalled := b }

theorem Effect.illegal {i : Instr} {s : State} : Effect i s s.illegal :=
  .trap s .illegal none (Touched.refl s) (by simp)

theorem Effect.advance {i : Instr} {s : State} : Effect i s s.advance := by
  have := Effect.write (i := i) (s := s) s 0 0 (Touched.refl s)
  rwa [State.setX_zero] at this

theorem effect_writeResult {i : Instr} {legal : Bool} {rd : Reg} {sources : List Reg} {v : Word} {s t : State}
    (h : writeResult legal rd sources v s = .next t) : Effect i s t := by
  rcases writeResult_next h with ⟨-, -, rfl⟩ | rfl
  · exact .write s rd v (Touched.refl s)
  · exact .illegal

theorem effect_jumpAndLink {i : Instr} {rd : Reg} {sources : List Reg} {target : Word} {s t : State}
    (h : jumpAndLink rd sources target s = .next t) : Effect i s t := by
  rcases jumpAndLink_next h with rfl | ⟨-, rfl⟩ | ⟨ha, rfl⟩
  · exact .illegal
  · exact .trap s _ _ (Touched.refl s) (by simp)
  · exact .jump rd _ _ ha

theorem effect_branch {i : Instr} {taken : Bool} {rs1 rs2 : Reg} {offset : BitVec 13} {s t : State}
    (h : branch taken rs1 rs2 offset s = .next t) : Effect i s t := by
  rcases branch_next h with rfl | rfl | ⟨-, rfl⟩ | ⟨ha, rfl⟩
  · exact .illegal
  · exact .advance
  · exact .trap s _ _ (Touched.refl s) (by simp)
  · have := Effect.jump (i := i) (s := s) 0 0 _ ha
    rwa [State.setX_zero] at this

theorem State.norm_address (s : State) (rs1 : Reg) (imm : Word) : s.cfg.norm (s.address rs1 imm) = s.address rs1 imm :=
  s.cfg.norm_norm _

theorem effect_loadOp {i : Instr} {legal : Bool} {n : Nat} {extend : Word → Word} {rd rs1 : Reg} {imm : BitVec 12}
    {s t : State} (h : loadOp legal n extend rd rs1 imm s = .next t) : Effect i s t := by
  rcases loadOp_next h with rfl | ⟨u, e, hu, rfl⟩ | ⟨u, v, hu, rfl⟩
  · exact .illegal
  · exact .trap u e _ hu (by rintro a ⟨⟩; exact s.norm_address _ _)
  · exact .write u rd v hu

theorem effect_storeOp {i : Instr} {legal : Bool} {n : Nat} {rs1 rs2 : Reg} {imm : BitVec 12} {s t : State}
    (h : storeOp legal n rs1 rs2 imm s = .next t) : Effect i s t := by
  rcases storeOp_next h with rfl | ⟨u, e, hu, rfl⟩ | ⟨u, hu, rfl⟩
  · exact .illegal
  · exact .trap u e _ hu (by rintro a ⟨⟩; exact s.norm_address _ _)
  · have := Effect.write (i := i) u 0 0 hu
    rwa [State.setX_zero] at this

theorem State.csrRead_norm (s : State) (r : Csr) : s.cfg.norm (s.csrRead r) = s.csrRead r := s.cfg.norm_norm _

theorem norm_or (c : Config) (a b : Word) (ha : c.norm a = a) (hb : c.norm b = b) : c.norm (a ||| b) = a ||| b := by
  rw [← ha, ← hb]
  unfold Config.norm
  cases c.rv64
  · simp only [Bool.false_eq_true, if_false]
    apply BitVec.eq_of_getLsbD_eq
    intro j hj
    simp
  · simp

theorem norm_andNot (c : Config) (a b : Word) (ha : c.norm a = a) : c.norm (a &&& ~~~b) = a &&& ~~~b := by
  rw [← ha]
  unfold Config.norm
  cases c.rv64
  · simp only [Bool.false_eq_true, if_false]
    apply BitVec.eq_of_getLsbD_eq
    intro j hj
    simp only [BitVec.getLsbD_setWidth, BitVec.getLsbD_and, BitVec.getLsbD_not]
    by_cases h32 : j < 32 <;> simp [h32, hj]
  · simp

theorem norm_zimm (c : Config) (z : BitVec 5) : c.norm (zimmValue z) = zimmValue z := by
  apply c.norm_of_lt
  have hz := z.isLt
  rcases c.xlen_cases with ⟨-, h⟩ | ⟨-, h⟩ <;> rw [h] <;> simp [zimmValue] <;> omega

theorem effect_csrInstr {i : Instr} {a : CsrAddr} {rd : Reg} {sources : List Reg} {operand : Word}
    {op : Word → Word → Word} {isWrite : Bool} {s t : State} (hi : AccessesCsr i a)
    (hop : ∀ old, s.cfg.norm old = old → s.cfg.norm (op old operand) = op old operand)
    (h : csrInstr a rd sources operand op isWrite s = .next t) : Effect i s t := by
  rcases csrInstr_next h with rfl | ⟨r, -, -, rfl⟩ | ⟨r, u, rfl, hr, hu, rfl⟩
  · exact .illegal
  · exact .write s rd _ (Touched.refl s)
  · exact .csr a r rd _ u hi hr (hop _ (s.csrRead_norm r)) hu

theorem effect_mrts {s t : State} (h : execMrts s = .next t) : Effect .mrts s t := by
  by_cases hc : (decide (s.prv = .machine) && s.cfg.hasS) = true
  · have hc' := hc
    simp only [Bool.and_eq_true, decide_eq_true_eq] at hc'
    exact .mrts t rfl hc'.1 hc'.2 h
  · unfold execMrts at h
    rw [if_neg hc] at h
    injection h with h
    exact h ▸ .illegal

theorem effect_wfi {s t : State} (h : execWfi s = .next t) : Effect .wfi s t := by
  unfold execWfi at h
  split at h <;> injection h with h
  · exact h ▸ .illegal
  · exact h ▸ .wfi _ rfl (by simp [*])
  · exact h ▸ .wfi _ rfl (by simp [*])

theorem effect_eret {s t : State} (h : execEret s = .next t) : Effect .eret s t := by
  unfold execEret at h
  split at h <;> injection h with h
  · exact h ▸ .illegal
  · exact h ▸ .eret _ rfl (.inl ⟨‹_›, rfl⟩)
  · exact h ▸ .eret _ rfl (.inr ⟨‹_›, rfl⟩)

theorem effect_sfenceVm {i : Instr} {rs1 : Reg} {s t : State} (h : execSfenceVm rs1 s = .next t) : Effect i s t := by
  unfold execSfenceVm at h
  split at h <;> injection h with h
  · exact h ▸ .illegal
  · have := Effect.write (i := i) (s := s) (s.setTc (s.tc.filter fun e => !s.fences rs1 e)) 0 0 ⟨rfl, id⟩
    rw [State.setX_zero] at this
    exact h ▸ this

/-- Every next state `exec` answers is one of the effects. -/
theorem exec_effect {i : Instr} {s t : State} (h : exec i s = .next t) : Effect i s t := by
  cases i
  case csrrw rd csr rs1 => exact effect_csrInstr (.inl ⟨rd, rs1, rfl⟩) (fun _ _ => s.norm_readX rs1) h
  case csrrs rd csr rs1 =>
    exact effect_csrInstr (.inr (.inl ⟨rd, rs1, rfl⟩)) (fun old ho => norm_or _ _ _ ho (s.norm_readX rs1)) h
  case csrrc rd csr rs1 =>
    exact effect_csrInstr (.inr (.inr (.inl ⟨rd, rs1, rfl⟩))) (fun old ho => norm_andNot _ _ _ ho) h
  case csrrwi rd csr z =>
    exact effect_csrInstr (.inr (.inr (.inr (.inl ⟨rd, z, rfl⟩)))) (fun _ _ => norm_zimm _ z) h
  case csrrsi rd csr z =>
    exact effect_csrInstr (.inr (.inr (.inr (.inr (.inl ⟨rd, z, rfl⟩)))))
      (fun old ho => norm_or _ _ _ ho (norm_zimm _ z)) h
  case csrrci rd csr z =>
    exact effect_csrInstr (.inr (.inr (.inr (.inr (.inr ⟨rd, z, rfl⟩))))) (fun old ho => norm_andNot _ _ _ ho) h
  case ecall => injection h with h; exact h ▸ .trap s _ none (Touched.refl s) (by simp)
  case ebreak => injection h with h; exact h ▸ .trap s _ none (Touched.refl s) (by simp)
  case eret => exact effect_eret h
  case sfenceVm => exact effect_sfenceVm h
  case wfi => exact effect_wfi h
  case hrts => injection h with h; exact h ▸ .illegal
  case mrts => exact effect_mrts h
  case mrth => injection h with h; exact h ▸ .illegal
  case fence => injection h with h; exact h ▸ .advance
  case fenceI => injection h with h; exact h ▸ .advance
  all_goals
    first
    | exact effect_writeResult h
    | exact effect_jumpAndLink h
    | exact effect_branch h
    | exact effect_loadOp h
    | exact effect_storeOp h

end Sys2Proof.Machine
end

