-- ==== Sys2Proof/Laws/Invariant.lean ====
section
/-! SUPPORT. What one step of the machine can do, and the one induction over it: a property kept by each kind of
update is kept by every step. -/

namespace Sys2Proof.Machine

theorem woken_popEnv (s : State) : s.woken.popEnv = s.popEnv.woken := rfl

/-- After the environment, a step stalls, takes an interrupt, raises at the fetch or at the decoder, or executes. -/
theorem hart_next {s t : State} (h : s.hart = .next t) :
    (s.staysStalled = true ∧ t = s) ∨
    (∃ i, s.woken.chooseIrq s.now.irq = some i ∧ t = s.woken.takeInterrupt i) ∨
    (∃ u e, Touched s.woken u ∧ t = u.raise e (some s.pc)) ∨
    (∃ u, Touched s.woken u ∧ t = u.illegal) ∨
    (∃ u w i, Touched s.woken u ∧ s.woken.fetch = .ok u w ∧ decode w = .ok i ∧ exec i u = .next t) := by
  unfold State.hart at h
  split at h
  · injection h with h; exact .inl ⟨‹_›, h.symm⟩
  · split at h
    · rename_i i hi
      injection h with h; exact .inr (.inl ⟨i, hi, h.symm⟩)
    · unfold State.runNext at h
      split at h
      · rename_i u e hf
        injection h with h
        refine .inr (.inr (.inl ⟨u, e, ?_, h.symm⟩))
        unfold State.fetch at hf
        split at hf
        · injection hf with hf; exact hf ▸ Touched.refl _
        · split at hf
          · rename_i v hv
            injection hf with hf; exact hf ▸ touched_fail hv
          · cases hf
      · rename_i u w hf
        have hu : Touched s.woken u := by
          unfold State.fetch at hf
          split at hf
          · cases hf
          · split at hf
            · cases hf
            · rename_i v pa hv
              injection hf with hf; exact hf ▸ touched_found hv
        split at h
        · rename_i i hd
          exact .inr (.inr (.inr (.inr ⟨u, w, i, hu, hf, hd, h⟩)))
        · injection h with h; exact .inr (.inr (.inr (.inl ⟨u, hu, h.symm⟩)))

/-- A next state of the step is a next state of the hart after the environment, with the environment's entry used
up; the configuration is admitted. -/
theorem step_next {s t : State} (h : step s = .next t) :
    s.cfg.admitted = true ∧ ∃ u, s.environment.hart = .next u ∧ t = u.popEnv := by
  unfold step at h
  split at h
  · refine ⟨‹_›, ?_⟩
    unfold State.fullStep at h
    cases hu : s.environment.hart with
    | next u => rw [hu] at h; injection h with h; exact ⟨u, rfl, h.symm⟩
    | fault f => rw [hu] at h; cases h
    | refused r => rw [hu] at h; cases h
  · cases h

/-- A property that every kind of update keeps. -/
structure Kept (P : State → Prop) : Prop where
  environment : ∀ s, s.cfg.admitted = true → P s → P s.environment
  popEnv : ∀ s, P s → P s.popEnv
  stalled : ∀ s b, P s → P { s with stalled := b }
  touched : ∀ s u, Touched s u → P s → P u
  trap : ∀ s i c d bad, (∀ a, bad = some a → s.cfg.norm a = a ∨ a = s.pc) → P s → P (s.takeTrap i c d s.pc bad)
  setX : ∀ s rd v, P s → P (s.setX rd v)
  advance : ∀ s, P s → P s.advance
  setPc : ∀ s, P s → P (s.setPc (s.pc + 4))
  complete : ∀ s npc, npc &&& 3 = 0 → P s → P (s.complete npc)
  csr : ∀ s a r v u, s.csrCheck a true = some r → s.cfg.norm v = v → s.csrWrite r v = some u → P s → P u
  eret : ∀ s target, (target = s.sepc ∨ target = s.mepc) → P s → P (s.returnTo target)
  mrts : ∀ s t, s.prv = .machine → s.cfg.hasS = true → execMrts s = .next t → P s → P t

theorem Kept.effect {P : State → Prop} (k : Kept P) {i : Instr} {s t : State} (h : Effect i s t) (hs : P s) : P t := by
  cases h with
  | trap u e bad hu hbad =>
    have hc : u.cfg = s.cfg := by rw [hu.frame]
    exact k.trap u _ _ _ bad (fun a ha => .inl (by rw [hc]; exact hbad a ha)) (k.touched s u hu hs)
  | write u rd v hu => exact k.advance _ (k.setX _ _ _ (k.touched s u hu hs))
  | jump rd v npc ha => exact k.complete _ _ ha (k.setX _ _ _ hs)
  | csr a r rd v u hi hcheck hv hu =>
    have := k.setX u rd (s.csrRead r) (k.csr s a r v u hcheck hv hu hs)
    unfold csrFinish
    split
    · exact k.setPc _ this
    · exact k.advance _ this
  | eret target hi ht =>
    refine k.eret s target ?_ hs
    rcases ht with ⟨-, h⟩ | ⟨-, h⟩
    · exact .inl h
    · exact .inr h
  | mrts t hi hp hS h => exact k.mrts s t hp hS h hs
  | wfi b hi hp => exact k.stalled _ b (k.advance s hs)

/-- A property that every update keeps is kept by every next state of `exec`. -/
theorem Kept.exec {P : State → Prop} (k : Kept P) {i : Instr} {s t : State} (h : exec i s = .next t) (hs : P s) : P t :=
  k.effect (exec_effect h) hs

/-- A property that every update keeps is kept by every step. -/
theorem Kept.step {P : State → Prop} (k : Kept P) {s t : State} (h : step s = .next t) (hs : P s) : P t := by
  obtain ⟨ha, u, hu, rfl⟩ := step_next h
  apply k.popEnv
  have he : P s.environment := k.environment s ha hs
  have hw : P s.environment.woken := k.stalled _ false he
  rcases hart_next hu with ⟨-, rfl⟩ | ⟨i, -, rfl⟩ | ⟨v, e, hv, rfl⟩ | ⟨v, hv, rfl⟩ | ⟨v, w, i, hv, -, -, hx⟩
  · exact he
  · exact k.trap _ _ _ _ _ (by simp) hw
  · refine k.trap v _ _ _ _ ?_ (k.touched _ v hv hw)
    rintro a ⟨⟩
    right; rw [hv.frame]; rfl
  · exact k.trap v _ _ _ _ (by simp) (k.touched _ v hv hw)
  · exact k.exec hx (k.touched _ v hv hw)

end Sys2Proof.Machine
end

