-- ==== Sys2Proof/Laws/Csr.lean ====
section
/-! SUPPORT. The CSR list, the access checks, and what a CSR write leaves alone. -/

namespace Sys2Proof.Machine

/-- The row found for an address is a row of the list, for that address, of a register that exists. -/
theorem csrAt_some {c : Config} {a : CsrAddr} {row : CsrRow} (h : csrAt c a = some row) :
    row ∈ csrRows c ∧ row.present = true ∧ row.addr = a := by
  unfold csrAt at h
  have hp := List.find?_some h
  simp only [Bool.and_eq_true, beq_iff_eq] at hp
  exact ⟨List.mem_of_find?_eq_some h, hp.2, hp.1⟩

/-- An access that passes the checks. -/
theorem csrCheck_some {s : State} {a : CsrAddr} {w : Bool} {r : Csr} (h : s.csrCheck a w = some r) :
    ∃ row, csrAt s.cfg a = some row ∧ row.reg = r ∧ csrLevel a ≤ s.prv.level ∧ (w = true → row.readOnly = false) ∧
      (isFpCsr a = true → s.mstatus.fs ≠ .off) := by
  unfold State.csrCheck at h
  split at h
  · cases h
  · rename_i row hr
    split at h
    · cases h
    · rename_i hc
      simp only [Bool.or_eq_true, Bool.and_eq_true, decide_eq_true_eq, not_or, not_lt, not_and,
        Bool.not_eq_true] at hc
      injection h with h
      exact ⟨row, hr, h, hc.1.1.1, hc.1.1.2, hc.2⟩

/-- The supervisor's registers exist only where S-mode does. -/
theorem hasS_of_csrCheck {s : State} {a : CsrAddr} {w : Bool} {r : Csr} (h : s.csrCheck a w = some r)
    (hr : r ∈ [Csr.sstatus, .sip, .sie, .stimecmp, .stime, .stimeh]) : s.cfg.hasS = true := by
  obtain ⟨row, ha, rfl, -⟩ := csrCheck_some h
  obtain ⟨hm, hp, -⟩ := csrAt_some ha
  have key : ∀ row ∈ csrRows s.cfg, row.reg ∈ [Csr.sstatus, .sip, .sie, .stimecmp, .stime, .stimeh] →
      row.present = true → s.cfg.hasS = true := by
    simp [csrRows, userCsrs, supervisorCsrs, machineCsrs]
    tauto
  exact key row hm hr hp

/-- The floating-point CSRs exist only with a floating-point unit. -/
theorem hasF_of_csrCheck {s : State} {a : CsrAddr} {w : Bool} {r : Csr} (h : s.csrCheck a w = some r)
    (hr : r ∈ [Csr.fflags, .frm, .fcsr]) : s.cfg.hasF = true := by
  obtain ⟨row, ha, rfl, -⟩ := csrCheck_some h
  obtain ⟨hm, hp, -⟩ := csrAt_some ha
  have key : ∀ row ∈ csrRows s.cfg, row.reg ∈ [Csr.fflags, .frm, .fcsr] → row.present = true →
      s.cfg.hasF = true := by
    simp [csrRows, userCsrs, supervisorCsrs, machineCsrs]
  exact key row hm hr hp

/-- A CSR write changes its own register, and what 40_csr_instructions.md R301 lists. -/
theorem csrWrite_only {s u : State} {r : Csr} {v : Word} (h : s.csrWrite r v = some u) : OnlyCsr r s u := by
  cases r <;> simp only [State.csrWrite] at h <;> (try split at h) <;> (try cases h) <;> rfl

/-- A CSR write leaves memory, the parameters, the pc and the integer registers alone. -/
theorem csrWrite_frame {s u : State} {r : Csr} {v : Word} (h : s.csrWrite r v = some u) :
    u.mem = s.mem ∧ u.cfg = s.cfg ∧ u.pc = s.pc ∧ u.x = s.x ∧ u.env = s.env ∧ u.stalled = s.stalled ∧ u.tc = s.tc := by
  cases r <;> simp only [State.csrWrite] at h <;> (try split at h) <;> (try cases h) <;>
    exact ⟨rfl, rfl, rfl, rfl, rfl, rfl, rfl⟩

/-- What an accepted write of one stack entry leaves. -/
theorem entry_written {old e : StackEntry} {c : Config} {v : BitVec 3} (h : old.written c v = some e) :
    (c.modes = .m ∧ e = ⟨old.prv, v.getLsbD 0⟩) ∨
    (c.modes ≠ .m ∧ Priv.ofCode (v.extractLsb' 1 2) = some e.prv ∧ c.supports e.prv = true ∧ e.ie = v.getLsbD 0) := by
  unfold StackEntry.written at h
  split at h
  · injection h with h; exact .inl ⟨‹_›, h.symm⟩
  · split at h
    · split at h
      · injection h with h; subst h; exact .inr ⟨‹_›, ‹_›, ‹_›, rfl⟩
      · cases h
    · cases h

/-- What an accepted write of VM leaves. -/
theorem scheme_written {c : Config} {v : BitVec 5} {vm : Scheme} (h : schemeWritten c v = some vm) :
    Scheme.ofCode v = some vm ∧ c.supportsScheme vm = true := by
  unfold schemeWritten at h
  split at h
  · split at h
    · injection h with h; subst h; exact ⟨‹_›, ‹_›⟩
    · cases h
  · cases h

/-- What an accepted write of `mstatus` leaves. -/
theorem mstatus_written {m m' : Mstatus} {c : Config} {v : Word} (h : m.written c v = some m') :
    ∃ e0 e1 e2 vm, m.e0.written c (v.extractLsb' 0 3) = some e0 ∧ m.e1.written c (v.extractLsb' 3 3) = some e1 ∧
      (if c.depth = 3 then m.e2.written c (v.extractLsb' 6 3) else some m.e2) = some e2 ∧
      schemeWritten c (v.extractLsb' 17 5) = some vm ∧
      m' = { e0 := e0, e1 := e1, e2 := e2, fs := fsWritten c v, xs := xsWritten c v, mprv := v.getLsbD 16
             vm := vm } := by
  unfold Mstatus.written at h
  split at h
  · rename_i e0 e1 e2 vm h0 h1 h2 h3
    injection h with h
    exact ⟨e0, e1, e2, vm, h0, h1, h2, h3, h.symm⟩
  · cases h

/-- The model's numbers of modes, schemes and statuses are those of the statements. -/
theorem prvNumber_eq (p : Priv) : prvNumber p = p.level := by cases p <;> rfl

theorem prvNumber_code (p : Priv) : prvNumber p = p.code.toNat := by cases p <;> rfl

theorem vmNumber_code (k : Scheme) : vmNumber k = k.code.toNat := by cases k <;> rfl

theorem statusNumber_code (k : CtxStatus) : statusNumber k = k.code.toNat := by cases k <;> rfl

/-- A decoded field is the one thing whose number the field is. -/
theorem ofCode_priv (b : BitVec 2) (p : Priv) : Priv.ofCode b = some p ↔ prvNumber p = b.toNat := by
  cases p <;> revert b <;> decide

theorem ofCode_scheme (b : BitVec 5) (k : Scheme) : Scheme.ofCode b = some k ↔ vmNumber k = b.toNat := by
  cases k <;> revert b <;> decide

theorem statusNumber_ofCode : ∀ b : BitVec 2, statusNumber (CtxStatus.ofCode b) = b.toNat := by decide

theorem admitted_addrs {c : Config} (h : c.admitted = true) :
    (c.scauseAddr = 0x142#12 ∧ c.sbadaddrAddr = 0x143#12) ∨
    (c.scauseAddr = 0xD42#12 ∧ c.sbadaddrAddr = 0xD43#12) := by
  unfold Config.admitted at h
  simp only [Bool.and_eq_true, Bool.or_eq_true, beq_iff_eq] at h
  exact h.2

/-- No two rows of the list share an address. -/
theorem csrRows_addrs {c : Config} (h : c.admitted = true) : (csrRows c).Pairwise fun a b => a.addr ≠ b.addr := by
  rw [← List.pairwise_map (f := CsrRow.addr) (R := fun a b => a ≠ b)]
  unfold csrRows userCsrs supervisorCsrs machineCsrs
  simp only [List.map_append, List.map_cons, List.map_nil]
  rcases admitted_addrs h with ⟨h1, h2⟩ | ⟨h1, h2⟩ <;> rw [h1, h2] <;> decide

theorem find_of_pairwise {α : Type} {p : α → Bool} {l : List α}
    (h : l.Pairwise fun a b => ¬(p a = true ∧ p b = true)) {x : α} (hx : x ∈ l) (hp : p x = true) :
    l.find? p = some x := by
  induction l with
  | nil => cases hx
  | cons y l ih =>
    rw [List.pairwise_cons] at h
    rcases List.mem_cons.1 hx with rfl | hx
    · simp [hp]
    · have hy : p y = false := Bool.eq_false_iff.2 fun hy => h.1 x hx ⟨hy, hp⟩
      rw [List.find?_cons, hy]
      exact ih h.2 hx

/-- Which row is found for an address: the present one there. -/
theorem csrAt_iff {c : Config} (h : c.admitted = true) (a : CsrAddr) (row : CsrRow) :
    csrAt c a = some row ↔ row ∈ csrRows c ∧ row.present = true ∧ row.addr = a := by
  constructor
  · exact csrAt_some
  · rintro ⟨h1, h2, rfl⟩
    unfold csrAt
    apply find_of_pairwise ((csrRows_addrs h).imp _) h1 (by simp [h2])
    intro x y hne hxy
    simp only [Bool.and_eq_true, beq_iff_eq] at hxy
    exact hne (hxy.1.1.trans hxy.2.1.symm)

/-- A row of the list that exists is a register the implementation has. -/
theorem hasCsr_of_row {c : Config} : ∀ row ∈ csrRows c, row.present = true →
    HasCsr c (row.addr.toNat, row.reg, row.readOnly) := by
  unfold csrRows userCsrs supervisorCsrs machineCsrs
  simp only [List.forall_mem_append, List.forall_mem_cons, HasCsr, Config.hasS, Config.hasPaging, Bool.and_eq_true,
    Bool.or_eq_true, or_assoc, Bool.not_eq_true', List.not_mem_nil, false_imp_iff, implies_true, and_true]
  refine ⟨⟨?_, ?_⟩, ?_⟩
  · refine ⟨?_, ?_, ?_, ?_, ?_, ?_, ?_, ?_, ?_⟩ <;> intro h <;>
    first
    | exact .inl (by decide)
    | exact .inr (.inl ⟨h, by decide⟩)
    | exact .inr (.inr (.inr (.inl ⟨h, by decide⟩)))
  · refine ⟨?_, ?_, ?_, ?_, ?_, ?_, ?_, ?_, ?_, ?_, ?_, ?_, ?_, ?_, ?_, ?_, ?_, ?_, ?_, ?_, ?_⟩ <;> intro h <;>
    first
    | exact .inr (.inr (.inl ⟨h, .inl (by simp [supervisorPlaces])⟩))
    | exact .inr (.inr (.inl ⟨h.1, .inr (.inl ⟨h.2, by decide⟩)⟩))
    | exact .inr (.inr (.inl ⟨h.1, .inr (.inr ⟨h.2, by decide⟩)⟩))
  · refine ⟨?_, ?_, ?_, ?_, ?_, ?_, ?_, ?_, ?_, ?_, ?_, ?_, ?_, ?_, ?_, ?_, ?_, ?_, ?_, ?_, ?_, ?_, ?_⟩ <;> intro h <;>
    first
    | exact .inl (by decide)
    | exact .inr (.inl ⟨h, by decide⟩)
    | exact .inr (.inr (.inr (.inr (.inl ⟨h, by decide⟩))))
    | exact .inr (.inr (.inr (.inr (.inr (.inl ⟨h, by decide⟩)))))
    | exact .inr (.inr (.inr (.inr (.inr (.inr ⟨h, by decide⟩)))))

/-- The row of the list for a register, its address and whether it is read-only there. -/
def placeRow (present : Bool) (place : CsrPlace) : CsrRow := ⟨BitVec.ofNat 12 place.1, place.2.1, place.2.2, present⟩

/-- The registers the statements list are rows of the list, each with its condition. -/
theorem placeRow_mem (c : Config) :
    (∀ p ∈ everyCsr, placeRow true p ∈ csrRows c) ∧ (∀ p ∈ highCsrs, placeRow (!c.rv64) p ∈ csrRows c) ∧
    (∀ p ∈ supervisorPlaces c, placeRow c.hasS p ∈ csrRows c) ∧
    (∀ p ∈ supervisorHighCsrs, placeRow (c.hasS && !c.rv64) p ∈ csrRows c) ∧
    (∀ p ∈ pagingCsrs, placeRow (c.hasS && c.hasPaging) p ∈ csrRows c) ∧
    (∀ p ∈ floatCsrs, placeRow c.hasF p ∈ csrRows c) ∧ (∀ p ∈ mbbCsrs, placeRow c.hasMbb p ∈ csrRows c) ∧
    (∀ p ∈ mbbidCsrs, placeRow c.hasMbbid p ∈ csrRows c) ∧
    (∀ p ∈ hostCsrs, placeRow c.hostInterface p ∈ csrRows c) := by
  unfold everyCsr highCsrs supervisorPlaces supervisorHighCsrs pagingCsrs floatCsrs mbbCsrs mbbidCsrs hostCsrs
  simp only [List.forall_mem_cons, List.not_mem_nil, false_imp_iff, implies_true, and_true]
  simp only [placeRow, csrRows, userCsrs, supervisorCsrs, machineCsrs, List.mem_append, List.mem_cons,
    BitVec.ofNat_toNat, BitVec.setWidth_eq, true_or, or_true, and_self]

/-- The registers an implementation has are those found at their addresses. -/
theorem hasCsr_iff {c : Config} (hc : c.admitted = true) (a : CsrAddr) (r : Csr) (readOnly : Bool) :
    HasCsr c (a.toNat, r, readOnly) ↔ ∃ row, csrAt c a = some row ∧ row.reg = r ∧ row.readOnly = readOnly := by
  constructor
  · intro h
    have key : ∀ present, present = true → placeRow present (a.toNat, r, readOnly) ∈ csrRows c →
        ∃ row, csrAt c a = some row ∧ row.reg = r ∧ row.readOnly = readOnly := fun _ hp hm =>
      ⟨_, (csrAt_iff hc a _).2 ⟨hm, hp, by simp [placeRow]⟩, rfl, rfl⟩
    obtain ⟨m1, m2, m3, m4, m5, m6, m7, m8, m9⟩ := placeRow_mem c
    rcases h with h | ⟨h0, h⟩ | ⟨h0, h | ⟨h1, h⟩ | ⟨h1, h⟩⟩ | ⟨h0, h⟩ | ⟨h0, h⟩ | ⟨h0, h⟩ | ⟨h0, h⟩
    · exact key _ rfl (m1 _ h)
    · exact key _ (by rw [h0]; rfl) (m2 _ h)
    · exact key _ h0 (m3 _ h)
    · exact key _ (by rw [h1, Config.hasS, h0]; rfl) (m4 _ h)
    · exact key _ (by simpa [Config.hasS, h0, Config.hasPaging, or_assoc] using h1) (m5 _ h)
    · exact key _ h0 (m6 _ h)
    · exact key _ h0 (m7 _ h)
    · exact key _ h0 (m8 _ h)
    · exact key _ h0 (m9 _ h)
  · rintro ⟨row, h, rfl, rfl⟩
    obtain ⟨hm, hp, rfl⟩ := csrAt_some h
    exact hasCsr_of_row row hm hp

end Sys2Proof.Machine
end

