-- ==== Sys2Proof/Laws/Decode.lean ====
section
/-! SUPPORT. The fields of an encoded word, and the one row of the opcode table that selects a word. -/

namespace Sys2Proof

/-! ## The bits a row looks at, per format -/

theorem encodeR_mask (f7 : BitVec 7) (rs2 rs1 : Reg) (f3 : BitVec 3) (rd : Reg) (op : BitVec 7) :
    encodeR f7 rs2 rs1 f3 rd op &&& 0xFE00707F#32 = encodeR f7 0 0 f3 0 op := by
  apply BitVec.eq_of_getLsbD_eq
  intro i hi
  simp only [encodeR, BitVec.getLsbD_append, BitVec.getLsbD_and]
  interval_cases i <;> simp

theorem encodeI_mask (imm : BitVec 12) (rs1 : Reg) (f3 : BitVec 3) (rd : Reg) (op : BitVec 7) :
    encodeI imm rs1 f3 rd op &&& 0x0000707F#32 = encodeI 0 0 f3 0 op := by
  apply BitVec.eq_of_getLsbD_eq
  intro i hi
  simp only [encodeI, BitVec.getLsbD_append, BitVec.getLsbD_and]
  interval_cases i <;> simp

theorem encodeI_mask_shift (hi6 shamt : BitVec 6) (rs1 : Reg) (f3 : BitVec 3) (rd : Reg) (op : BitVec 7) :
    encodeI (hi6 ++ shamt) rs1 f3 rd op &&& 0xFC00707F#32 = encodeI (hi6 ++ 0#6) 0 f3 0 op := by
  apply BitVec.eq_of_getLsbD_eq
  intro i hi
  simp only [encodeI, BitVec.getLsbD_append, BitVec.getLsbD_and]
  interval_cases i <;> simp

theorem encodeI_mask_fence (imm : BitVec 12) (rs1 : Reg) (f3 : BitVec 3) (rd : Reg) (op : BitVec 7) :
    encodeI imm rs1 f3 rd op &&& 0xFFF07FFF#32 = encodeI imm 0 f3 rd op := by
  apply BitVec.eq_of_getLsbD_eq
  intro i hi
  simp only [encodeI, BitVec.getLsbD_append, BitVec.getLsbD_and]
  interval_cases i <;> simp

theorem encodeS_mask (imm : BitVec 12) (rs2 rs1 : Reg) (f3 : BitVec 3) (op : BitVec 7) :
    encodeS imm rs2 rs1 f3 op &&& 0x0000707F#32 = encodeS 0 0 0 f3 op := by
  apply BitVec.eq_of_getLsbD_eq
  intro i hi
  simp only [encodeS, BitVec.getLsbD_append, BitVec.getLsbD_and]
  interval_cases i <;> simp

theorem encodeB_mask (offset : BitVec 13) (rs2 rs1 : Reg) (f3 : BitVec 3) (op : BitVec 7) :
    encodeB offset rs2 rs1 f3 op &&& 0x0000707F#32 = encodeB 0 0 0 f3 op := by
  apply BitVec.eq_of_getLsbD_eq
  intro i hi
  simp only [encodeB, BitVec.getLsbD_append, BitVec.getLsbD_and]
  interval_cases i <;> simp

theorem encodeU_mask (imm : BitVec 20) (rd : Reg) (op : BitVec 7) :
    encodeU imm rd op &&& 0x0000007F#32 = encodeU 0 0 op := by
  apply BitVec.eq_of_getLsbD_eq
  intro i hi
  simp only [encodeU, BitVec.getLsbD_append, BitVec.getLsbD_and]
  interval_cases i <;> simp

theorem encodeJ_mask (offset : BitVec 21) (rd : Reg) (op : BitVec 7) :
    encodeJ offset rd op &&& 0x0000007F#32 = encodeJ 0 0 op := by
  apply BitVec.eq_of_getLsbD_eq
  intro i hi
  simp only [encodeJ, BitVec.getLsbD_append, BitVec.getLsbD_and]
  interval_cases i <;> simp

/-! ## The fields, per format -/

theorem fields_encodeR (f7 : BitVec 7) (rs2 rs1 : Reg) (f3 : BitVec 3) (rd : Reg) (op : BitVec 7) :
    fieldRd (encodeR f7 rs2 rs1 f3 rd op) = rd ∧ fieldRs1 (encodeR f7 rs2 rs1 f3 rd op) = rs1 ∧
    fieldRs2 (encodeR f7 rs2 rs1 f3 rd op) = rs2 ∧ fieldShamt5 (encodeR f7 rs2 rs1 f3 rd op) = rs2 := by
  refine ⟨?_, ?_, ?_, ?_⟩ <;>
    (apply BitVec.eq_of_getLsbD_eq; intro i hi
     simp only [fieldRd, fieldRs1, fieldRs2, fieldShamt5, encodeR, BitVec.getLsbD_extractLsb', BitVec.getLsbD_append]
     interval_cases i <;> simp)

theorem fields_encodeI (imm : BitVec 12) (rs1 : Reg) (f3 : BitVec 3) (rd : Reg) (op : BitVec 7) :
    fieldRd (encodeI imm rs1 f3 rd op) = rd ∧ fieldRs1 (encodeI imm rs1 f3 rd op) = rs1 ∧
    fieldImmI (encodeI imm rs1 f3 rd op) = imm ∧ fieldCsr (encodeI imm rs1 f3 rd op) = imm := by
  refine ⟨?_, ?_, ?_, ?_⟩ <;>
    (apply BitVec.eq_of_getLsbD_eq; intro i hi
     simp only [fieldRd, fieldRs1, fieldImmI, fieldCsr, encodeI, BitVec.getLsbD_extractLsb', BitVec.getLsbD_append]
     interval_cases i <;> simp)

theorem fields_encodeI_shift (hi6 shamt : BitVec 6) (rs1 : Reg) (f3 : BitVec 3) (rd : Reg) (op : BitVec 7) :
    fieldShamt6 (encodeI (hi6 ++ shamt) rs1 f3 rd op) = shamt := by
  apply BitVec.eq_of_getLsbD_eq
  intro i hi
  simp only [fieldShamt6, encodeI, BitVec.getLsbD_extractLsb', BitVec.getLsbD_append]
  interval_cases i <;> simp

theorem fields_encodeI_fence (fm pred succ : BitVec 4) (rs1 : Reg) (f3 : BitVec 3) (rd : Reg) (op : BitVec 7) :
    fieldFm (encodeI (fm ++ pred ++ succ) rs1 f3 rd op) = fm ∧
    fieldPred (encodeI (fm ++ pred ++ succ) rs1 f3 rd op) = pred ∧
    fieldSucc (encodeI (fm ++ pred ++ succ) rs1 f3 rd op) = succ := by
  refine ⟨?_, ?_, ?_⟩ <;>
    (apply BitVec.eq_of_getLsbD_eq; intro i hi
     simp only [fieldFm, fieldPred, fieldSucc, encodeI, BitVec.getLsbD_extractLsb', BitVec.getLsbD_append]
     interval_cases i <;> simp)

theorem fields_encodeS (imm : BitVec 12) (rs2 rs1 : Reg) (f3 : BitVec 3) (op : BitVec 7) :
    fieldRs1 (encodeS imm rs2 rs1 f3 op) = rs1 ∧ fieldRs2 (encodeS imm rs2 rs1 f3 op) = rs2 ∧
    fieldImmS (encodeS imm rs2 rs1 f3 op) = imm := by
  refine ⟨?_, ?_, ?_⟩ <;>
    (apply BitVec.eq_of_getLsbD_eq; intro i hi
     simp only [fieldRs1, fieldRs2, fieldImmS, encodeS, BitVec.getLsbD_extractLsb', BitVec.getLsbD_append]
     interval_cases i <;> simp)

theorem fields_encodeB (offset : BitVec 13) (rs2 rs1 : Reg) (f3 : BitVec 3) (op : BitVec 7)
    (h : evenOffset offset = true) :
    fieldRs1 (encodeB offset rs2 rs1 f3 op) = rs1 ∧ fieldRs2 (encodeB offset rs2 rs1 f3 op) = rs2 ∧
    fieldImmB (encodeB offset rs2 rs1 f3 op) = offset := by
  have h0 : offset[0] = false := by simpa [evenOffset, ← BitVec.getLsbD_eq_getElem] using h
  refine ⟨?_, ?_, ?_⟩ <;>
    (apply BitVec.eq_of_getLsbD_eq; intro i hi
     simp only [fieldRs1, fieldRs2, fieldImmB, encodeB, BitVec.getLsbD_extractLsb', BitVec.getLsbD_append]
     interval_cases i <;> simp [h0])

theorem fields_encodeU (imm : BitVec 20) (rd : Reg) (op : BitVec 7) :
    fieldRd (encodeU imm rd op) = rd ∧ fieldImmU (encodeU imm rd op) = imm := by
  refine ⟨?_, ?_⟩ <;>
    (apply BitVec.eq_of_getLsbD_eq; intro i hi
     simp only [fieldRd, fieldImmU, encodeU, BitVec.getLsbD_extractLsb', BitVec.getLsbD_append]
     interval_cases i <;> simp)

theorem fields_encodeJ (offset : BitVec 21) (rd : Reg) (op : BitVec 7) (h : evenOffset offset = true) :
    fieldRd (encodeJ offset rd op) = rd ∧ fieldImmJ (encodeJ offset rd op) = offset := by
  have h0 : offset[0] = false := by simpa [evenOffset, ← BitVec.getLsbD_eq_getElem] using h
  refine ⟨?_, ?_⟩ <;>
    (apply BitVec.eq_of_getLsbD_eq; intro i hi
     simp only [fieldRd, fieldImmJ, encodeJ, BitVec.getLsbD_extractLsb', BitVec.getLsbD_append]
     interval_cases i <;> simp [h0])

/-! ## No two rows overlap (30_encoding.md R276) -/

/-- Two rows differ in a bit that both look at. -/
def Row.disjoint (r r' : Row) : Bool := (r.mask &&& r'.mask) &&& (r.pattern ^^^ r'.pattern) != 0

theorem Row.disjoint_selects {r r' : Row} {w : Insn} (h : r.disjoint r' = true) (hr : r.selects w = true) :
    r'.selects w = false := by
  unfold Row.disjoint at h
  unfold Row.selects at hr ⊢
  simp only [bne_iff_ne, ne_eq, beq_iff_eq, beq_eq_false_iff_ne] at *
  rintro h'
  apply h
  rw [← hr, ← h']
  apply BitVec.eq_of_getLsbD_eq
  intro i hi
  simp only [BitVec.getLsbD_and, BitVec.getLsbD_xor]
  cases w.getLsbD i <;> cases r.mask.getLsbD i <;> cases r'.mask.getLsbD i <;> simp

theorem opcodeRows_disjoint : opcodeRows.Pairwise (fun r r' => r.disjoint r' = true) := by decide

/-- In a list of rows no two of which overlap, the row found for a word is any row that selects it. -/
theorem find_of_disjoint {rows : List Row} {r : Row} {w : Insn} (hd : rows.Pairwise (fun r r' => r.disjoint r' = true))
    (hm : r ∈ rows) (hr : r.selects w = true) : rows.find? (fun r => r.selects w) = some r := by
  induction rows with
  | nil => cases hm
  | cons q rows ih =>
    rw [List.pairwise_cons] at hd
    rcases List.mem_cons.1 hm with rfl | hm
    · simp [hr]
    · have : q.selects w = false := by
        cases hq : q.selects w with
        | false => rfl
        | true =>
          have := Row.disjoint_selects (hd.1 r hm) hq
          rw [hr] at this; cases this
      rw [List.find?_cons_of_neg (by simp [this])]
      exact ih hd.2 hm

/-- The decoder reads a word by the row that selects it. -/
theorem decode_of_row {r : Row} {w : Insn} (hm : r ∈ opcodeRows) (hr : r.selects w = true) :
    decode w = .ok (r.build w) := by
  unfold decode
  rw [find_of_disjoint opcodeRows_disjoint hm hr]

end Sys2Proof
end

