-- ==== Sys2Proof/Laws/PerInstr.lean ====
section
/-! SUPPORT. One lemma per instruction: its encoding is a word of one row of the opcode table, and that row reads the
instruction back from it. -/

namespace Sys2Proof.Laws

/-- Some row of the table selects the word of the instruction, and, if the instruction is well formed, builds it from
that word. -/
def EncodedRow.Statement (i : Instr) : Prop :=
  ∃ r ∈ opcodeRows, r.selects (encode i) = true ∧ (i.wellFormed = true → r.build (encode i) = i)

/-- The statement from the place of the row, the bits it looks at, and what it builds. -/
theorem encodedRow_of (i : Instr) (k : Nat) (hk : k < opcodeRows.length) (hm : encode i &&& (opcodeRows[k]).mask = (opcodeRows[k]).pattern)
    (hb : i.wellFormed = true → (opcodeRows[k]).build (encode i) = i) : EncodedRow.Statement i :=
  ⟨opcodeRows[k], List.getElem_mem hk, by simpa [Row.selects] using hm, hb⟩

theorem EncodedRow.csrrw (rd : Reg) (csr : CsrAddr) (rs1 : Reg) :
    EncodedRow.Statement (.csrrw rd csr rs1) := by
  refine encodedRow_of _ 0 (by decide) (encodeI_mask .. ) fun h => ?_
  have f := fields_encodeI csr rs1 0x1#3 rd 0x73#7
  exact congr (congr (congrArg Instr.csrrw (f.1)) (f.2.2.2)) (f.2.1)

theorem EncodedRow.csrrs (rd : Reg) (csr : CsrAddr) (rs1 : Reg) :
    EncodedRow.Statement (.csrrs rd csr rs1) := by
  refine encodedRow_of _ 1 (by decide) (encodeI_mask .. ) fun h => ?_
  have f := fields_encodeI csr rs1 0x2#3 rd 0x73#7
  exact congr (congr (congrArg Instr.csrrs (f.1)) (f.2.2.2)) (f.2.1)

theorem EncodedRow.csrrc (rd : Reg) (csr : CsrAddr) (rs1 : Reg) :
    EncodedRow.Statement (.csrrc rd csr rs1) := by
  refine encodedRow_of _ 2 (by decide) (encodeI_mask .. ) fun h => ?_
  have f := fields_encodeI csr rs1 0x3#3 rd 0x73#7
  exact congr (congr (congrArg Instr.csrrc (f.1)) (f.2.2.2)) (f.2.1)

theorem EncodedRow.csrrwi (rd : Reg) (csr : CsrAddr) (zimm : BitVec 5) :
    EncodedRow.Statement (.csrrwi rd csr zimm) := by
  refine encodedRow_of _ 3 (by decide) (encodeI_mask .. ) fun h => ?_
  have f := fields_encodeI csr zimm 0x5#3 rd 0x73#7
  exact congr (congr (congrArg Instr.csrrwi (f.1)) (f.2.2.2)) (f.2.1)

theorem EncodedRow.csrrsi (rd : Reg) (csr : CsrAddr) (zimm : BitVec 5) :
    EncodedRow.Statement (.csrrsi rd csr zimm) := by
  refine encodedRow_of _ 4 (by decide) (encodeI_mask .. ) fun h => ?_
  have f := fields_encodeI csr zimm 0x6#3 rd 0x73#7
  exact congr (congr (congrArg Instr.csrrsi (f.1)) (f.2.2.2)) (f.2.1)

theorem EncodedRow.csrrci (rd : Reg) (csr : CsrAddr) (zimm : BitVec 5) :
    EncodedRow.Statement (.csrrci rd csr zimm) := by
  refine encodedRow_of _ 5 (by decide) (encodeI_mask .. ) fun h => ?_
  have f := fields_encodeI csr zimm 0x7#3 rd 0x73#7
  exact congr (congr (congrArg Instr.csrrci (f.1)) (f.2.2.2)) (f.2.1)

theorem EncodedRow.ecall : EncodedRow.Statement .ecall :=
  encodedRow_of _ 6 (by decide) (by decide) fun _ => rfl

theorem EncodedRow.ebreak : EncodedRow.Statement .ebreak :=
  encodedRow_of _ 7 (by decide) (by decide) fun _ => rfl

theorem EncodedRow.eret : EncodedRow.Statement .eret :=
  encodedRow_of _ 8 (by decide) (by decide) fun _ => rfl

theorem EncodedRow.sfenceVm (rs1 : Reg) :
    EncodedRow.Statement (.sfenceVm rs1) := by
  refine encodedRow_of _ 9 (by decide) (encodeI_mask_fence .. ) fun h => ?_
  have f := fields_encodeI 0x101#12 rs1 0 0 0x73#7
  exact congrArg Instr.sfenceVm (f.2.1)

theorem EncodedRow.wfi : EncodedRow.Statement .wfi :=
  encodedRow_of _ 10 (by decide) (by decide) fun _ => rfl

theorem EncodedRow.hrts : EncodedRow.Statement .hrts :=
  encodedRow_of _ 11 (by decide) (by decide) fun _ => rfl

theorem EncodedRow.mrts : EncodedRow.Statement .mrts :=
  encodedRow_of _ 12 (by decide) (by decide) fun _ => rfl

theorem EncodedRow.mrth : EncodedRow.Statement .mrth :=
  encodedRow_of _ 13 (by decide) (by decide) fun _ => rfl

theorem EncodedRow.lui (rd : Reg) (imm : BitVec 20) :
    EncodedRow.Statement (.lui rd imm) := by
  refine encodedRow_of _ 14 (by decide) (encodeU_mask .. ) fun h => ?_
  have f := fields_encodeU imm rd 0x37#7
  exact congr (congrArg Instr.lui (f.1)) (f.2)

theorem EncodedRow.auipc (rd : Reg) (imm : BitVec 20) :
    EncodedRow.Statement (.auipc rd imm) := by
  refine encodedRow_of _ 15 (by decide) (encodeU_mask .. ) fun h => ?_
  have f := fields_encodeU imm rd 0x17#7
  exact congr (congrArg Instr.auipc (f.1)) (f.2)

theorem EncodedRow.jal (rd : Reg) (offset : BitVec 21) :
    EncodedRow.Statement (.jal rd offset) := by
  refine encodedRow_of _ 16 (by decide) (encodeJ_mask .. ) fun h => ?_
  have f := fields_encodeJ offset rd 0x6F#7 h
  exact congr (congrArg Instr.jal (f.1)) (f.2)

theorem EncodedRow.jalr (rd : Reg) (rs1 : Reg) (imm : BitVec 12) :
    EncodedRow.Statement (.jalr rd rs1 imm) := by
  refine encodedRow_of _ 17 (by decide) (encodeI_mask .. ) fun h => ?_
  have f := fields_encodeI imm rs1 0x0#3 rd 0x67#7
  exact congr (congr (congrArg Instr.jalr (f.1)) (f.2.1)) (f.2.2.1)

theorem EncodedRow.beq (rs1 : Reg) (rs2 : Reg) (offset : BitVec 13) :
    EncodedRow.Statement (.beq rs1 rs2 offset) := by
  refine encodedRow_of _ 18 (by decide) (encodeB_mask .. ) fun h => ?_
  have f := fields_encodeB offset rs2 rs1 0x0#3 0x63#7 h
  exact congr (congr (congrArg Instr.beq (f.1)) (f.2.1)) (f.2.2)

theorem EncodedRow.bne (rs1 : Reg) (rs2 : Reg) (offset : BitVec 13) :
    EncodedRow.Statement (.bne rs1 rs2 offset) := by
  refine encodedRow_of _ 19 (by decide) (encodeB_mask .. ) fun h => ?_
  have f := fields_encodeB offset rs2 rs1 0x1#3 0x63#7 h
  exact congr (congr (congrArg Instr.bne (f.1)) (f.2.1)) (f.2.2)

theorem EncodedRow.blt (rs1 : Reg) (rs2 : Reg) (offset : BitVec 13) :
    EncodedRow.Statement (.blt rs1 rs2 offset) := by
  refine encodedRow_of _ 20 (by decide) (encodeB_mask .. ) fun h => ?_
  have f := fields_encodeB offset rs2 rs1 0x4#3 0x63#7 h
  exact congr (congr (congrArg Instr.blt (f.1)) (f.2.1)) (f.2.2)

theorem EncodedRow.bge (rs1 : Reg) (rs2 : Reg) (offset : BitVec 13) :
    EncodedRow.Statement (.bge rs1 rs2 offset) := by
  refine encodedRow_of _ 21 (by decide) (encodeB_mask .. ) fun h => ?_
  have f := fields_encodeB offset rs2 rs1 0x5#3 0x63#7 h
  exact congr (congr (congrArg Instr.bge (f.1)) (f.2.1)) (f.2.2)

theorem EncodedRow.bltu (rs1 : Reg) (rs2 : Reg) (offset : BitVec 13) :
    EncodedRow.Statement (.bltu rs1 rs2 offset) := by
  refine encodedRow_of _ 22 (by decide) (encodeB_mask .. ) fun h => ?_
  have f := fields_encodeB offset rs2 rs1 0x6#3 0x63#7 h
  exact congr (congr (congrArg Instr.bltu (f.1)) (f.2.1)) (f.2.2)

theorem EncodedRow.bgeu (rs1 : Reg) (rs2 : Reg) (offset : BitVec 13) :
    EncodedRow.Statement (.bgeu rs1 rs2 offset) := by
  refine encodedRow_of _ 23 (by decide) (encodeB_mask .. ) fun h => ?_
  have f := fields_encodeB offset rs2 rs1 0x7#3 0x63#7 h
  exact congr (congr (congrArg Instr.bgeu (f.1)) (f.2.1)) (f.2.2)

theorem EncodedRow.lb (rd : Reg) (rs1 : Reg) (imm : BitVec 12) :
    EncodedRow.Statement (.lb rd rs1 imm) := by
  refine encodedRow_of _ 24 (by decide) (encodeI_mask .. ) fun h => ?_
  have f := fields_encodeI imm rs1 0x0#3 rd 0x3#7
  exact congr (congr (congrArg Instr.lb (f.1)) (f.2.1)) (f.2.2.1)

theorem EncodedRow.lh (rd : Reg) (rs1 : Reg) (imm : BitVec 12) :
    EncodedRow.Statement (.lh rd rs1 imm) := by
  refine encodedRow_of _ 25 (by decide) (encodeI_mask .. ) fun h => ?_
  have f := fields_encodeI imm rs1 0x1#3 rd 0x3#7
  exact congr (congr (congrArg Instr.lh (f.1)) (f.2.1)) (f.2.2.1)

theorem EncodedRow.lw (rd : Reg) (rs1 : Reg) (imm : BitVec 12) :
    EncodedRow.Statement (.lw rd rs1 imm) := by
  refine encodedRow_of _ 26 (by decide) (encodeI_mask .. ) fun h => ?_
  have f := fields_encodeI imm rs1 0x2#3 rd 0x3#7
  exact congr (congr (congrArg Instr.lw (f.1)) (f.2.1)) (f.2.2.1)

theorem EncodedRow.lbu (rd : Reg) (rs1 : Reg) (imm : BitVec 12) :
    EncodedRow.Statement (.lbu rd rs1 imm) := by
  refine encodedRow_of _ 27 (by decide) (encodeI_mask .. ) fun h => ?_
  have f := fields_encodeI imm rs1 0x4#3 rd 0x3#7
  exact congr (congr (congrArg Instr.lbu (f.1)) (f.2.1)) (f.2.2.1)

theorem EncodedRow.lhu (rd : Reg) (rs1 : Reg) (imm : BitVec 12) :
    EncodedRow.Statement (.lhu rd rs1 imm) := by
  refine encodedRow_of _ 28 (by decide) (encodeI_mask .. ) fun h => ?_
  have f := fields_encodeI imm rs1 0x5#3 rd 0x3#7
  exact congr (congr (congrArg Instr.lhu (f.1)) (f.2.1)) (f.2.2.1)

theorem EncodedRow.sb (rs1 : Reg) (rs2 : Reg) (imm : BitVec 12) :
    EncodedRow.Statement (.sb rs1 rs2 imm) := by
  refine encodedRow_of _ 29 (by decide) (encodeS_mask .. ) fun h => ?_
  have f := fields_encodeS imm rs2 rs1 0x0#3 0x23#7
  exact congr (congr (congrArg Instr.sb (f.1)) (f.2.1)) (f.2.2)

theorem EncodedRow.sh (rs1 : Reg) (rs2 : Reg) (imm : BitVec 12) :
    EncodedRow.Statement (.sh rs1 rs2 imm) := by
  refine encodedRow_of _ 30 (by decide) (encodeS_mask .. ) fun h => ?_
  have f := fields_encodeS imm rs2 rs1 0x1#3 0x23#7
  exact congr (congr (congrArg Instr.sh (f.1)) (f.2.1)) (f.2.2)

theorem EncodedRow.sw (rs1 : Reg) (rs2 : Reg) (imm : BitVec 12) :
    EncodedRow.Statement (.sw rs1 rs2 imm) := by
  refine encodedRow_of _ 31 (by decide) (encodeS_mask .. ) fun h => ?_
  have f := fields_encodeS imm rs2 rs1 0x2#3 0x23#7
  exact congr (congr (congrArg Instr.sw (f.1)) (f.2.1)) (f.2.2)

theorem EncodedRow.addi (rd : Reg) (rs1 : Reg) (imm : BitVec 12) :
    EncodedRow.Statement (.addi rd rs1 imm) := by
  refine encodedRow_of _ 32 (by decide) (encodeI_mask .. ) fun h => ?_
  have f := fields_encodeI imm rs1 0x0#3 rd 0x13#7
  exact congr (congr (congrArg Instr.addi (f.1)) (f.2.1)) (f.2.2.1)

theorem EncodedRow.slti (rd : Reg) (rs1 : Reg) (imm : BitVec 12) :
    EncodedRow.Statement (.slti rd rs1 imm) := by
  refine encodedRow_of _ 33 (by decide) (encodeI_mask .. ) fun h => ?_
  have f := fields_encodeI imm rs1 0x2#3 rd 0x13#7
  exact congr (congr (congrArg Instr.slti (f.1)) (f.2.1)) (f.2.2.1)

theorem EncodedRow.sltiu (rd : Reg) (rs1 : Reg) (imm : BitVec 12) :
    EncodedRow.Statement (.sltiu rd rs1 imm) := by
  refine encodedRow_of _ 34 (by decide) (encodeI_mask .. ) fun h => ?_
  have f := fields_encodeI imm rs1 0x3#3 rd 0x13#7
  exact congr (congr (congrArg Instr.sltiu (f.1)) (f.2.1)) (f.2.2.1)

theorem EncodedRow.xori (rd : Reg) (rs1 : Reg) (imm : BitVec 12) :
    EncodedRow.Statement (.xori rd rs1 imm) := by
  refine encodedRow_of _ 35 (by decide) (encodeI_mask .. ) fun h => ?_
  have f := fields_encodeI imm rs1 0x4#3 rd 0x13#7
  exact congr (congr (congrArg Instr.xori (f.1)) (f.2.1)) (f.2.2.1)

theorem EncodedRow.ori (rd : Reg) (rs1 : Reg) (imm : BitVec 12) :
    EncodedRow.Statement (.ori rd rs1 imm) := by
  refine encodedRow_of _ 36 (by decide) (encodeI_mask .. ) fun h => ?_
  have f := fields_encodeI imm rs1 0x6#3 rd 0x13#7
  exact congr (congr (congrArg Instr.ori (f.1)) (f.2.1)) (f.2.2.1)

theorem EncodedRow.andi (rd : Reg) (rs1 : Reg) (imm : BitVec 12) :
    EncodedRow.Statement (.andi rd rs1 imm) := by
  refine encodedRow_of _ 37 (by decide) (encodeI_mask .. ) fun h => ?_
  have f := fields_encodeI imm rs1 0x7#3 rd 0x13#7
  exact congr (congr (congrArg Instr.andi (f.1)) (f.2.1)) (f.2.2.1)

theorem EncodedRow.slli (rd : Reg) (rs1 : Reg) (shamt : BitVec 6) :
    EncodedRow.Statement (.slli rd rs1 shamt) := by
  refine encodedRow_of _ 38 (by decide) (encodeI_mask_shift .. ) fun h => ?_
  have f := fields_encodeI (0x0#6 ++ shamt) rs1 0x1#3 rd 0x13#7
  exact congr (congr (congrArg Instr.slli (f.1)) (f.2.1)) (fields_encodeI_shift ..)

theorem EncodedRow.srli (rd : Reg) (rs1 : Reg) (shamt : BitVec 6) :
    EncodedRow.Statement (.srli rd rs1 shamt) := by
  refine encodedRow_of _ 39 (by decide) (encodeI_mask_shift .. ) fun h => ?_
  have f := fields_encodeI (0x0#6 ++ shamt) rs1 0x5#3 rd 0x13#7
  exact congr (congr (congrArg Instr.srli (f.1)) (f.2.1)) (fields_encodeI_shift ..)

theorem EncodedRow.srai (rd : Reg) (rs1 : Reg) (shamt : BitVec 6) :
    EncodedRow.Statement (.srai rd rs1 shamt) := by
  refine encodedRow_of _ 40 (by decide) (encodeI_mask_shift .. ) fun h => ?_
  have f := fields_encodeI (0x10#6 ++ shamt) rs1 0x5#3 rd 0x13#7
  exact congr (congr (congrArg Instr.srai (f.1)) (f.2.1)) (fields_encodeI_shift ..)

theorem EncodedRow.add (rd : Reg) (rs1 : Reg) (rs2 : Reg) :
    EncodedRow.Statement (.add rd rs1 rs2) := by
  refine encodedRow_of _ 41 (by decide) (encodeR_mask .. ) fun h => ?_
  have f := fields_encodeR 0x0#7 rs2 rs1 0x0#3 rd 0x33#7
  exact congr (congr (congrArg Instr.add (f.1)) (f.2.1)) (f.2.2.1)

theorem EncodedRow.sub (rd : Reg) (rs1 : Reg) (rs2 : Reg) :
    EncodedRow.Statement (.sub rd rs1 rs2) := by
  refine encodedRow_of _ 42 (by decide) (encodeR_mask .. ) fun h => ?_
  have f := fields_encodeR 0x20#7 rs2 rs1 0x0#3 rd 0x33#7
  exact congr (congr (congrArg Instr.sub (f.1)) (f.2.1)) (f.2.2.1)

theorem EncodedRow.sll (rd : Reg) (rs1 : Reg) (rs2 : Reg) :
    EncodedRow.Statement (.sll rd rs1 rs2) := by
  refine encodedRow_of _ 43 (by decide) (encodeR_mask .. ) fun h => ?_
  have f := fields_encodeR 0x0#7 rs2 rs1 0x1#3 rd 0x33#7
  exact congr (congr (congrArg Instr.sll (f.1)) (f.2.1)) (f.2.2.1)

theorem EncodedRow.slt (rd : Reg) (rs1 : Reg) (rs2 : Reg) :
    EncodedRow.Statement (.slt rd rs1 rs2) := by
  refine encodedRow_of _ 44 (by decide) (encodeR_mask .. ) fun h => ?_
  have f := fields_encodeR 0x0#7 rs2 rs1 0x2#3 rd 0x33#7
  exact congr (congr (congrArg Instr.slt (f.1)) (f.2.1)) (f.2.2.1)

theorem EncodedRow.sltu (rd : Reg) (rs1 : Reg) (rs2 : Reg) :
    EncodedRow.Statement (.sltu rd rs1 rs2) := by
  refine encodedRow_of _ 45 (by decide) (encodeR_mask .. ) fun h => ?_
  have f := fields_encodeR 0x0#7 rs2 rs1 0x3#3 rd 0x33#7
  exact congr (congr (congrArg Instr.sltu (f.1)) (f.2.1)) (f.2.2.1)

theorem EncodedRow.xor (rd : Reg) (rs1 : Reg) (rs2 : Reg) :
    EncodedRow.Statement (.xor rd rs1 rs2) := by
  refine encodedRow_of _ 46 (by decide) (encodeR_mask .. ) fun h => ?_
  have f := fields_encodeR 0x0#7 rs2 rs1 0x4#3 rd 0x33#7
  exact congr (congr (congrArg Instr.xor (f.1)) (f.2.1)) (f.2.2.1)

theorem EncodedRow.srl (rd : Reg) (rs1 : Reg) (rs2 : Reg) :
    EncodedRow.Statement (.srl rd rs1 rs2) := by
  refine encodedRow_of _ 47 (by decide) (encodeR_mask .. ) fun h => ?_
  have f := fields_encodeR 0x0#7 rs2 rs1 0x5#3 rd 0x33#7
  exact congr (congr (congrArg Instr.srl (f.1)) (f.2.1)) (f.2.2.1)

theorem EncodedRow.sra (rd : Reg) (rs1 : Reg) (rs2 : Reg) :
    EncodedRow.Statement (.sra rd rs1 rs2) := by
  refine encodedRow_of _ 48 (by decide) (encodeR_mask .. ) fun h => ?_
  have f := fields_encodeR 0x20#7 rs2 rs1 0x5#3 rd 0x33#7
  exact congr (congr (congrArg Instr.sra (f.1)) (f.2.1)) (f.2.2.1)

theorem EncodedRow.or (rd : Reg) (rs1 : Reg) (rs2 : Reg) :
    EncodedRow.Statement (.or rd rs1 rs2) := by
  refine encodedRow_of _ 49 (by decide) (encodeR_mask .. ) fun h => ?_
  have f := fields_encodeR 0x0#7 rs2 rs1 0x6#3 rd 0x33#7
  exact congr (congr (congrArg Instr.or (f.1)) (f.2.1)) (f.2.2.1)

theorem EncodedRow.and (rd : Reg) (rs1 : Reg) (rs2 : Reg) :
    EncodedRow.Statement (.and rd rs1 rs2) := by
  refine encodedRow_of _ 50 (by decide) (encodeR_mask .. ) fun h => ?_
  have f := fields_encodeR 0x0#7 rs2 rs1 0x7#3 rd 0x33#7
  exact congr (congr (congrArg Instr.and (f.1)) (f.2.1)) (f.2.2.1)

theorem EncodedRow.lwu (rd : Reg) (rs1 : Reg) (imm : BitVec 12) :
    EncodedRow.Statement (.lwu rd rs1 imm) := by
  refine encodedRow_of _ 51 (by decide) (encodeI_mask .. ) fun h => ?_
  have f := fields_encodeI imm rs1 0x6#3 rd 0x3#7
  exact congr (congr (congrArg Instr.lwu (f.1)) (f.2.1)) (f.2.2.1)

theorem EncodedRow.ld (rd : Reg) (rs1 : Reg) (imm : BitVec 12) :
    EncodedRow.Statement (.ld rd rs1 imm) := by
  refine encodedRow_of _ 52 (by decide) (encodeI_mask .. ) fun h => ?_
  have f := fields_encodeI imm rs1 0x3#3 rd 0x3#7
  exact congr (congr (congrArg Instr.ld (f.1)) (f.2.1)) (f.2.2.1)

theorem EncodedRow.sd (rs1 : Reg) (rs2 : Reg) (imm : BitVec 12) :
    EncodedRow.Statement (.sd rs1 rs2 imm) := by
  refine encodedRow_of _ 53 (by decide) (encodeS_mask .. ) fun h => ?_
  have f := fields_encodeS imm rs2 rs1 0x3#3 0x23#7
  exact congr (congr (congrArg Instr.sd (f.1)) (f.2.1)) (f.2.2)

theorem EncodedRow.addiw (rd : Reg) (rs1 : Reg) (imm : BitVec 12) :
    EncodedRow.Statement (.addiw rd rs1 imm) := by
  refine encodedRow_of _ 54 (by decide) (encodeI_mask .. ) fun h => ?_
  have f := fields_encodeI imm rs1 0x0#3 rd 0x1B#7
  exact congr (congr (congrArg Instr.addiw (f.1)) (f.2.1)) (f.2.2.1)

theorem EncodedRow.slliw (rd : Reg) (rs1 : Reg) (shamt : BitVec 5) :
    EncodedRow.Statement (.slliw rd rs1 shamt) := by
  refine encodedRow_of _ 55 (by decide) (encodeR_mask .. ) fun h => ?_
  have f := fields_encodeR 0x0#7 shamt rs1 0x1#3 rd 0x1B#7
  exact congr (congr (congrArg Instr.slliw (f.1)) (f.2.1)) (f.2.2.2)

theorem EncodedRow.srliw (rd : Reg) (rs1 : Reg) (shamt : BitVec 5) :
    EncodedRow.Statement (.srliw rd rs1 shamt) := by
  refine encodedRow_of _ 56 (by decide) (encodeR_mask .. ) fun h => ?_
  have f := fields_encodeR 0x0#7 shamt rs1 0x5#3 rd 0x1B#7
  exact congr (congr (congrArg Instr.srliw (f.1)) (f.2.1)) (f.2.2.2)

theorem EncodedRow.sraiw (rd : Reg) (rs1 : Reg) (shamt : BitVec 5) :
    EncodedRow.Statement (.sraiw rd rs1 shamt) := by
  refine encodedRow_of _ 57 (by decide) (encodeR_mask .. ) fun h => ?_
  have f := fields_encodeR 0x20#7 shamt rs1 0x5#3 rd 0x1B#7
  exact congr (congr (congrArg Instr.sraiw (f.1)) (f.2.1)) (f.2.2.2)

theorem EncodedRow.addw (rd : Reg) (rs1 : Reg) (rs2 : Reg) :
    EncodedRow.Statement (.addw rd rs1 rs2) := by
  refine encodedRow_of _ 58 (by decide) (encodeR_mask .. ) fun h => ?_
  have f := fields_encodeR 0x0#7 rs2 rs1 0x0#3 rd 0x3B#7
  exact congr (congr (congrArg Instr.addw (f.1)) (f.2.1)) (f.2.2.1)

theorem EncodedRow.subw (rd : Reg) (rs1 : Reg) (rs2 : Reg) :
    EncodedRow.Statement (.subw rd rs1 rs2) := by
  refine encodedRow_of _ 59 (by decide) (encodeR_mask .. ) fun h => ?_
  have f := fields_encodeR 0x20#7 rs2 rs1 0x0#3 rd 0x3B#7
  exact congr (congr (congrArg Instr.subw (f.1)) (f.2.1)) (f.2.2.1)

theorem EncodedRow.sllw (rd : Reg) (rs1 : Reg) (rs2 : Reg) :
    EncodedRow.Statement (.sllw rd rs1 rs2) := by
  refine encodedRow_of _ 60 (by decide) (encodeR_mask .. ) fun h => ?_
  have f := fields_encodeR 0x0#7 rs2 rs1 0x1#3 rd 0x3B#7
  exact congr (congr (congrArg Instr.sllw (f.1)) (f.2.1)) (f.2.2.1)

theorem EncodedRow.srlw (rd : Reg) (rs1 : Reg) (rs2 : Reg) :
    EncodedRow.Statement (.srlw rd rs1 rs2) := by
  refine encodedRow_of _ 61 (by decide) (encodeR_mask .. ) fun h => ?_
  have f := fields_encodeR 0x0#7 rs2 rs1 0x5#3 rd 0x3B#7
  exact congr (congr (congrArg Instr.srlw (f.1)) (f.2.1)) (f.2.2.1)

theorem EncodedRow.sraw (rd : Reg) (rs1 : Reg) (rs2 : Reg) :
    EncodedRow.Statement (.sraw rd rs1 rs2) := by
  refine encodedRow_of _ 62 (by decide) (encodeR_mask .. ) fun h => ?_
  have f := fields_encodeR 0x20#7 rs2 rs1 0x5#3 rd 0x3B#7
  exact congr (congr (congrArg Instr.sraw (f.1)) (f.2.1)) (f.2.2.1)

theorem EncodedRow.fence (fm pred succ : BitVec 4) (rs1 : Reg) (rd : Reg) :
    EncodedRow.Statement (.fence fm pred succ rs1 rd) := by
  refine encodedRow_of _ 63 (by decide) (encodeI_mask .. ) fun h => ?_
  have f := fields_encodeI (fm ++ pred ++ succ) rs1 0x0#3 rd 0xF#7
  have g := fields_encodeI_fence fm pred succ rs1 0x0#3 rd 0xF#7
  exact congr (congr (congr (congr (congrArg Instr.fence g.1) g.2.1) g.2.2) (f.2.1)) (f.1)

theorem EncodedRow.fenceI (imm : BitVec 12) (rs1 : Reg) (rd : Reg) :
    EncodedRow.Statement (.fenceI imm rs1 rd) := by
  refine encodedRow_of _ 64 (by decide) (encodeI_mask .. ) fun h => ?_
  have f := fields_encodeI imm rs1 0x1#3 rd 0xF#7
  exact congr (congr (congrArg Instr.fenceI (f.2.2.1)) (f.2.1)) (f.1)

end Sys2Proof.Laws
end

