-- ==== Sys2Proof/Tests/Slice0.lean ====
section
/-! SUPPORT. Tests. Expected values are the spec's: the examples of its rules, and the vectors V<n>, T<n> of
95_test_vectors.md. The witnesses at the end show a state and operands that meet the hypotheses of each statement. -/

namespace Sys2Proof.Tests

open Sys2Proof.Machine

/-! ## WellFormed refuses what the encodings cannot hold (R372, R430) -/

theorem test_wf_jal : (Instr.jal 1 3).wellFormed = false := by decide
theorem test_wf_beq : (Instr.beq 1 2 1).wellFormed = false := by decide
theorem test_wf_bne : (Instr.bne 1 2 5).wellFormed = false := by decide
theorem test_wf_blt : (Instr.blt 1 2 7).wellFormed = false := by decide
theorem test_wf_bge : (Instr.bge 1 2 (-1)).wellFormed = false := by decide
theorem test_wf_bltu : (Instr.bltu 1 2 9).wellFormed = false := by decide
theorem test_wf_bgeu : (Instr.bgeu 1 2 4095).wellFormed = false := by decide
theorem test_wf_fence_fm : (Instr.fence 8 15 15 0 0).wellFormed = false := by decide
theorem test_wf_fence_rs1 : (Instr.fence 0 15 15 1 0).wellFormed = false := by decide
theorem test_wf_fence_rd : (Instr.fence 0 15 15 0 1).wellFormed = false := by decide

/-! ## Decoding, every row: words written out from the encodings of 30_encoding.md R275, R276 and of the rules of
40_csr_instructions.md and 46_base_isa_general_knowledge.md, most of them printed by the spec -/

theorem test_decode_csr :
    decode 0x340312F3#32 = .ok (.csrrw 5 0x340 6) ∧ decode 0x30432073#32 = .ok (.csrrs 0 0x304 6) ∧
    decode 0x34433073#32 = .ok (.csrrc 0 0x344 6) ∧ decode 0x340FD2F3#32 = .ok (.csrrwi 5 0x340 31) ∧
    decode 0x3000E073#32 = .ok (.csrrsi 0 0x300 1) ∧ decode 0x3000F2F3#32 = .ok (.csrrci 5 0x300 1) := by decide

theorem test_decode_priv :
    decode 0x00000073#32 = .ok .ecall ∧ decode 0x00100073#32 = .ok .ebreak ∧ decode 0x10000073#32 = .ok .eret ∧
    decode 0x10150073#32 = .ok (.sfenceVm 10) ∧ decode 0x10200073#32 = .ok .wfi ∧ decode 0x20500073#32 = .ok .hrts ∧
    decode 0x30500073#32 = .ok .mrts ∧ decode 0x30600073#32 = .ok .mrth := by decide

theorem test_decode_jump :
    decode 0x123452B7#32 = .ok (.lui 5 0x12345) ∧ decode 0x00001297#32 = .ok (.auipc 5 1) ∧
    decode 0x008000EF#32 = .ok (.jal 1 8) ∧ decode 0x00028067#32 = .ok (.jalr 0 5 0) ∧
    decode 0x00000463#32 = .ok (.beq 0 0 8) ∧ decode 0xFE029EE3#32 = .ok (.bne 5 0 (-4)) ∧
    decode 0x0002C663#32 = .ok (.blt 5 0 12) ∧
    -- imm[12|10:5] rs2 rs1 101 imm[4:1|11] 1100011, offset 8; funct3 110 and 111 beside it
    decode 0x0062D463#32 = .ok (.bge 5 6 8) ∧ decode 0x0062E463#32 = .ok (.bltu 5 6 8) ∧
    decode 0x0062F463#32 = .ok (.bgeu 5 6 8) := by decide

theorem test_decode_memory :
    -- imm[11:0] rs1 funct3 rd 0000011, offset -1, and imm[11:5] rs2 rs1 funct3 imm[4:0] 0100011, offset -1
    decode 0xFFF28303#32 = .ok (.lb 6 5 (-1)) ∧ decode 0x00229303#32 = .ok (.lh 6 5 2) ∧
    decode 0x0002A303#32 = .ok (.lw 6 5 0) ∧ decode 0xFFF2C303#32 = .ok (.lbu 6 5 (-1)) ∧
    decode 0x0022D303#32 = .ok (.lhu 6 5 2) ∧ decode 0xFE628FA3#32 = .ok (.sb 5 6 (-1)) ∧
    decode 0x00629123#32 = .ok (.sh 5 6 2) ∧ decode 0x0062A023#32 = .ok (.sw 5 6 0) := by decide

theorem test_decode_immediate :
    decode 0xFFF00293#32 = .ok (.addi 5 0 (-1)) ∧ decode 0x0002A293#32 = .ok (.slti 5 5 0) ∧
    decode 0x0012B293#32 = .ok (.sltiu 5 5 1) ∧ decode 0xFFF2C293#32 = .ok (.xori 5 5 (-1)) ∧
    decode 0x00F2E293#32 = .ok (.ori 5 5 15) ∧ decode 0xFCF37313#32 = .ok (.andi 6 6 (-49)) ∧
    decode 0x00129293#32 = .ok (.slli 5 5 1) ∧ decode 0x01F2D293#32 = .ok (.srli 5 5 31) ∧
    decode 0x43F2D293#32 = .ok (.srai 5 5 63) := by decide

theorem test_decode_register :
    decode 0x006282B3#32 = .ok (.add 5 5 6) ∧ decode 0x406282B3#32 = .ok (.sub 5 5 6) ∧
    decode 0x006292B3#32 = .ok (.sll 5 5 6) ∧ decode 0x0062A2B3#32 = .ok (.slt 5 5 6) ∧
    decode 0x0062B2B3#32 = .ok (.sltu 5 5 6) ∧ decode 0x0062C2B3#32 = .ok (.xor 5 5 6) ∧
    decode 0x0062D2B3#32 = .ok (.srl 5 5 6) ∧ decode 0x4062D2B3#32 = .ok (.sra 5 5 6) ∧
    decode 0x0062E2B3#32 = .ok (.or 5 5 6) ∧ decode 0x0062F2B3#32 = .ok (.and 5 5 6) := by decide

theorem test_decode_word :
    decode 0x0002E303#32 = .ok (.lwu 6 5 0) ∧ decode 0x0082B303#32 = .ok (.ld 6 5 8) ∧
    decode 0x0062B423#32 = .ok (.sd 5 6 8) ∧ decode 0x0002829B#32 = .ok (.addiw 5 5 0) ∧
    decode 0x01F2929B#32 = .ok (.slliw 5 5 31) ∧ decode 0x01F2D29B#32 = .ok (.srliw 5 5 31) ∧
    decode 0x41F2D29B#32 = .ok (.sraiw 5 5 31) ∧ decode 0x006282BB#32 = .ok (.addw 5 5 6) ∧
    decode 0x406282BB#32 = .ok (.subw 5 5 6) ∧ decode 0x006292BB#32 = .ok (.sllw 5 5 6) ∧
    decode 0x0062D2BB#32 = .ok (.srlw 5 5 6) ∧ decode 0x4062D2BB#32 = .ok (.sraw 5 5 6) := by decide

theorem test_decode_fence :
    decode 0x0FF0000F#32 = .ok (.fence 0 15 15 0 0) ∧ decode 0x0000100F#32 = .ok (.fenceI 0 0 0) := by decide

/-- Refused words: T59g, T59h, T59i, T59j; all zeros and all ones (R375); funct7 of the M extension (R432). -/
theorem test_decode_refused :
    decode 0x00200073#32 = .error .reservedSystem ∧ decode 0x10100F73#32 = .error .reservedSystem ∧
    decode 0x00008073#32 = .error .reservedSystem ∧ decode 0x30004073#32 = .error .reservedSystem ∧
    decode 0x00000000#32 = .error .unknownOpcode ∧ decode 0xFFFFFFFF#32 = .error .unknownOpcode ∧
    decode 0x026282B3#32 = .error .reservedFunction ∧ decodeBytes [0x73, 0, 0] = .error .truncated := by decide

theorem test_table_word :
    decodeTableWord 32 0x340312F3 = some (.csrrw 5 0x340 6) ∧
    decodeBytes [0xF3, 0x12, 0x03, 0x34, 0x01] = .ok (.csrrw 5 0x340 6, [0x01]) := by decide

/-! ## One instruction -/

/-- RV32I with Sv32, the machine of the vectors. -/
def c32 : Config :=
  { Config.standard with
    base := .rv32i, hasSv32 := true, hasSv39 := false, hasSv48 := false, palen := 34, mcpuid := 0x00140100
    mtvecMask := 0xFFFFFFFC, mtdelegMask := 0x00AA0FFF }

/-- A machine at `pc` = 0x200 in a mode, `stvec` = 0x4000, no timer interrupt pending. -/
def at200 (c : Config) (p : Priv) : State :=
  { State.resetOf c with
    pc := 0x200, stvec := 0x4000, mip := ⟨false, false, false, false⟩, mtimecmp := 0x1000, stimecmp := 0x1000
    mstatus := { (State.resetOf c).mstatus with e0 := ⟨p, false⟩, e1 := ⟨.user, true⟩, e2 := ⟨.user, true⟩ } }

/-- The RV32 machine in M-mode with `x5` and `x6` set. -/
def m32 (a b : Word) : State := ((at200 c32 .machine).setX 5 a).setX 6 b

/-- The RV64 machine in M-mode with `x5` and `x6` set. -/
def m64 (a b : Word) : State := ((at200 Config.standard .machine).setX 5 a).setX 6 b

/-- What is seen of the next state. -/
def seen {α : Type} (i : Instr) (s : State) (f : State → α) : Option α :=
  match exec i s with
  | .next t => some (f t)
  | .fault _ => none
  | .refused _ => none

/-- `x5` and the pc after an instruction. -/
def x5 (i : Instr) (s : State) : Option (Word × Word) := seen i s fun t => (t.readX 5, t.pc)

theorem test_lui : x5 (.lui 5 0x12345) (m32 0 0) = some (0x12345000, 0x204) := by decide
theorem test_lui_sign : x5 (.lui 5 0x80000) (m64 0 0) = some (0xFFFFFFFF80000000, 0x204) := by decide
theorem test_auipc : x5 (.auipc 5 1) (m32 0 0) = some (0x1200, 0x204) := by decide
theorem test_jal : seen (.jal 1 8) (m32 0 0) (fun t => (t.readX 1, t.pc)) = some (0x204, 0x208) := by decide
theorem test_jalr : x5 (.jalr 5 5 0) (m32 0x1001 0) = some (0x204, 0x1000) := by decide
/-- T60e. -/
theorem test_jalr_misaligned :
    seen (.jalr 1 5 0) (m32 0x1002 0) (fun t => (t.mcause, t.mbadaddr, t.mepc, t.readX 1)) =
      some (⟨false, 0⟩, 0x1002, 0x200, 0) := by decide
theorem test_beq : x5 (.beq 0 0 8) (m32 7 0) = some (7, 0x208) := by decide
theorem test_bne : x5 (.bne 5 0 (-4)) (m32 1 0) = some (1, 0x1FC) := by decide
theorem test_bne_not_taken : x5 (.bne 5 0 2) (m32 0 0) = some (0, 0x204) := by decide
theorem test_blt : x5 (.blt 5 6 12) (m32 0xFFFFFFFF 1) = some (0xFFFFFFFF, 0x20C) := by decide
theorem test_bge : x5 (.bge 5 6 12) (m32 3 3) = some (3, 0x20C) := by decide
theorem test_bltu : x5 (.bltu 5 6 12) (m32 0xFFFFFFFF 1) = some (0xFFFFFFFF, 0x204) := by decide
theorem test_bgeu : x5 (.bgeu 5 6 12) (m32 0xFFFFFFFF 1) = some (0xFFFFFFFF, 0x20C) := by decide

/-- A machine whose bytes at 0x1000 are given, with `x5` = 0x1000. -/
def withBytes (s : State) (v : Word) : State := { s with mem := Memory.writeWord [] 0x1000 8 v }

theorem test_lb : x5 (.lb 5 5 0) (withBytes (m32 0x1000 0) 0x80) = some (0xFFFFFF80, 0x204) := by decide
theorem test_lh : x5 (.lh 5 5 0) (withBytes (m32 0x1000 0) 0x1234) = some (0x1234, 0x204) := by decide
theorem test_lw : x5 (.lw 5 5 (-4)) (withBytes (m32 0x1004 0) 0x12345678) = some (0x12345678, 0x204) := by decide
theorem test_lbu : x5 (.lbu 5 5 0) (withBytes (m32 0x1000 0) 0x80) = some (0x80, 0x204) := by decide
theorem test_lhu : x5 (.lhu 5 5 0) (withBytes (m32 0x1000 0) 0x8000) = some (0x8000, 0x204) := by decide
theorem test_lwu : x5 (.lwu 5 5 0) (withBytes (m64 0x1000 0) 0x80000000) = some (0x80000000, 0x204) := by decide
theorem test_ld :
    x5 (.ld 5 5 0) (withBytes (m64 0x1000 0) 0x0807060504030201) = some (0x0807060504030201, 0x204) := by decide
/-- T60a. -/
theorem test_lw_misaligned :
    seen (.lw 6 5 0) ((at200 c32 .user).setX 5 0x1002) (fun t => (t.mcause, t.mbadaddr, t.pc)) =
      some (⟨false, 4⟩, 0x1002, 0x100) := by decide

/-- The eight bytes at 0x1000, as a number, and the pc after an instruction. -/
def stored (i : Instr) (s : State) : Option (Nat × Word) := seen i s fun t => (t.mem.readNat 0x1000 8, t.pc)

theorem test_sb : stored (.sb 5 6 1) (m32 0x1000 0x1234) = some (0x3400, 0x204) := by decide
theorem test_sh : stored (.sh 5 6 0) (m32 0x1000 0x1234) = some (0x1234, 0x204) := by decide
theorem test_sw :
    seen (.sw 5 6 0) (m32 0x1000 0x12345678) (fun t => t.mem) =
      some [(0x1000, 0x78), (0x1001, 0x56), (0x1002, 0x34), (0x1003, 0x12)] := by decide
theorem test_sd : stored (.sd 5 6 0) (m64 0x1000 0x0807060504030201) = some (0x0807060504030201, 0x204) := by decide
/-- T60d. -/
theorem test_sw_misaligned :
    seen (.sw 5 6 0) (m32 0x2001 7) (fun t => (t.mcause, t.mbadaddr, t.pc, t.mem)) =
      some (⟨false, 6⟩, 0x2001, 0x1C0, []) := by decide

theorem test_addi : x5 (.addi 5 0 (-1)) (m32 0 0) = some (0xFFFFFFFF, 0x204) := by decide
theorem test_addi_x0 : seen (.addi 0 5 1) (m32 1 0) (fun t => (t.readX 0, t.instret)) = some (0, 1) := by decide
theorem test_slti : x5 (.slti 5 5 0) (m32 0xFFFFFFFF 0) = some (1, 0x204) := by decide
theorem test_sltiu : x5 (.sltiu 5 5 1) (m32 0 0) = some (1, 0x204) := by decide
theorem test_xori : x5 (.xori 5 5 (-1)) (m32 0x0F0F0F0F 0) = some (0xF0F0F0F0, 0x204) := by decide
theorem test_ori : x5 (.ori 5 5 0x00F) (m32 0x0F0 0) = some (0x0FF, 0x204) := by decide
theorem test_andi : x5 (.andi 5 5 0xFF) (m32 0x1234 0) = some (0x34, 0x204) := by decide
theorem test_slli : x5 (.slli 5 5 31) (m32 1 0) = some (0x80000000, 0x204) := by decide
theorem test_slli_absent : seen (.slli 5 5 32) (m32 1 0) (fun t => t.mcause) = some ⟨false, 2⟩ := by decide
theorem test_srli : x5 (.srli 5 5 31) (m32 0x80000000 0) = some (1, 0x204) := by decide
theorem test_srai : x5 (.srai 5 5 31) (m32 0x80000000 0) = some (0xFFFFFFFF, 0x204) := by decide
theorem test_add : x5 (.add 5 5 6) (m32 0xFFFFFFFF 1) = some (0, 0x204) := by decide
theorem test_sub : x5 (.sub 5 5 6) (m32 0 1) = some (0xFFFFFFFF, 0x204) := by decide
theorem test_sll : x5 (.sll 5 5 6) (m32 1 33) = some (2, 0x204) := by decide
theorem test_slt : x5 (.slt 5 5 6) (m32 0xFFFFFFFF 1) = some (1, 0x204) := by decide
theorem test_sltu : x5 (.sltu 5 0 6) (m32 0 7) = some (1, 0x204) := by decide
theorem test_xor : x5 (.xor 5 5 5) (m32 0x1234 0) = some (0, 0x204) := by decide
theorem test_srl : x5 (.srl 5 5 6) (m32 0x80000000 4) = some (0x08000000, 0x204) := by decide
theorem test_sra : x5 (.sra 5 5 6) (m32 0x80000000 4) = some (0xF8000000, 0x204) := by decide
theorem test_or : x5 (.or 5 5 6) (m32 0xF0 0x0F) = some (0xFF, 0x204) := by decide
theorem test_and : x5 (.and 5 5 6) (m32 0xF0 0x3C) = some (0x30, 0x204) := by decide
theorem test_addiw : x5 (.addiw 5 5 0) (m64 0xFFFFFFFF 0) = some (0xFFFFFFFFFFFFFFFF, 0x204) := by decide
theorem test_addiw_absent : seen (.addiw 5 5 0) (m32 1 0) (fun t => t.mcause) = some ⟨false, 2⟩ := by decide
theorem test_slliw : x5 (.slliw 5 5 31) (m64 1 0) = some (0xFFFFFFFF80000000, 0x204) := by decide
theorem test_srliw : x5 (.srliw 5 5 31) (m64 0xFFFFFFFF80000000 0) = some (1, 0x204) := by decide
theorem test_sraiw : x5 (.sraiw 5 5 31) (m64 0x80000000 0) = some (0xFFFFFFFFFFFFFFFF, 0x204) := by decide
theorem test_addw : x5 (.addw 5 5 6) (m64 0x7FFFFFFF 1) = some (0xFFFFFFFF80000000, 0x204) := by decide
theorem test_subw : x5 (.subw 5 5 6) (m64 0 1) = some (0xFFFFFFFFFFFFFFFF, 0x204) := by decide
theorem test_sllw : x5 (.sllw 5 5 6) (m64 3 32) = some (3, 0x204) := by decide
theorem test_srlw : x5 (.srlw 5 5 6) (m64 0x80000000 0) = some (0xFFFFFFFF80000000, 0x204) := by decide
theorem test_sraw : x5 (.sraw 5 5 6) (m64 0x80000000 4) = some (0xFFFFFFFFF8000000, 0x204) := by decide
theorem test_fence : x5 (.fence 0 15 15 0 0) (m32 7 0) = some (7, 0x204) := by decide
theorem test_fenceI : x5 (.fenceI 0 0 0) (m32 7 0) = some (7, 0x204) := by decide

/-! ### The CSR instructions -/

/-- `x5`, `mscratch` and the pc. -/
def scratch (i : Instr) (s : State) : Option (Word × Word × Word) := seen i s fun t => (t.readX 5, t.mscratch, t.pc)

/-- T19. -/
theorem test_csrrw :
    scratch (.csrrw 5 0x340 5) { m32 0x22 0 with mscratch := 0x11 } = some (0x11, 0x22, 0x204) := by decide
/-- T6, and T32's refusal. -/
theorem test_csrrw_refused :
    seen (.csrrw 0 0x142 5) (at200 c32 .supervisor) (fun t => (t.mcause, t.pc)) = some (⟨false, 2⟩, 0x140) ∧
    seen (.csrrw 0 0x300 5) (m32 0xFFFFFFFF 0) (fun _ => ()) = none := by decide
/-- T20. -/
theorem test_csrrs :
    scratch (.csrrs 5 0x340 6) { m32 0 0x0F with mscratch := 0xF0 } = some (0xF0, 0xFF, 0x204) := by decide
/-- T1 and T2. -/
theorem test_csrrs_cycle :
    seen (.csrrs 5 0xC00 0) { at200 c32 .user with cycle := 0x123456789 } (fun t => t.readX 5) = some 0x23456789 ∧
    seen (.csrrs 0 0xC00 5) (at200 c32 .user) (fun t => (t.mcause, t.pc)) = some (⟨false, 2⟩, 0x100) := by decide
/-- T21. -/
theorem test_csrrc :
    scratch (.csrrc 5 0x340 6) { m32 0 0x0F with mscratch := 0xFF } = some (0xFF, 0xF0, 0x204) := by decide
/-- T22b. -/
theorem test_csrrwi : scratch (.csrrwi 5 0x340 31) { m32 0 0 with mscratch := 0x11 } = some (0x11, 0x1F, 0x204) := by
  decide
/-- T22c. -/
theorem test_csrrwi_zero : scratch (.csrrwi 5 0x340 0) { m32 0 0 with mscratch := 0x11 } = some (0x11, 0x11, 0x204) := by
  decide
/-- T36d: the write-back of `PS`. -/
theorem test_csrrsi :
    seen (.csrrsi 0 0x100 1)
      { at200 c32 .supervisor with
        mstatus := ⟨⟨.supervisor, false⟩, ⟨.machine, false⟩, ⟨.user, true⟩, .off, .off, false, .mbare⟩ }
      (fun t => t.csrRead .mstatus) = some 0x53 := by decide
/-- T24. -/
theorem test_csrrci : scratch (.csrrci 5 0x340 3) { m32 0 0 with mscratch := 0x13 } = some (0x13, 0x10, 0x204) := by
  decide
/-- T33 and T35: any write of the compare register clears the latch, and a counter on the value sets it again. -/
theorem test_mtimecmp :
    seen (.csrrs 5 0x321 6) { m32 0 0 with mip := ⟨false, false, false, true⟩ } (fun t => (t.mtimecmp, t.mip.mti)) =
      some (0x1000, false) ∧
    seen (.csrrw 0 0x321 5) (m32 0 0) (fun t => t.mip.mti) = some true := by decide
/-- The smallest writable mask of R94: the spec's four values. -/
theorem test_mtvec :
    (fun v => mtvecWritten { c32 with mtvecMask := 0x80000100 } 0x100 v) <$>
        [0xFFFFFE00#64, 0x00000100#64, 0x80000000#64, 0x7FFFFFFF#64] =
      [0xFFFFFE00, 0x00000100, 0xFFFFFE00, 0x00000100] := by decide

/-! ### Privilege -/

/-- The privilege stack. -/
def stack (s : State) : List (Priv × Bool) :=
  [s.mstatus.e0, s.mstatus.e1, s.mstatus.e2].map fun e => (e.prv, e.ie)

/-- T40: the environment call of U-mode. -/
theorem test_ecall :
    seen .ecall (at200 c32 .user) (fun t => (t.mepc, t.mcause, t.pc, stack t)) =
      some (0x200, ⟨false, 8⟩, 0x100, [(.machine, false), (.user, false), (.user, true)]) := by decide
/-- T41: delegated. -/
theorem test_ecall_delegated :
    seen .ecall { at200 c32 .user with mtdeleg := 0x100 } (fun t => (t.sepc, t.scause, t.pc, t.mepc, t.prv)) =
      some (0x200, ⟨false, 8⟩, 0x4000, 0, .supervisor) := by decide
/-- T45. -/
theorem test_ebreak : seen .ebreak (m32 0 0) (fun t => (t.mepc, t.mcause, t.pc)) = some (0x200, ⟨false, 3⟩, 0x1C0) := by
  decide
/-- T47. -/
theorem test_eret :
    seen .eret { m32 0 0 with mepc := 0x8000 } (fun t => (t.pc, stack t)) =
      some (0x8000, [(.user, true), (.user, true), (.user, true)]) := by decide
/-- T48: `sepc`, because executed in S. -/
theorem test_eret_supervisor :
    seen .eret { at200 c32 .supervisor with mepc := 0x9000, sepc := 0x1004 } (fun t => (t.pc, t.prv)) =
      some (0x1004, .user) := by decide
/-- T52. -/
theorem test_mrts :
    (let s := { m32 0 0 with mepc := 0x1000, mcause := ⟨false, 8⟩, mbadaddr := 0x55 }
     seen .mrts s (fun t => (t.sepc, t.scause, t.sbadaddr, t.pc)) = some (0x1000, ⟨false, 8⟩, 0x55, 0x4000) ∧
     seen .mrts s stack = some [(.supervisor, false), (.user, true), (.user, true)]) := by decide
/-- T54. -/
theorem test_mrts_supervisor : seen .mrts (at200 c32 .supervisor) (fun t => (t.mcause, t.pc)) = some (⟨false, 2⟩, 0x140) := by
  decide
/-- T56. -/
theorem test_mrth : seen .mrth (m32 0 0) (fun t => (t.mepc, t.mcause, t.pc)) = some (0x200, ⟨false, 2⟩, 0x1C0) := by
  decide
/-- T57. -/
theorem test_hrts : seen .hrts (m32 0 0) (fun t => (t.mepc, t.mcause, t.pc)) = some (0x200, ⟨false, 2⟩, 0x1C0) := by
  decide
/-- T58, with the choice to stall. -/
theorem test_wfi :
    seen .wfi { m32 0 0 with env := [{ EnvStep.idle with stall := true }] } (fun t => (t.pc, t.stalled)) =
      some (0x204, true) := by decide
/-- T59: with an interrupt pending the hart does not stall. -/
theorem test_wfi_pending :
    seen .wfi { m32 0 0 with mip := ⟨true, false, false, false⟩, env := [{ EnvStep.idle with stall := true }] }
      (fun t => (t.pc, t.stalled)) = some (0x204, false) := by decide

/-- A cached translation. -/
def cachedAt (va : Word) (asid : Word) (glob : Bool) : TcEntry := ⟨asid, glob, va, 0, 0x2B, 0x11008⟩

/-- R341: an address space and an address keep the global entry and the other pages. -/
theorem test_sfence :
    seen (.sfenceVm 5)
        { m32 0x402010 0 with
          sasid := 1, tc := [cachedAt 0x402000 1 false, cachedAt 0x402000 1 true, cachedAt 0x403000 1 false] }
        (fun t => (t.tc, t.pc)) =
      some ([cachedAt 0x402000 1 true, cachedAt 0x403000 1 false], 0x204) := by decide
/-- T59e. -/
theorem test_sfence_user : seen (.sfenceVm 0) (at200 c32 .user) (fun t => (t.mcause, t.pc)) = some (⟨false, 2⟩, 0x100) := by
  decide

/-! ## Translation: the tables of section 2.10 of 95_test_vectors.md -/

/-- The table entries the tests use. -/
def tables : Memory :=
  ((((Memory.writeWord [] 0x10004 4 0x4401).writeWord 0x1000C 4 0x100017).writeWord 0x10010 4 0x4801).writeWord
    0x11008 4 0x2000B).writeWord 0x12000 4 0x4C01

/-- A machine in a mode under Sv32 with these tables. -/
def paged (p : Priv) : State :=
  { at200 c32 p with
    mem := tables, sptbr := 0x10000, mstatus := { (at200 c32 p).mstatus with vm := .sv32 } }

/-- The physical address, and the word at an entry afterwards. -/
def walked (s : State) (va : Word) (acc : Access) (n pte : Nat) : Option Nat × Nat :=
  ((s.translate va acc n).place, (s.translate va acc n).after.mem.readNat pte 4)

/-- T64, T65, T66. -/
theorem test_walk :
    walked (paged .supervisor) 0x402010 .load 4 0x11008 = (some 0x80010, 0x2002B) ∧
    walked (paged .user) 0x402014 .store 4 0x11008 = (some 0x80014, 0x2006B) ∧
    walked (paged .user) 0x402000 .fetch 4 0x11008 = (none, 0x2000B) := by decide
/-- T69, T70, T72, T72c. -/
theorem test_walk_more :
    (walked (paged .supervisor) 0 .load 4 0x10000).1 = none ∧
    (walked (paged .supervisor) 0x1000000 .load 4 0x12000).1 = none ∧
    walked (paged .supervisor) 0xC01234 .load 4 0x1000C = (some 0x401234, 0x100037) ∧
    (walked (paged .machine) 0x402010 .load 4 0x11008).1 = some 0x402010 := by decide
/-- R258: a filled cache is used by the next access; it does not grant a store while its D bit is 0. -/
theorem test_cache :
    ((paged .supervisor).fillTc 0x402010 .load ⟨0x2000B, 0, 0x11008, false⟩ 0x2002B).tc = [] ∧
    (let s := { paged .supervisor with tc := [⟨0, false, 0x402000, 0, 0x4802B, 0x11008⟩]
                                       env := [{ EnvStep.idle with dataTc := ⟨some 0, false⟩ }] }
     (s.translate 0x402010 .load 4).place = some 0x120010 ∧ (s.translate 0x402010 .store 4).place = some 0x80010) := by
  decide

/-- A region that supports 4-byte loads and stores, and grants S both and U loads only (R196, R199, R201). -/
def device : Config :=
  { c32 with
    regions :=
      [⟨0x1000, 0x1000, [(.load, 4), (.store, 4)], [(.load, .user), (.load, .supervisor), (.store, .supervisor)]⟩] }

theorem test_physCheck :
    physCheck device 0x1FFC 4 .load .user true = true ∧ physCheck device 0x1FFC 8 .load .user true = false ∧
    physCheck device 0x1000 1 .load .supervisor true = false ∧ physCheck device 0x1000 4 .store .user true = false ∧
    physCheck device 0x1000 4 .store .supervisor true = true ∧ physCheck device 0x1000 4 .fetch .machine false = false ∧
    physCheck device 0x1000 4 .store .machine false = true ∧ physCheck device 0x1000 4 .store .machine true = false := by
  decide
/-- D12: the sum wraps at XLEN = 32 and keeps PALEN = 20 bits. -/
theorem test_boundedSum :
    boundedSum { c32 with palen := 20 } 0xFFF00010 0x1000 0xFF0 4 = some 0x1000 ∧
    boundedSum { c32 with palen := 20 } 0xFFFFF010 0x1000 0xFF0 4 = some 0 := by decide

/-! ## The configurations (R7, R33, R63, R78, R255) -/

/-- MCPUID names F where there is F, X where there is a host interface, and no extension that is absent. -/
theorem test_mcpuid :
    ({ c32 with hasF := true } : Config).admitted = false ∧
    ({ c32 with hasF := true, mcpuid := 0x00140120 } : Config).admitted = true ∧
    ({ c32 with hostInterface := true, mcpuid := 0x00940100 } : Config).admitted = true ∧
    ({ c32 with mcpuid := 0x00141100 } : Config).admitted = false ∧
    ({ c32 with mcpuid := 0 } : Config).admitted = true ∧
    ({ c32 with base := .rv32e, mcpuid := 0x40140010 } : Config).admitted = true := by decide
/-- Sv48 without Sv39, and an interception of M-mode. -/
theorem test_admitted :
    ({ Config.standard with hasSv39 := false } : Config).admitted = true ∧
    ({ c32 with trapLower := [(0x344, .machine, true)] } : Config).admitted = false ∧
    ({ c32 with trapLower := [(0x144, .supervisor, true)] } : Config).admitted = true := by decide

/-! ## The step -/

/-- What is seen of a step. -/
def stepped {α : Type} (s : State) (f : State → α) : Option α :=
  match step s with
  | .next t => some (f t)
  | .fault _ => none
  | .refused _ => none

/-- From reset with nothing placed: the word 0 is illegal, and the trap is taken from M-mode (R375, R95). -/
theorem test_step_reset : stepped State.reset (fun t => (t.mcause, t.mepc, t.pc)) = some (⟨false, 2⟩, 0x200, 0x1C0) := by
  decide
/-- T89 as the first instruction after reset. -/
theorem test_step_addi :
    stepped (State.reset.withFetchWord 32 0xFFF00293) (fun t => (t.readX 5, t.pc, t.instret)) =
      some (0xFFFFFFFFFFFFFFFF, 0x204, 1) := by decide
/-- T62b: a supervisor timer interrupt not delegated. -/
theorem test_step_interrupt :
    stepped { at200 c32 .user with mie := ⟨false, false, true, false⟩, mip := ⟨false, false, true, false⟩ }
        (fun t => (t.mepc, t.csrRead .mcause, t.pc, t.mip.sti)) = some (0x200, 0x80000001, 0x100, true) := by decide
/-- T62f: the counter passes through the compare value. -/
theorem test_step_timer :
    stepped { at200 c32 .machine with mtime := 0xFFF, env := [{ EnvStep.idle with ticks := 5 }] }
        (fun t => (t.mtime, t.mip.mti, t.env)) = some (0x1004, true, []) := by decide

/-! ## Witnesses: the hypotheses of the statements can be met, clause by clause -/

theorem witness_DecodeOfEncode :
    (Instr.jal 31 0x100000).wellFormed = true ∧ (Instr.beq 1 2 0xFFE).wellFormed = true ∧
    (Instr.fence 0 15 0 0 0).wellFormed = true ∧ (Instr.csrrw 31 0xFFF 31).wellFormed = true := by decide

theorem witness_EncodeOfDecode : decode 0x8000006F#32 = .ok (.jal 0 0x100000) := by decide

/-- One word for each way to be reserved. -/
theorem witness_ReservedWordsRefused :
    (0x30004073#32).extractLsb' 0 7 = 0x73#7 ∧ (0x30004073#32).extractLsb' 12 3 = 4#3 ∧
    (0x10100F73#32).extractLsb' 12 3 = 0#3 ∧ (0x10100F73#32).extractLsb' 7 5 ≠ 0#5 ∧
    (0x00008073#32).extractLsb' 15 5 ≠ 0#5 ∧ (0x00008073#32).extractLsb' 20 12 ≠ 0x101#12 ∧
    (0x00200073#32).extractLsb' 20 12 ∉
      [0x000#12, 0x001#12, 0x100#12, 0x101#12, 0x102#12, 0x205#12, 0x305#12, 0x306#12] ∧
    (0x00000002#32).extractLsb' 0 2 ≠ 3#2 := by decide

/-- `addi x5, x5, 4` placed where the machine starts. -/
def placed : State := State.reset.withFetchWord 32 0x00428293

theorem witness_StepRunsDecodedInstruction :
    placed.cfg.admitted = true ∧ placed.environment.staysStalled = false ∧
    placed.environment.woken.chooseIrq placed.environment.woken.now.irq = none ∧
    placed.environment.woken.pc.toNat % 4 = 0 ∧
    (placed.environment.woken.translate placed.environment.woken.pc .fetch 4).place = some 0x200 ∧
    (let m := (placed.environment.woken.translate placed.environment.woken.pc .fetch 4).after.mem
     decodeBytes [m.read 0x200, m.read 0x201, m.read 0x202, m.read 0x203] = .ok (.addi 5 5 4, [])) := by decide

/-- A machine with no memory at all: its fetch fails. -/
def nowhere : State := State.resetOf { Config.standard with regions := [] }

theorem witness_StepWithoutInstruction_fails :
    nowhere.cfg.admitted = true ∧ nowhere.environment.staysStalled = false ∧
    nowhere.environment.woken.chooseIrq nowhere.environment.woken.now.irq = none ∧
    nowhere.environment.woken.pc.toNat % 4 = 0 ∧
    (nowhere.environment.woken.translate nowhere.environment.woken.pc .fetch 4).place = none := by decide

theorem witness_StepWithoutInstruction_undecodable :
    State.reset.cfg.admitted = true ∧ State.reset.environment.staysStalled = false ∧
    State.reset.environment.woken.chooseIrq State.reset.environment.woken.now.irq = none ∧
    (State.reset.environment.woken.translate State.reset.environment.woken.pc .fetch 4).place = some 0x200 ∧
    decode (insnOfBytes ((State.reset.environment.woken.mem).read 0x200) 0 0 0) = .error .unknownOpcode := by decide

/-- Every source pending and enabled, in U-mode. -/
def noisy : State :=
  { at200 c32 .user with mie := ⟨true, true, true, true⟩, mip := ⟨true, true, true, true⟩ }

theorem witness_InterruptIsTaken :
    noisy.cfg.admitted = true ∧ noisy.environment.staysStalled = false ∧
    noisy.environment.woken.chooseIrq noisy.environment.woken.now.irq = some .mti ∧
    noisy.environment.woken.chooseIrq (.take .ssi) = some .ssi ∧
    noisy.environment.woken.chooseIrq (.take .msi) = some .msi ∧
    noisy.environment.woken.chooseIrq (.take .sti) = some .sti ∧
    noisy.environment.woken.now.irq = .first ∧ noisy.environment.woken.takeable .ssi = true := by decide

theorem witness_InterruptEnabling :
    (at200 c32 .user).prv = .user ∧ (at200 c32 .supervisor).prv = .supervisor ∧
    (at200 c32 .machine).prv = .machine := by decide

theorem witness_StallAndWake :
    c32.admitted = true ∧ ({ m32 0 0 with stalled := true } : State).environment.stalled = true ∧
    ({ m32 0 0 with stalled := true } : State).environment.mip.any = false ∧
    ({ m32 0 0 with stalled := true } : State).environment.now.wake = false ∧
    ({ noisy with stalled := true } : State).environment.stalled = true ∧
    ({ noisy with stalled := true } : State).environment.mip.ssi = true := by decide

theorem witness_EnvironmentActions :
    (∀ b, ((5, b) : Host.Cell) ∉ [((6, 1) : Host.Cell)]) ∧ c32.hostInterface = false := by decide

theorem witness_ResetState :
    c32.mtvecHome = .low ∧ ({ c32 with mtvecHome := .high } : Config).mtvecHome = .high := by decide

theorem witness_step : (stepped (m32 5 6) fun _ => ()) = some () := by decide

theorem witness_StepKeepsMemoryCanonical : (withBytes (m32 5 6) 0x1200FF).mem.wf = true := by decide

theorem witness_StepKeepsPcAligned : AlignedPc (m32 5 6) := ⟨rfl, rfl, rfl, rfl, rfl⟩

theorem witness_StepKeepsLegalStatus : LegalStatus (m32 5 6) :=
  ⟨rfl, rfl, rfl, rfl, fun _ => rfl, fun _ => rfl⟩

/-- A counter that stands on its compare value. -/
theorem witness_StepKeepsTimersLatched :
    TimersLatched { m32 5 6 with mtime := 0x700001000, mip := ⟨false, false, false, true⟩ } :=
  ⟨fun _ => rfl, fun _ h => absurd h (by decide)⟩

theorem witness_StepKeepsHardwiredZero : HardwiredZero (m32 5 6) :=
  ⟨fun h => absurd h (by decide), fun h => absurd h (by decide), by decide, rfl, by decide⟩

theorem witness_StepKeepsWidth : WidthOk (m32 0xFFFFFFFF 6) := by
  constructor <;> (unfold fits; decide)

theorem witness_TakingATrap :
    (at200 c32 .user).handlerMode .user 8 = .machine ∧
    ({ at200 c32 .user with mtdeleg := 0x100 } : State).handlerMode .user 8 = .supervisor ∧
    ({ at200 c32 .machine with mtdeleg := 0x100 } : State).handlerMode .machine 8 = .machine := by decide

/-- The same machine with two modes. -/
def c32mu : Config :=
  { c32 with modes := .mu, hasSv32 := false, mtdelegMask := 0, mcpuid := 0x00100100 }

theorem witness_EretReturns :
    (at200 c32 .user).prv = .user ∧ (at200 c32 .supervisor).prv ≠ .user ∧ (at200 c32 .machine).cfg.depth = 3 ∧
    (at200 c32mu .machine).prv ≠ .user ∧ (at200 c32mu .machine).cfg.depth = 2 ∧ c32mu.admitted = true := by decide

theorem witness_TrapRedirection :
    (at200 c32 .machine).prv = .machine ∧ (at200 c32 .machine).cfg.hasS = true ∧
    (at200 c32 .supervisor).prv ≠ .machine ∧ (at200 c32mu .machine).cfg.hasS = false := by decide

/-- A misaligned load and a timer interrupt in U-mode, where the trap is not delegated and where it is. -/
theorem witness_RedirectionEqualsDelegation :
    (at200 c32 .user).cfg.hasS = true ∧ (at200 c32 .user).prv ≠ .machine ∧
    (at200 c32 .user).mtdeleg.getLsbD Exc.loadMisaligned.code.toNat = false ∧
    ({ at200 c32 .user with mtdeleg := 0x10 } : State).mtdeleg.getLsbD Exc.loadMisaligned.code.toNat = true ∧
    fits (at200 c32 .user) (at200 c32 .user).stvec ∧
    (∃ u, exec .mrts ((at200 c32 .user).takeTrap false 4 4 0x200 (some 0x1002)) = .next u) ∧
    ∃ u, exec .mrts ((at200 c32 .user).takeTrap true 1 21 0x200 none) = .next u :=
  ⟨by decide, by decide, by decide, by decide, by unfold fits; decide, ⟨_, rfl⟩, _, rfl⟩

theorem witness_ModeChanges :
    (seen .ecall (at200 c32 .user) State.prv = some .machine) ∧ (seen .eret (m32 0 0) State.prv = some .user) ∧
    (seen .mrts (m32 0 0) State.prv = some .supervisor) ∧
    (seen (.csrrw 0 0x300 5) (m32 0x48 0) State.prv = some .user) := by decide

theorem witness_UserModeConfinement :
    (at200 c32 .user).prv = .user ∧ (seen .ecall (at200 c32 .user) fun t => t.instret) = some 0 ∧
    (seen (.addi 5 0 1) (at200 c32 .user) fun t => t.instret) = some 1 := by decide

theorem witness_WfiCompletes : (at200 c32 .user).prv = .user ∧ (at200 c32 .supervisor).prv ≠ .user := by decide

theorem witness_SfenceVmRemoves :
    (at200 c32 .user).prv = .user ∧ (at200 c32 .supervisor).prv ≠ .user ∧
    (at200 c32 .supervisor).hasRegs [31] = true := by decide

/-- A register that may be written; no register at 0x7FF; a lower privilege; a read-only register; a trap a higher
level asked for; FS = Off. -/
theorem witness_CsrIllegalAccess :
    c32.admitted = true ∧ (m32 0 0).csrCheck 0x340 true = some .mscratch ∧ (m32 0 0).csrCheck 0x7FF false = none ∧
    csrAt c32 0x7FF = none ∧ prvNumber (at200 c32 .user).prv < (0x300#12).toNat / 256 % 4 ∧
    (csrAt c32 0xC00).map CsrRow.readOnly = some true ∧
    (0xC00#12, Priv.user, false) ∈ ({ c32 with trapLower := [(0xC00, .user, false)] } : Config).trapLower ∧
    (at200 c32 .user).mstatus.fs = .off := by decide

theorem witness_CsrReadOnlyForms :
    (at200 c32 .user).csrCheck 0xC00 false = some .cycle ∧ (at200 c32 .user).hasRegs [31] = true ∧
    c32.csrrwiZeroWrites = false := by decide

theorem witness_CsrWritingForms :
    (m32 1 2).csrCheck 0x340 true = some .mscratch ∧ (m32 1 2).csrCheck 0x902 true = some .instret ∧
    (m32 1 2).csrCheck 0x300 true = some .mstatus ∧ (m32 1 2).hasRegs [5, 5] = true ∧ (5#5 ≠ 0#5) ∧
    ((m32 1 2).csrWrite .mscratch 7).isSome = true ∧ ((m32 1 2).csrWrite .instret 7).isSome = true ∧
    ((m32 1 2).csrWrite .mstatus 0x4E).isSome = true ∧
    ({ c32 with csrrwiZeroWrites := true } : Config).csrrwiZeroWrites = true := by decide

theorem witness_OnlyUnsupportedStatusIsRefused :
    (m32 0xFFFFFFFF 0).csrCheck 0x300 true = some .mstatus ∧
    ((m32 0xFFFFFFFF 0).csrWrite .mstatus ((m32 0xFFFFFFFF 0).readX 5)).isNone = true ∧
    seen (.csrrw 0 0x300 5) (m32 0xFFFFFFFF 0) (fun t => t.pc) = none := by decide

theorem witness_CsrReadBack :
    fits (m32 0 0) 0xFFFFFFFF ∧ (m32 0 0).cfg.rv64 = false ∧ (m32 0 0).cfg.admitted = true ∧
    ∀ r ∈ [Csr.mscratch, .sscratch, .mbadaddr, .mbase, .mbound, .mibase, .mibound, .mdbase, .mdbound, .mtohost,
        .mfromhost, .cycle, .time, .instret, .mtime, .stime, .mepc, .sepc, .stvec, .sptbr, .sasid, .mtimecmp,
        .stimecmp, .mcause, .mtdeleg, .fflags, .frm, .fcsr, .cycleh, .timeh, .instreth, .mtimeh, .stimeh],
      ((m32 0 0).csrWrite r 0xFFFFFFFF).isSome = true := ⟨by unfold fits; decide, by decide, by decide, by decide⟩

/-- Accepted with three modes, with two and with one; refused for VM = 31 and for PRV = H. -/
theorem witness_MstatusWrite :
    ((m32 0 0).csrWrite .mstatus 0x001101FF).isSome = true ∧
    ((at200 c32mu .machine).csrWrite .mstatus 0x000101FF).isSome = true ∧ c32mu.depth ≠ 3 ∧ c32.depth = 3 ∧
    ((at200 { c32mu with modes := .m } .machine).csrWrite .mstatus 0).isSome = true ∧
    ((m32 0 0).csrWrite .mstatus 0xFFFFFFFF).isNone = true ∧ ((m32 0 0).csrWrite .mstatus 0x4).isNone = true := by decide

theorem witness_MstatusRead : (0x80000000#64 &&& ~~~c32.signBit) = (0#64 &&& ~~~c32.signBit) := by decide

theorem witness_CompareWriteClearsTimer :
    ((m32 0 0).csrWrite .mtimecmp 0).isSome = true ∧ ((m32 0 0).csrWrite .stimecmp 0xFFFFFFFF).isSome = true ∧
    ((m32 0 0).csrWrite .mtime 0x1000).isSome = true ∧ noisy.mip.mti = true ∧
    (noisy.csrWrite .mip 0).isSome = true := by decide

/-- No writable bit; the smallest mask, with bit 8 writable and bits 9 to 30 between it and the sign bit. -/
theorem witness_MtvecWrite :
    ({ c32 with mtvecMask := 0 } : Config).admitted = true ∧
    ({ c32 with mtvecMask := 0x80000100 } : Config).admitted = true ∧ (0x80000100#64).getLsbD 8 = true ∧
    (∀ k : Fin 31, 9 ≤ k.val → (0x80000100#64).getLsbD k.val = false) ∧ (0xFFFFFFFF#64).toNat < 2 ^ c32.xlen ∧
    ((m32 0 0).csrWrite .mtvec 0xFFFFFFFF).isSome = true := by decide

theorem witness_BaseBoundAccessPaths :
    c32.admitted = true ∧ c32.hasMbbid = true ∧ WidthOk (m32 5 6) ∧
    ({ c32 with hasMbbid := false } : Config).hasMbbid = false ∧
    ({ c32 with hasMbbid := false } : Config).admitted = true := by
  refine ⟨by decide, by decide, ?_, by decide, by decide⟩
  constructor <;> (unfold fits; decide)

theorem witness_FloatingPointCsrs :
    ({ c32 with hasF := true, mcpuid := 0 } : Config).admitted = true ∧ c32.hasF = false ∧
    (m32 0 0).mstatus.fs = .off ∧
    (let s := { at200 { c32 with hasF := true, mcpuid := 0 } .user with
                mstatus := { (at200 c32 .user).mstatus with fs := .initial } }
     s.csrCheck 0x003 true = some .fcsr ∧ (s.csrWrite .fcsr 0xFF).isSome = true) := by decide

/-- An instruction that writes `instret`, one that traps, and one that completes. -/
theorem witness_RetiresOrTraps :
    (seen (.csrrw 0 0x902 5) (m32 9 0) fun t => t.instret) = some 9 ∧ (seen .ebreak (m32 0 0) fun t => t.instret) = some 0 ∧
    (seen (.csrrs 5 0x902 0) (m32 9 0) fun t => t.instret) = some 1 := by decide

theorem witness_UntranslatedAccess :
    (m32 0 0).mstatus.vm = .mbare ∧ (paged .machine).effPriv .load = .machine ∧
    physCheck c32 (0xFFFFFFFF % 2 ^ c32.palen) 1 .load .machine false = true ∧
    physCheck nowhere.cfg (0x200 % 2 ^ nowhere.cfg.palen) 4 .fetch .machine false = false := by decide

theorem witness_EffectivePrivilege :
    (m32 0 0).mstatus.mprv = false ∧
    ({ m32 0 0 with mstatus := { (m32 0 0).mstatus with mprv := true } } : State).mstatus.mprv = true := by decide

/-- T63b, T63c: U-mode under Mbb, base 0x80000000, bound 0x1000. -/
def segmented (vm : Scheme) : State :=
  { at200 c32 .user with
    mibase := 0x80000000, mibound := 0x1000, mdbase := 0x80000000, mdbound := 0x1000
    mstatus := { (at200 c32 .user).mstatus with vm := vm } }

/-- The last word inside the bound, and the first one past it. -/
theorem witness_BaseAndBound :
    (segmented .mbb).mstatus.vm = .mbb ∧ (segmented .mbb).effPriv .load ≠ .machine ∧
    (0xFFC : Nat) + (4 - 1) < (0x1000#64).toNat ∧ (0x1000#64).toNat ≤ 0x1000 + (4 - 1) ∧
    ((segmented .mbb).translate 0xFFC .load 4).place = some 0x80000FFC ∧
    ((segmented .mbb).translate 0x1000 .load 4).place = none := by decide

/-- T63k to T63p: fetches at both ends of the instruction segment, and below it; data at the bound. -/
theorem witness_SplitBaseAndBound :
    (segmented .mbbid).mstatus.vm = .mbbid ∧ (segmented .mbbid).effPriv .fetch ≠ .machine ∧
    (0xFFFFFFFF#64).toNat < 2 ^ c32.xlen ∧ (0x7FFFFFFC#64).toNat < 2 ^ (c32.xlen - 1) ∧
    (0x80000FFC#64).toNat = 2 ^ (c32.xlen - 1) + 0xFFC ∧ (0x80001000#64).toNat = 2 ^ (c32.xlen - 1) + 0x1000 ∧
    ((segmented .mbbid).translate 0x80000FFC .fetch 4).place = some 0x80000FFC ∧
    ((segmented .mbbid).translate 0x80001000 .fetch 4).place = none ∧
    ((segmented .mbbid).translate 0x10 .fetch 4).place = none ∧
    ((segmented .mbbid).translate 0xFFC .store 4).place = some 0x80000FFC ∧
    ((segmented .mbbid).translate 0x1000 .store 4).place = none := by decide

theorem witness_WalkFindsTheLeaf :
    findLeaf c32 tables 0x402010 1 0x10000 false = some ⟨0x2000B, 0, 0x11008, false⟩ ∧
    findLeaf c32 tables 0 1 0x10000 false = none := by decide

/-- T75's address is not canonical; T69 finds no leaf; T66 finds one that forbids the access; T64 is translated, with
R to be set and its write allowed; a region that supports no store; a leaf marked already. -/
theorem witness_WalkOutcome :
    (m64 0 0).cfg.rv64 = true ∧ Scheme.sv39.vaBits ≤ 39 ∧
    (0x8000000000#64).getLsbD 39 ≠ (0x8000000000#64).getLsbD (Scheme.sv39.vaBits - 1) ∧
    findLeaf c32 tables 0 1 0x10000 false = none ∧
    permit ((0x2000B#64).extractLsb' 1 4) .fetch .user = false ∧
    ((paged .supervisor).walk 0x402010 .load .supervisor).place = some 0x80010 ∧ (paged .user).mem.wf = true ∧
    usedPte 0x2000B .load ≠ 0x2000B ∧ usedPte 0x2006B .store = 0x2006B ∧ c32.rv64 = false ∧
    physCheck c32 0x11008 (pteSize c32) .store .supervisor true = true ∧
    physCheck { c32 with regions := [⟨0, 0x100000, [(.load, 4)], Region.everyGrant⟩] } 0x11008 (pteSize c32) .store
      .supervisor true = false := by decide

theorem witness_LeafPermissions : 2 ≤ (2#4).toNat ∧ 2 ≤ (15#4).toNat := by decide

theorem witness_TranslationFrame :
    (m32 0 0).mstatus.vm.levels = 0 ∧ (paged .machine).effPriv .load = .machine ∧
    (paged .supervisor).walkedPte 0x402010 .load = some 0x11008 ∧
    (let s := { paged .supervisor with tc := [⟨0, false, 0x402000, 0, 0x4802B, 0x11008⟩]
                                       env := [{ EnvStep.idle with dataTc := ⟨some 0, false⟩ }] }
     (s.cached 0x402010 .load .supervisor).isSome = true) ∧
    (let s := { paged .supervisor with env := [{ EnvStep.idle with dataTc := ⟨none, true⟩ }] }
     s.effPriv .load ≠ .machine ∧ s.mstatus.vm = .sv32 ∧ (s.tcChoice .load).fill = true ∧
     s.cached 0x402010 .load .supervisor = none ∧ (s.walk 0x402010 .load .supervisor).place = some 0x80010 ∧
     (s.walk 0 .load .supervisor).place = none ∧
     (s.translate 0x402010 .load 4).after.tc = [⟨0, false, 0x402000, 0, 0x2002B, 0x11008⟩]) := by decide

theorem witness_registers :
    (m32 5 6).hasRegs [5, 5, 6] = true ∧ (m64 5 6).hasRegs [31, 0, 31] = true ∧ (31#6).toNat < c32.xlen ∧
    (63#6).toNat < Config.standard.xlen ∧ (m64 5 6).cfg.rv64 = true := by decide

theorem witness_JumpResults :
    ((m32 5 6).valueOf ((m32 5 6).pc.toNat + (8#21).toInt)).toNat % 4 = 0 ∧
    ((m32 5 6).valueOf ((m32 5 6).pc.toNat + (2#21).toInt)).toNat % 4 ≠ 0 ∧
    ((m32 5 6).valueOf (((m32 5 6).readX 5).toNat + (0#12).toInt) / 2 * 2).toNat % 4 = 0 ∧
    ((m32 6 6).valueOf ((((m32 6 6).readX 5).toNat + (0#12).toInt) / 2 * 2)).toNat % 4 ≠ 0 := by decide

theorem witness_BranchResults :
    ((m32 5 5).readX 5).toNat = ((m32 5 5).readX 6).toNat ∧ ¬((m32 5 6).readX 5).toNat = ((m32 5 6).readX 6).toNat ∧
    ((m32 5 5).valueOf ((m32 5 5).pc.toNat + (-4#13).toInt)).toNat % 4 = 0 ∧
    ((m32 5 5).valueOf ((m32 5 5).pc.toNat + (2#13).toInt)).toNat % 4 ≠ 0 := by decide

/-- A misaligned address; an aligned one with memory there; one with none. -/
theorem witness_LoadResults :
    ((m32 0x1002 0).address 5 (immI 0)).toNat % 4 ≠ 0 ∧ c32.misalignedOk = false ∧
    ((m32 0x1000 0).address 5 (immI 0)).toNat % 4 = 0 ∧
    ((m32 0x1000 0).translate 0x1000 .load 4).place = some 0x1000 ∧
    (nowhere.translate 0x1000 .load 4).place = none ∧ (m64 5 6).cfg.rv64 = true := by decide

theorem witness_StoreResults :
    (m32 0x1002 0).mem.wf = true ∧ ((m32 0x1002 0).address 5 (immS 0)).toNat % 4 ≠ 0 ∧
    ((m32 0x1000 0).address 5 (immS 0)).toNat % 4 = 0 ∧
    ((m32 0x1000 0).translate 0x1000 .store 4).place = some 0x1000 ∧ (nowhere.translate 0x1000 .store 4).place = none := by
  decide

theorem witness_LoadAfterStore :
    (m64 0x1000 7).mem.wf = true ∧ (m64 0x1000 7).hasRegs [5, 5, 6] = true ∧ (m64 0x1000 7).mstatus.vm = .mbare ∧
    ((m64 0x1000 7).address 5 (immS 0)).toNat % 8 = 0 ∧
    physCheck Config.standard 0x1000 8 .store .machine ((m64 0x1000 7).controlled .store) = true ∧
    physCheck Config.standard 0x1000 8 .load .machine ((m64 0x1000 7).controlled .load) = true ∧
    (m64 0x1000 7).effPriv .store = .machine ∧ (m64 0x1000 7).effPriv .load = .machine := by decide

/-- Under Sv32, the page of T64 with R and D set: the store's place is the load's, and the load marks no entry in
it. -/
theorem witness_LoadAfterStore_paged :
    ((paged .supervisor).translate 0x402010 .store 4).place = some 0x80010 ∧
    seen (.sw 5 6 0) ((paged .supervisor).setX 5 0x402010)
        (fun t => ((t.translate 0x402010 .load 4).place, t.walkedPte 0x402010 .load)) =
      some (some 0x80010, some 0x11008) := by decide

theorem witness_AbsentFormsAreIllegal :
    (at200 { c32 with base := .rv32e } .machine).hasRegs (namedRegs (.add 1 2 16)) = false ∧ c32.rv64 = false ∧
    32 ≤ (32#6).toNat := by decide

end Sys2Proof.Tests
end

/-! The reset values of `mtvec` and the pc as numbers, for both values of XLEN and both homes of the trap
vectors (10_state.md R44 to R47). -/

namespace Sys2Proof

/-- XLEN is at most 64, so the carry that a 64-bit sum drops is also dropped modulo 2^XLEN. -/
theorem Config.norm_add_toNat (c : Config) (v w : Word) : (c.norm (v + w)).toNat = (v.toNat + w.toNat) % 2 ^ c.xlen := by
  have hxlen : c.xlen ≤ 64 := by
    obtain ⟨-, h⟩ | ⟨-, h⟩ := c.xlen_cases <;> omega
  rw [c.norm_toNat, BitVec.toNat_add, Nat.mod_mod_of_dvd _ (Nat.pow_dvd_pow 2 hxlen)]

theorem Config.mtvecReset_toNat_of_low (c : Config) (h : c.mtvecHome = .low) : c.mtvecReset.toNat = 0x100 := by
  simp [Config.mtvecReset, h]

theorem Config.mtvecReset_toNat_of_high (c : Config) (h : c.mtvecHome = .high) :
    c.mtvecReset.toNat = 2 ^ c.xlen - 0x200 := by
  have hval : c.mtvecReset.toNat = (2 ^ 64 - 0x200) % 2 ^ c.xlen := by
    simp [Config.mtvecReset, h, Config.norm_toNat]
  obtain ⟨-, h64⟩ | ⟨-, h32⟩ := c.xlen_cases
  · simp [hval, h64]
  · simp [hval, h32]

namespace Machine

/-- The reset vector is 0x100 above the reset value of `mtvec` (R47). -/
theorem State.resetOf_pc_toNat (c : Config) :
    (State.resetOf c).pc.toNat = (c.mtvecReset.toNat + 0x100) % 2 ^ c.xlen :=
  c.norm_add_toNat c.mtvecReset 0x100

theorem State.resetOf_pc_toNat_of_low (c : Config) (h : c.mtvecHome = .low) :
    (State.resetOf c).pc.toNat = 0x200 := by
  rw [State.resetOf_pc_toNat, c.mtvecReset_toNat_of_low h]
  obtain ⟨-, h64⟩ | ⟨-, h32⟩ := c.xlen_cases
  · simp [h64]
  · simp [h32]

/-- The sum does not wrap: 2^XLEN - 0x200 + 0x100 stays below 2^XLEN. -/
theorem State.resetOf_pc_toNat_of_high (c : Config) (h : c.mtvecHome = .high) :
    (State.resetOf c).pc.toNat = 2 ^ c.xlen - 0x100 := by
  rw [State.resetOf_pc_toNat, c.mtvecReset_toNat_of_high h]
  obtain ⟨-, h64⟩ | ⟨-, h32⟩ := c.xlen_cases
  · simp [h64]
  · simp [h32]

/-- Settles O11: mode and scheme are fields of the reset state; `mtvec` and the pc go by the home of the trap
vectors. -/
theorem resetState : Obligations.ResetState := by
  intro c
  refine ⟨rfl, rfl, fun hlow => ⟨?mtvecLow, ?pcLow⟩, fun hhigh => ⟨?mtvecHigh, ?pcHigh⟩⟩
  case mtvecLow => exact c.mtvecReset_toNat_of_low hlow
  case pcLow => exact State.resetOf_pc_toNat_of_low c hlow
  case mtvecHigh => exact c.mtvecReset_toNat_of_high hhigh
  case pcHigh => exact State.resetOf_pc_toNat_of_high c hhigh

end Machine

end Sys2Proof

/-! The base and bound registers (11_machine_csrs.md R129): what their addresses reach, with `Mbbid` and
without. -/

namespace Sys2Proof

/-- R7 admits `Mbbid` only together with `Mbb`. -/
theorem Config.hasMbb_of_hasMbbid {c : Config} (hc : c.admitted = true) (h : c.hasMbbid = true) :
    c.hasMbb = true := by
  unfold Config.admitted at hc
  simp only [Bool.and_eq_true] at hc
  have himp : (!c.hasMbbid || c.hasMbb) = true := by tauto
  simpa [h] using himp

namespace Machine

/-- A register that holds an XLEN-bit value reads as it stands: the zero extension of R299 changes nothing. -/
theorem State.csrRead_of_fits {s : State} {r : Csr} (h : fits s (s.csrRaw r)) : s.csrRead r = s.csrRaw r :=
  s.cfg.norm_of_lt _ h

section WithMbbid
variable {s : State} (h : s.cfg.hasMbbid = true)
include h

theorem State.csrWrite_mbase_of_mbbid (v : Word) :
    s.csrWrite .mbase v = some { s with mibase := v, mdbase := v } := if_pos h

theorem State.csrWrite_mbound_of_mbbid (v : Word) :
    s.csrWrite .mbound v = some { s with mibound := v, mdbound := v } := if_pos h

theorem State.csrRead_mbase_of_mbbid (hw : WidthOk s) : s.csrRead .mbase = s.mdbase := by
  have hraw : s.csrRaw .mbase = s.mdbase := if_pos h
  rw [State.csrRead_of_fits (hraw ▸ hw.mdbase), hraw]

theorem State.csrRead_mbound_of_mbbid (hw : WidthOk s) : s.csrRead .mbound = s.mdbound := by
  have hraw : s.csrRaw .mbound = s.mdbound := if_pos h
  rw [State.csrRead_of_fits (hraw ▸ hw.mdbound), hraw]

end WithMbbid

section WithoutMbbid
variable {s : State} (h : s.cfg.hasMbbid = false)
include h

theorem State.csrWrite_mbase_of_no_mbbid (v : Word) : s.csrWrite .mbase v = some { s with mbase := v } :=
  if_neg (ne_true_of_eq_false h)

theorem State.csrWrite_mbound_of_no_mbbid (v : Word) : s.csrWrite .mbound v = some { s with mbound := v } :=
  if_neg (ne_true_of_eq_false h)

theorem State.csrRead_mbase_of_no_mbbid (hw : WidthOk s) : s.csrRead .mbase = s.mbase := by
  have hraw : s.csrRaw .mbase = s.mbase := if_neg (ne_true_of_eq_false h)
  rw [State.csrRead_of_fits (hraw ▸ hw.mbase), hraw]

theorem State.csrRead_mbound_of_no_mbbid (hw : WidthOk s) : s.csrRead .mbound = s.mbound := by
  have hraw : s.csrRaw .mbound = s.mbound := if_neg (ne_true_of_eq_false h)
  rw [State.csrRead_of_fits (hraw ▸ hw.mbound), hraw]

end WithoutMbbid

/-- Settles O39: the access paths where `Mbbid` is present, the registers' own storage where it is absent. -/
theorem baseBoundAccessPaths : Obligations.BaseBoundAccessPaths := by
  intro s v hadm hw
  refine ⟨fun hpresent => ⟨?mbb, ?paths⟩, fun habsent => ?own⟩
  case mbb => exact Config.hasMbb_of_hasMbbid hadm hpresent
  case paths =>
    exact ⟨State.csrWrite_mbase_of_mbbid hpresent v, State.csrWrite_mbound_of_mbbid hpresent v,
      State.csrRead_mbase_of_mbbid hpresent hw, State.csrRead_mbound_of_mbbid hpresent hw⟩
  case own =>
    exact ⟨State.csrWrite_mbase_of_no_mbbid habsent v, State.csrWrite_mbound_of_no_mbbid habsent v,
      State.csrRead_mbase_of_no_mbbid habsent hw, State.csrRead_mbound_of_no_mbbid habsent hw⟩

end Machine

end Sys2Proof

/-! The privilege an access is performed at (20_memory.md R183; 11_machine_csrs.md R80). -/

namespace Sys2Proof.Machine

/-- MPRV does not reach fetches. -/
@[simp] theorem State.effPriv_fetch (s : State) : s.effPriv .fetch = s.prv := if_neg fun h => h.1 rfl

theorem State.effPriv_of_mprv {s : State} {acc : Access} (hacc : acc ≠ .fetch) (h : s.mstatus.mprv = true) :
    s.effPriv acc = s.mstatus.e1.prv := if_pos ⟨hacc, h⟩

theorem State.effPriv_of_no_mprv {s : State} (acc : Access) (h : s.mstatus.mprv = false) :
    s.effPriv acc = s.prv := if_neg fun hboth => ne_true_of_eq_false h hboth.2

/-- Settles O43: PRV for a fetch; for a load or store by the value of MPRV. -/
theorem effectivePrivilege : Obligations.EffectivePrivilege := by
  intro s
  refine ⟨s.effPriv_fetch, fun hset => ⟨?load, ?store⟩, fun hclear => ?own⟩
  case load => exact State.effPriv_of_mprv (by decide) hset
  case store => exact State.effPriv_of_mprv (by decide) hset
  case own => exact ⟨State.effPriv_of_no_mprv .load hclear, State.effPriv_of_no_mprv .store hclear⟩

end Sys2Proof.Machine

/-! Encoding: every row of the opcode table reads back what its words are made of, and words that no row selects
(30_encoding.md R276, R277; 46_base_isa_general_knowledge.md R371 to R373, R432). -/

namespace Sys2Proof

/-! ## From an instruction to its word and back -/

namespace Laws

/-- The encodings, all of them: one row of the table selects the word and reads the instruction back. -/
theorem encodedRow (i : Instr) : EncodedRow.Statement i := by
  cases i
  case csrrw => exact EncodedRow.csrrw ..
  case csrrs => exact EncodedRow.csrrs ..
  case csrrc => exact EncodedRow.csrrc ..
  case csrrwi => exact EncodedRow.csrrwi ..
  case csrrsi => exact EncodedRow.csrrsi ..
  case csrrci => exact EncodedRow.csrrci ..
  case ecall => exact EncodedRow.ecall ..
  case ebreak => exact EncodedRow.ebreak ..
  case eret => exact EncodedRow.eret ..
  case sfenceVm => exact EncodedRow.sfenceVm ..
  case wfi => exact EncodedRow.wfi ..
  case hrts => exact EncodedRow.hrts ..
  case mrts => exact EncodedRow.mrts ..
  case mrth => exact EncodedRow.mrth ..
  case lui => exact EncodedRow.lui ..
  case auipc => exact EncodedRow.auipc ..
  case jal => exact EncodedRow.jal ..
  case jalr => exact EncodedRow.jalr ..
  case beq => exact EncodedRow.beq ..
  case bne => exact EncodedRow.bne ..
  case blt => exact EncodedRow.blt ..
  case bge => exact EncodedRow.bge ..
  case bltu => exact EncodedRow.bltu ..
  case bgeu => exact EncodedRow.bgeu ..
  case lb => exact EncodedRow.lb ..
  case lh => exact EncodedRow.lh ..
  case lw => exact EncodedRow.lw ..
  case lbu => exact EncodedRow.lbu ..
  case lhu => exact EncodedRow.lhu ..
  case sb => exact EncodedRow.sb ..
  case sh => exact EncodedRow.sh ..
  case sw => exact EncodedRow.sw ..
  case addi => exact EncodedRow.addi ..
  case slti => exact EncodedRow.slti ..
  case sltiu => exact EncodedRow.sltiu ..
  case xori => exact EncodedRow.xori ..
  case ori => exact EncodedRow.ori ..
  case andi => exact EncodedRow.andi ..
  case slli => exact EncodedRow.slli ..
  case srli => exact EncodedRow.srli ..
  case srai => exact EncodedRow.srai ..
  case add => exact EncodedRow.add ..
  case sub => exact EncodedRow.sub ..
  case sll => exact EncodedRow.sll ..
  case slt => exact EncodedRow.slt ..
  case sltu => exact EncodedRow.sltu ..
  case xor => exact EncodedRow.xor ..
  case srl => exact EncodedRow.srl ..
  case sra => exact EncodedRow.sra ..
  case or => exact EncodedRow.or ..
  case and => exact EncodedRow.and ..
  case lwu => exact EncodedRow.lwu ..
  case ld => exact EncodedRow.ld ..
  case sd => exact EncodedRow.sd ..
  case addiw => exact EncodedRow.addiw ..
  case slliw => exact EncodedRow.slliw ..
  case srliw => exact EncodedRow.srliw ..
  case sraiw => exact EncodedRow.sraiw ..
  case addw => exact EncodedRow.addw ..
  case subw => exact EncodedRow.subw ..
  case sllw => exact EncodedRow.sllw ..
  case srlw => exact EncodedRow.srlw ..
  case sraw => exact EncodedRow.sraw ..
  case fence => exact EncodedRow.fence ..
  case fenceI => exact EncodedRow.fenceI ..
end Laws

/-- Settles O1: the row that selects the word of `i` builds `i`, and no other row selects it. -/
theorem decodeOfEncode : Obligations.DecodeOfEncode := by
  intro i hwf
  obtain ⟨r, hmem, hsel, hbuild⟩ := Laws.encodedRow i
  rw [decode_of_row hmem hsel, hbuild hwf]

/-! ## From a word to its instruction and back, per format: the bits that the row looks at are those of the pattern,
the others those of the fields -/

section Formats
variable {w : Insn} {f3 : BitVec 3} {op : BitVec 7}

theorem encodeR_of_mask {f7 : BitVec 7} (h : w &&& 0xFE00707F#32 = encodeR f7 0 0 f3 0 op) :
    encodeR f7 (fieldRs2 w) (fieldRs1 w) f3 (fieldRd w) op = w := by
  apply BitVec.eq_of_getLsbD_eq
  intro i hi
  have hbit := congrArg (BitVec.getLsbD · i) h
  simp only [encodeR, fieldRd, fieldRs1, fieldRs2, BitVec.getLsbD_and, BitVec.getLsbD_append,
    BitVec.getLsbD_extractLsb'] at hbit ⊢
  interval_cases i <;> simp_all

theorem encodeI_of_mask (h : w &&& 0x0000707F#32 = encodeI 0 0 f3 0 op) :
    encodeI (fieldImmI w) (fieldRs1 w) f3 (fieldRd w) op = w := by
  apply BitVec.eq_of_getLsbD_eq
  intro i hi
  have hbit := congrArg (BitVec.getLsbD · i) h
  simp only [encodeI, fieldRd, fieldRs1, fieldImmI, BitVec.getLsbD_and, BitVec.getLsbD_append,
    BitVec.getLsbD_extractLsb'] at hbit ⊢
  interval_cases i <;> simp_all

theorem encodeI_of_mask_shift {f6 : BitVec 6} (h : w &&& 0xFC00707F#32 = encodeI (f6 ++ 0#6) 0 f3 0 op) :
    encodeI (f6 ++ fieldShamt6 w) (fieldRs1 w) f3 (fieldRd w) op = w := by
  apply BitVec.eq_of_getLsbD_eq
  intro i hi
  have hbit := congrArg (BitVec.getLsbD · i) h
  simp only [encodeI, fieldRd, fieldRs1, fieldShamt6, BitVec.getLsbD_and, BitVec.getLsbD_append,
    BitVec.getLsbD_extractLsb'] at hbit ⊢
  interval_cases i <;> simp_all

theorem encodeI_of_mask_sfence {imm : BitVec 12} {rd : Reg}
    (h : w &&& 0xFFF07FFF#32 = encodeI imm 0 f3 rd op) : encodeI imm (fieldRs1 w) f3 rd op = w := by
  apply BitVec.eq_of_getLsbD_eq
  intro i hi
  have hbit := congrArg (BitVec.getLsbD · i) h
  simp only [encodeI, fieldRs1, BitVec.getLsbD_and, BitVec.getLsbD_append, BitVec.getLsbD_extractLsb'] at hbit ⊢
  interval_cases i <;> simp_all

/-- A row that looks at every bit selects its pattern alone. -/
theorem eq_of_mask_allOnes {p : Insn} (h : w &&& 0xFFFFFFFF#32 = p) : p = w := by
  rw [← h, show (0xFFFFFFFF#32 : Insn) = BitVec.allOnes 32 from rfl, BitVec.and_allOnes]

theorem encodeS_of_mask (h : w &&& 0x0000707F#32 = encodeS 0 0 0 f3 op) :
    encodeS (fieldImmS w) (fieldRs2 w) (fieldRs1 w) f3 op = w := by
  apply BitVec.eq_of_getLsbD_eq
  intro i hi
  have hbit := congrArg (BitVec.getLsbD · i) h
  simp only [encodeS, fieldRs1, fieldRs2, fieldImmS, BitVec.getLsbD_and, BitVec.getLsbD_append,
    BitVec.getLsbD_extractLsb'] at hbit ⊢
  interval_cases i <;> simp_all

theorem encodeB_of_mask (h : w &&& 0x0000707F#32 = encodeB 0 0 0 f3 op) :
    encodeB (fieldImmB w) (fieldRs2 w) (fieldRs1 w) f3 op = w := by
  apply BitVec.eq_of_getLsbD_eq
  intro i hi
  have hbit := congrArg (BitVec.getLsbD · i) h
  simp only [encodeB, fieldRs1, fieldRs2, fieldImmB, BitVec.getLsbD_and, BitVec.getLsbD_append,
    BitVec.getLsbD_extractLsb'] at hbit ⊢
  interval_cases i <;> simp_all

theorem encodeU_of_mask (h : w &&& 0x0000007F#32 = encodeU 0 0 op) : encodeU (fieldImmU w) (fieldRd w) op = w := by
  apply BitVec.eq_of_getLsbD_eq
  intro i hi
  have hbit := congrArg (BitVec.getLsbD · i) h
  simp only [encodeU, fieldRd, fieldImmU, BitVec.getLsbD_and, BitVec.getLsbD_append,
    BitVec.getLsbD_extractLsb'] at hbit ⊢
  interval_cases i <;> simp_all

theorem encodeJ_of_mask (h : w &&& 0x0000007F#32 = encodeJ 0 0 op) : encodeJ (fieldImmJ w) (fieldRd w) op = w := by
  apply BitVec.eq_of_getLsbD_eq
  intro i hi
  have hbit := congrArg (BitVec.getLsbD · i) h
  simp only [encodeJ, fieldRd, fieldImmJ, BitVec.getLsbD_and, BitVec.getLsbD_append,
    BitVec.getLsbD_extractLsb'] at hbit ⊢
  interval_cases i <;> simp_all

/-- FENCE keeps its twelve upper bits in three fields. -/
theorem fence_fields (w : Insn) : fieldFm w ++ fieldPred w ++ fieldSucc w = fieldImmI w := by
  apply BitVec.eq_of_getLsbD_eq
  intro i hi
  simp only [fieldFm, fieldPred, fieldSucc, fieldImmI, BitVec.getLsbD_append, BitVec.getLsbD_extractLsb']
  interval_cases i <;> simp

end Formats

/-- What `r` builds from a word it selects is encoded by that word. -/
def Row.Faithful (r : Row) : Prop := ∀ w, w &&& r.mask = r.pattern → encode (r.build w) = w

theorem systemRows_faithful : ∀ r ∈ systemRows, r.Faithful := by
  simp only [systemRows, List.forall_mem_cons, List.not_mem_nil, false_imp_iff, implies_true, and_true]
  exact ⟨fun _ h => encodeI_of_mask h, fun _ h => encodeI_of_mask h, fun _ h => encodeI_of_mask h,
    fun _ h => encodeI_of_mask h, fun _ h => encodeI_of_mask h, fun _ h => encodeI_of_mask h,
    fun _ h => eq_of_mask_allOnes h, fun _ h => eq_of_mask_allOnes h, fun _ h => eq_of_mask_allOnes h,
    fun _ h => encodeI_of_mask_sfence h, fun _ h => eq_of_mask_allOnes h, fun _ h => eq_of_mask_allOnes h,
    fun _ h => eq_of_mask_allOnes h, fun _ h => eq_of_mask_allOnes h⟩

theorem jumpRows_faithful : ∀ r ∈ jumpRows, r.Faithful := by
  simp only [jumpRows, List.forall_mem_cons, List.not_mem_nil, false_imp_iff, implies_true, and_true]
  exact ⟨fun _ h => encodeU_of_mask h, fun _ h => encodeU_of_mask h, fun _ h => encodeJ_of_mask h,
    fun _ h => encodeI_of_mask h, fun _ h => encodeB_of_mask h, fun _ h => encodeB_of_mask h,
    fun _ h => encodeB_of_mask h, fun _ h => encodeB_of_mask h, fun _ h => encodeB_of_mask h,
    fun _ h => encodeB_of_mask h⟩

theorem memoryRows_faithful : ∀ r ∈ memoryRows, r.Faithful := by
  simp only [memoryRows, List.forall_mem_cons, List.not_mem_nil, false_imp_iff, implies_true, and_true]
  exact ⟨fun _ h => encodeI_of_mask h, fun _ h => encodeI_of_mask h, fun _ h => encodeI_of_mask h,
    fun _ h => encodeI_of_mask h, fun _ h => encodeI_of_mask h, fun _ h => encodeS_of_mask h,
    fun _ h => encodeS_of_mask h, fun _ h => encodeS_of_mask h⟩

theorem immediateRows_faithful : ∀ r ∈ immediateRows, r.Faithful := by
  simp only [immediateRows, List.forall_mem_cons, List.not_mem_nil, false_imp_iff, implies_true, and_true]
  exact ⟨fun _ h => encodeI_of_mask h, fun _ h => encodeI_of_mask h, fun _ h => encodeI_of_mask h,
    fun _ h => encodeI_of_mask h, fun _ h => encodeI_of_mask h, fun _ h => encodeI_of_mask h,
    fun _ h => encodeI_of_mask_shift h, fun _ h => encodeI_of_mask_shift h, fun _ h => encodeI_of_mask_shift h⟩

theorem registerRows_faithful : ∀ r ∈ registerRows, r.Faithful := by
  simp only [registerRows, List.forall_mem_cons, List.not_mem_nil, false_imp_iff, implies_true, and_true]
  exact ⟨fun _ h => encodeR_of_mask h, fun _ h => encodeR_of_mask h, fun _ h => encodeR_of_mask h,
    fun _ h => encodeR_of_mask h, fun _ h => encodeR_of_mask h, fun _ h => encodeR_of_mask h,
    fun _ h => encodeR_of_mask h, fun _ h => encodeR_of_mask h, fun _ h => encodeR_of_mask h,
    fun _ h => encodeR_of_mask h⟩

theorem wordRows_faithful : ∀ r ∈ wordRows, r.Faithful := by
  simp only [wordRows, List.forall_mem_cons, List.not_mem_nil, false_imp_iff, implies_true, and_true]
  exact ⟨fun _ h => encodeI_of_mask h, fun _ h => encodeI_of_mask h, fun _ h => encodeS_of_mask h,
    fun _ h => encodeI_of_mask h, fun _ h => encodeR_of_mask h, fun _ h => encodeR_of_mask h,
    fun _ h => encodeR_of_mask h, fun _ h => encodeR_of_mask h, fun _ h => encodeR_of_mask h,
    fun _ h => encodeR_of_mask h, fun _ h => encodeR_of_mask h, fun _ h => encodeR_of_mask h⟩

theorem fenceRows_faithful : ∀ r ∈ fenceRows, r.Faithful := by
  simp only [fenceRows, List.forall_mem_cons, List.not_mem_nil, false_imp_iff, implies_true, and_true]
  refine ⟨fun w h => ?_, fun _ h => encodeI_of_mask h⟩
  have hword : encodeI (fieldImmI w) (fieldRs1 w) 0x0#3 (fieldRd w) 0xF#7 = w := encodeI_of_mask h
  rw [← fence_fields] at hword
  exact hword

theorem opcodeRows_faithful : ∀ r ∈ opcodeRows, r.Faithful := by
  simp only [opcodeRows, List.forall_mem_append]
  exact ⟨⟨⟨⟨⟨⟨systemRows_faithful, jumpRows_faithful⟩, memoryRows_faithful⟩, immediateRows_faithful⟩,
    registerRows_faithful⟩, wordRows_faithful⟩, fenceRows_faithful⟩

/-- The instruction the decoder answers is built by a row that selects the word. -/
theorem decode_ok {w : Insn} {i : Instr} (h : decode w = .ok i) :
    ∃ r ∈ opcodeRows, w &&& r.mask = r.pattern ∧ r.build w = i := by
  unfold decode at h
  split at h
  · rename_i r hfind
    injection h with h
    exact ⟨r, List.mem_of_find?_eq_some hfind, by simpa [Row.selects] using List.find?_some hfind, h⟩
  · cases h

/-- Settles O2: the row that read the word is faithful. -/
theorem encodeOfDecode : Obligations.EncodeOfDecode := by
  intro w i h
  obtain ⟨r, hmem, hsel, rfl⟩ := decode_ok h
  exact opcodeRows_faithful r hmem w hsel

/-- Settles O3: the decoder runs on each of the words. -/
theorem specWordsDecode : Obligations.SpecWordsDecode := by
  unfold Obligations.SpecWordsDecode
  decide

/-! ## Words that no row selects -/

theorem decode_of_not_selected {w : Insn} (h : ∀ r ∈ opcodeRows, w &&& r.mask ≠ r.pattern) :
    decode w = .error (decodeError w) := by
  have hnone : opcodeRows.find? (fun r => r.selects w) = none := by
    rw [List.find?_eq_none]
    intro r hr
    simpa [Row.selects] using h r hr
  rw [decode, hnone]

/-- A field of which a row looks at every bit holds what the row's pattern holds there. -/
theorem field_of_mask {w mask pattern : Insn} (start len : Nat) (h : w &&& mask = pattern)
    (hmask : mask.extractLsb' start len = BitVec.allOnes len) :
    w.extractLsb' start len = pattern.extractLsb' start len := by
  rw [← h, BitVec.extractLsb'_and, hmask, BitVec.and_allOnes]

/-- Every row looks at the whole major opcode, and a major opcode ends in 11. -/
theorem opcodeRows_opcode : ∀ r ∈ opcodeRows,
    r.mask.extractLsb' 0 7 = BitVec.allOnes 7 ∧ r.pattern.extractLsb' 0 2 = 3#2 := by decide

/-- What the rows of the major opcode SYSTEM fix: the third function code, never 4; where that is 0, `rd` = x0 and the
twelve upper bits; and rs1 = x0 but for SFENCE.VM (R276). -/
theorem systemRows_fields : ∀ r ∈ opcodeRows, r.pattern.extractLsb' 0 7 = 0x73#7 →
    r.mask.extractLsb' 12 3 = BitVec.allOnes 3 ∧ r.pattern.extractLsb' 12 3 ≠ 4#3 ∧
    (r.pattern.extractLsb' 12 3 = 0#3 →
      (r.mask.extractLsb' 7 5 = BitVec.allOnes 5 ∧ r.pattern.extractLsb' 7 5 = 0#5) ∧
      r.mask.extractLsb' 20 12 = BitVec.allOnes 12 ∧
      r.pattern.extractLsb' 20 12 ∈ [0x000#12, 0x001#12, 0x100#12, 0x101#12, 0x102#12, 0x205#12, 0x305#12, 0x306#12] ∧
      (r.pattern.extractLsb' 20 12 = 0x101#12 ∨
        (r.mask.extractLsb' 15 5 = BitVec.allOnes 5 ∧ r.pattern.extractLsb' 15 5 = 0#5))) := by decide

theorem lowBits_of_mask {w mask pattern : Insn} (h : w &&& mask = pattern)
    (hmask : mask.extractLsb' 0 7 = BitVec.allOnes 7) (hpat : pattern.extractLsb' 0 2 = 3#2) :
    w.extractLsb' 0 2 = 3#2 := by
  rw [field_of_mask 0 2 h ?_, hpat]
  have hlow := congrArg (BitVec.extractLsb' 0 2) hmask
  rwa [BitVec.extractLsb'_extractLsb'_of_le (by decide)] at hlow

theorem decodeError_of_system {w : Insn} (h : w.extractLsb' 0 7 = 0x73#7) : decodeError w = .reservedSystem := by
  rw [decodeError, if_pos h]

theorem majorOpcodes_low : ∀ op ∈ majorOpcodes, op.extractLsb' 0 2 = 3#2 := by decide

theorem decodeError_of_low {w : Insn} (h : w.extractLsb' 0 2 ≠ 3#2) : decodeError w = .unknownOpcode := by
  have hnot : w.extractLsb' 0 7 ∉ majorOpcodes := by
    intro hmem
    apply h
    rw [← majorOpcodes_low _ hmem, BitVec.extractLsb'_extractLsb'_of_le (by decide)]
  have hsystem : w.extractLsb' 0 7 ≠ 0x73#7 := fun heq => hnot (by rw [heq]; decide)
  rw [decodeError, if_neg hsystem, if_neg (by simpa using hnot)]

/-- Settles O4: in the reserved words some field differs from what every row of SYSTEM fixes there; a word that does
not end in 11 has no major opcode. -/
theorem reservedWordsRefused : Obligations.ReservedWordsRefused := by
  intro w
  refine ⟨fun hop hreserved => ?system, fun hlow => ?low⟩
  case low =>
    rw [decode_of_not_selected fun r hr hsel => ?_, decodeError_of_low hlow]
    obtain ⟨hmask, hpat⟩ := opcodeRows_opcode r hr
    exact hlow (lowBits_of_mask hsel hmask hpat)
  case system =>
    rw [decode_of_not_selected fun r hr hsel => ?_, decodeError_of_system hop]
    have hpop : r.pattern.extractLsb' 0 7 = 0x73#7 := by
      rw [← field_of_mask 0 7 hsel (opcodeRows_opcode r hr).1, hop]
    obtain ⟨hm3, hne4, hzero⟩ := systemRows_fields r hr hpop
    have hf3 := field_of_mask 12 3 hsel hm3
    rcases hreserved with h4 | ⟨h0, hfield⟩
    · exact hne4 (hf3 ▸ h4)
    · obtain ⟨⟨hmrd, hrd⟩, hmimm, himm, hrs1⟩ := hzero (hf3 ▸ h0)
      have hfimm := field_of_mask 20 12 hsel hmimm
      rcases hfield with hrd' | ⟨hrs1', himm'⟩ | hmem
      · exact hrd' ((field_of_mask 7 5 hsel hmrd).trans hrd)
      · rcases hrs1 with h101 | ⟨hmrs1, hrs1⟩
        · exact himm' (hfimm.trans h101)
        · exact hrs1' ((field_of_mask 15 5 hsel hmrs1).trans hrs1)
      · exact hmem (hfimm ▸ himm)

end Sys2Proof

/-! The invariants: at reset, and kept by each kind of update, so by every step (`Kept.step`). -/

namespace Sys2Proof.Machine

/-! ## What MRTS leaves -/

/-- The state MRTS hands to S-mode, before it goes on at `stvec` (42_trap_redirect.md R321). -/
def State.redirected (s : State) : State :=
  { s with
    sepc := s.mepc, scause := s.mcause, sbadaddr := s.mbadaddr
    mstatus := { s.mstatus with e0 := ⟨.supervisor, s.mstatus.e0.ie⟩ } }

theorem execMrts_of_machine {s : State} (hp : s.prv = .machine) (hS : s.cfg.hasS = true) :
    execMrts s = .next (s.redirected.complete s.stvec) := by
  simp [execMrts, hp, hS, State.redirected]

theorem execMrts_next {s t : State} (hp : s.prv = .machine) (hS : s.cfg.hasS = true) (h : execMrts s = .next t) :
    t = s.redirected.complete s.stvec := by
  rw [execMrts_of_machine hp hS] at h
  injection h with h
  exact h.symm

/-! ## What a CSR write leaves in each register -/

/-- What a write of `v` to `r` can leave in each register that an invariant is about. -/
structure CsrWriteLeaves (s : State) (r : Csr) (v : Word) (u : State) : Prop where
  mtvec : u.mtvec = s.mtvec ∨ u.mtvec = mtvecWritten s.cfg s.mtvec v
  mepc : u.mepc = s.mepc ∨ u.mepc = align4 v
  sepc : u.sepc = s.sepc ∨ u.sepc = align4 v
  stvec : u.stvec = s.stvec ∨ u.stvec = align4 v
  sptbr : u.sptbr = s.sptbr ∨ u.sptbr = align4096 v
  sasid : u.sasid = s.sasid ∨ u.sasid = v &&& asidMask s.cfg
  mtdeleg : u.mtdeleg = s.mtdeleg ∨ u.mtdeleg = v &&& s.cfg.mtdelegMask
  mscratch : u.mscratch = s.mscratch ∨ u.mscratch = v
  mbadaddr : u.mbadaddr = s.mbadaddr ∨ u.mbadaddr = v
  mbase : u.mbase = s.mbase ∨ u.mbase = v
  mbound : u.mbound = s.mbound ∨ u.mbound = v
  mibase : u.mibase = s.mibase ∨ u.mibase = v
  mibound : u.mibound = s.mibound ∨ u.mibound = v
  mdbase : u.mdbase = s.mdbase ∨ u.mdbase = v
  mdbound : u.mdbound = s.mdbound ∨ u.mdbound = v
  mtohost : u.mtohost = s.mtohost ∨ u.mtohost = v
  mfromhost : u.mfromhost = s.mfromhost ∨ u.mfromhost = v
  sscratch : u.sscratch = s.sscratch ∨ u.sscratch = v
  sbadaddr : u.sbadaddr = s.sbadaddr
  mie : u.mie = s.mie ∨ u.mie = mieWritten s.cfg v ∨ r = .sie
  ssi : u.mip.ssi = s.mip.ssi ∨ u.mip.ssi = (s.cfg.hasS && v.getLsbD 1) ∨ r = .sip
  mti : (u.mip.mti = s.mip.mti ∧ u.mtime = s.mtime ∧ u.mtimecmp = s.mtimecmp) ∨
    u.mip.mti = (s.mip.mti || passes u.mtime u.mtimecmp 0) ∨ u.mip.mti = passes u.mtime u.mtimecmp 0
  sti : (u.mip.sti = s.mip.sti ∧ u.stime = s.stime ∧ u.stimecmp = s.stimecmp) ∨
    u.mip.sti = (s.mip.sti || (s.cfg.hasS && passes u.stime u.stimecmp 0)) ∨
    u.mip.sti = (s.cfg.hasS && passes u.stime u.stimecmp 0)
  mstatus : u.mstatus = s.mstatus ∨
    (r ∈ [Csr.fflags, .frm, .fcsr] ∧ u.mstatus = { s.mstatus with fs := .dirty }) ∨
    (r = .sstatus ∧ u.mstatus = s.mstatus.supervisorWritten s.cfg v) ∨
    (r = .mstatus ∧ s.mstatus.written s.cfg v = some u.mstatus)

theorem csrWrite_mstatus {s u : State} {v : Word} (h : s.csrWrite .mstatus v = some u) :
    ∃ m, s.mstatus.written s.cfg v = some m ∧ u = s.setMstatus m := by
  simp only [State.csrWrite] at h
  split at h
  · rename_i m hm
    injection h with h
    exact ⟨m, hm, h.symm⟩
  · cases h

theorem csrWrite_leaves {s u : State} {r : Csr} {v : Word} (h : s.csrWrite r v = some u) : CsrWriteLeaves s r v u := by
  cases r
  case mstatus =>
    obtain ⟨m, hm, rfl⟩ := csrWrite_mstatus h
    constructor <;> simp [hm]
  all_goals
    simp only [State.csrWrite] at h
    (try split at h) <;> cases h <;> constructor <;> simp [State.latchTimers, State.latched, IrqBits.mipWritten]

/-! ## Memory -/

theorem kept_memWf : Kept fun s => s.mem.wf = true where
  environment s _ h := Memory.wf_writeCells s.mem _ h
  popEnv _ h := h
  stalled _ _ h := h
  touched _ _ hu h := hu.wf h
  trap _ _ _ _ _ _ h := h
  setX _ _ _ h := h
  advance _ h := h
  setPc _ h := h
  complete _ _ _ h := h
  csr s a r v u _ _ hu h := by
    obtain ⟨hmem, -⟩ := csrWrite_frame hu
    rwa [hmem]
  eret _ _ _ h := h
  mrts s t hp hS ht h := by
    obtain rfl := execMrts_next hp hS ht
    exact h

/-- Settles O13: every update writes memory by `Memory.write`, or not at all. -/
theorem stepKeepsMemoryCanonical : Obligations.StepKeepsMemoryCanonical :=
  fun _ _ h hstep => kept_memWf.step hstep h

/-! ## Aligned instruction addresses -/

theorem lowZero_iff (v : Word) (n : Nat) : lowZero v n ↔ ∀ j < n, v.getLsbD j = false := by
  unfold lowZero
  constructor
  · intro h j hj
    have hbit := congrArg (Nat.testBit · j) h
    simpa [Nat.testBit_mod_two_pow, hj, BitVec.testBit_toNat] using hbit
  · intro h
    apply Nat.eq_of_testBit_eq
    intro j
    by_cases hj : j < n
    · simp [Nat.testBit_mod_two_pow, BitVec.testBit_toNat, h j hj]
    · simp [Nat.testBit_mod_two_pow, hj]

theorem lowZero_andNot (v m : Word) (n : Nat) (hm : ∀ j < n, m.getLsbD j = true) : lowZero (v &&& ~~~m) n := by
  rw [lowZero_iff]
  intro j hj
  simp [hm j hj]

theorem lowZero_align4 (v : Word) : lowZero (align4 v) 2 := lowZero_andNot v 3#64 2 (by decide)

theorem lowZero_align4096 (v : Word) : lowZero (align4096 v) 12 := lowZero_andNot v 0xFFF#64 12 (by decide)

/-- The test that `exec` makes of a jump target. -/
theorem and_three_eq_zero (v : Word) : v &&& 3 = 0 ↔ lowZero v 2 := by
  have h3 : (v &&& 3).toNat = v.toNat % 2 ^ 2 := by
    rw [BitVec.toNat_and]
    exact Nat.and_two_pow_sub_one_eq_mod v.toNat 2
  rw [lowZero, ← h3, BitVec.toNat_eq]
  rfl

theorem lowZero_norm (c : Config) {v : Word} {n : Nat} (hn : n ≤ 32) (h : lowZero v n) : lowZero (c.norm v) n := by
  rw [lowZero, c.norm_mod v n hn]
  exact h

theorem lowZero_add {v w : Word} (hv : lowZero v 2) (hw : lowZero w 2) : lowZero (v + w) 2 := by
  unfold lowZero at *
  rw [BitVec.toNat_add]
  omega

theorem lowZero_machineVector {s : State} (h : lowZero s.mtvec 2) (p : Priv) : lowZero (s.machineVector p) 2 := by
  apply lowZero_norm _ (by decide)
  apply lowZero_add h
  cases p <;> rfl

theorem lowZero_mtvecWritten (c : Config) {old : Word} (v : Word) (h : lowZero old 2) :
    lowZero (mtvecWritten c old v) 2 := by
  unfold mtvecWritten
  split
  · exact h
  · exact lowZero_norm _ (by decide) (lowZero_andNot _ 3#64 2 (by decide))

theorem kept_alignedPc : Kept AlignedPc where
  environment _ _ h := ⟨h.pc, h.mepc, h.sepc, h.mtvec, h.stvec⟩
  popEnv _ h := ⟨h.pc, h.mepc, h.sepc, h.mtvec, h.stvec⟩
  stalled _ _ h := ⟨h.pc, h.mepc, h.sepc, h.mtvec, h.stvec⟩
  touched _ _ hu h := by
    rw [hu.frame]
    exact ⟨h.pc, h.mepc, h.sepc, h.mtvec, h.stvec⟩
  trap s _ _ d _ _ h := by
    constructor <;> simp only [State.takeTrap]
    case pc =>
      split
      · exact h.stvec
      · exact lowZero_machineVector h.mtvec _
    case mepc => split <;> first | exact h.mepc | exact h.pc
    case sepc => split <;> first | exact h.pc | exact h.sepc
    case mtvec => exact h.mtvec
    case stvec => exact h.stvec
  setX _ _ _ h := ⟨h.pc, h.mepc, h.sepc, h.mtvec, h.stvec⟩
  advance _ h := ⟨lowZero_norm _ (by decide) (lowZero_add h.pc rfl), h.mepc, h.sepc, h.mtvec, h.stvec⟩
  setPc _ h := ⟨lowZero_norm _ (by decide) (lowZero_add h.pc rfl), h.mepc, h.sepc, h.mtvec, h.stvec⟩
  complete _ _ ha h :=
    ⟨lowZero_norm _ (by decide) ((and_three_eq_zero _).1 ha), h.mepc, h.sepc, h.mtvec, h.stvec⟩
  csr s a r v u _ _ hu h := by
    obtain ⟨-, -, hpc, -⟩ := csrWrite_frame hu
    have hw := csrWrite_leaves hu
    constructor
    case pc => rw [hpc]; exact h.pc
    case mepc => rcases hw.mepc with e | e <;> rw [e]; exacts [h.mepc, lowZero_align4 v]
    case sepc => rcases hw.sepc with e | e <;> rw [e]; exacts [h.sepc, lowZero_align4 v]
    case mtvec => rcases hw.mtvec with e | e <;> rw [e]; exacts [h.mtvec, lowZero_mtvecWritten _ v h.mtvec]
    case stvec => rcases hw.stvec with e | e <;> rw [e]; exacts [h.stvec, lowZero_align4 v]
  eret s target ht h := by
    refine ⟨lowZero_norm _ (by decide) ?_, h.mepc, h.sepc, h.mtvec, h.stvec⟩
    rcases ht with rfl | rfl
    · exact h.sepc
    · exact h.mepc
  mrts s t hp hS ht h := by
    obtain rfl := execMrts_next hp hS ht
    exact ⟨lowZero_norm _ (by decide) h.stvec, h.mepc, h.mepc, h.mtvec, h.stvec⟩

/-- Settles O14: the pc comes from `mepc`, `sepc`, `stvec`, `mtvec`, itself plus 4, or a jump target that was tested;
these registers from the pc, or from a write that clears their low bits. -/
theorem stepKeepsPcAligned : Obligations.StepKeepsPcAligned :=
  fun _ _ h hstep => kept_alignedPc.step hstep h

/-! ## Supported modes and schemes -/

theorem Config.supports_lowest (c : Config) : c.supports c.lowest = true := by
  cases hm : c.modes <;> simp [Config.supports, Config.lowest, hm]

theorem Config.supports_machine (c : Config) : c.supports .machine = true := by
  cases hm : c.modes <;> simp [Config.supports]

/-- S-mode comes with U-mode. -/
theorem Config.supports_of_hasS {c : Config} (h : c.hasS = true) (p : Priv) : c.supports p = true := by
  revert h
  cases hm : c.modes <;> cases p <;> simp [Config.hasS, Config.supports, hm]

theorem hasS_of_delegated {s : State} {p : Priv} {d : Nat} (h : s.delegated p d = true) : s.cfg.hasS = true := by
  simp only [State.delegated, Bool.and_eq_true] at h
  exact h.1.1

theorem LegalStatus.of_eq {s t : State} (h : LegalStatus s) (hc : t.cfg = s.cfg) (hm : t.mstatus = s.mstatus) :
    LegalStatus t := by
  constructor <;> rw [hc, hm]
  exacts [h.prv, h.prv1, h.prv2, h.vm, h.fs, h.xs]

theorem LegalStatus.push {s : State} (h : LegalStatus s) {target : Priv} (ht : s.cfg.supports target = true) :
    LegalStatus (s.setMstatus (s.mstatus.push s.cfg target)) where
  prv := ht
  prv1 := h.prv
  prv2 := by
    simp only [State.setMstatus, Mstatus.push]
    split
    · exact h.prv1
    · exact h.prv2
  vm := h.vm
  fs := h.fs
  xs := h.xs

theorem LegalStatus.pop {s : State} (h : LegalStatus s) : LegalStatus (s.setMstatus (s.mstatus.pop s.cfg)) where
  prv := h.prv1
  prv1 := by
    simp only [State.setMstatus, Mstatus.pop]
    split
    · exact h.prv2
    · exact Config.supports_lowest _
  prv2 := by
    simp only [State.setMstatus, Mstatus.pop]
    split
    · exact Config.supports_lowest _
    · exact h.prv2
  vm := h.vm
  fs := h.fs
  xs := h.xs

/-- An accepted write of an entry leaves a supported mode there. -/
theorem supports_of_entry_written {old e : StackEntry} {c : Config} {v : BitVec 3} (h : old.written c v = some e)
    (hold : c.supports old.prv = true) : c.supports e.prv = true := by
  rcases entry_written h with ⟨-, rfl⟩ | ⟨-, -, he, -⟩
  · exact hold
  · exact he

theorem LegalStatus.written {s : State} (h : LegalStatus s) {v : Word} {m : Mstatus}
    (hm : s.mstatus.written s.cfg v = some m) : LegalStatus (s.setMstatus m) := by
  obtain ⟨e0, e1, e2, vm, h0, h1, h2, h3, rfl⟩ := mstatus_written hm
  constructor
  case prv => exact supports_of_entry_written h0 h.prv
  case prv1 => exact supports_of_entry_written h1 h.prv1
  case prv2 =>
    split at h2
    · exact supports_of_entry_written h2 h.prv2
    · cases h2
      exact h.prv2
  case vm => exact (scheme_written h3).2
  case fs => exact fun hF => by simp [fsWritten, show s.cfg.hasF = false from hF]
  case xs => exact fun hX => by simp [xsWritten, show s.cfg.hasXs = false from hX]

theorem LegalStatus.supervisorWritten {s : State} (h : LegalStatus s) (hS : s.cfg.hasS = true) (v : Word) :
    LegalStatus (s.setMstatus (s.mstatus.supervisorWritten s.cfg v)) where
  prv := h.prv
  prv1 := Config.supports_of_hasS hS _
  prv2 := h.prv2
  vm := h.vm
  fs := fun hF => by simp [Mstatus.supervisorWritten, fsWritten, show s.cfg.hasF = false from hF]
  xs := fun hX => by simp [Mstatus.supervisorWritten, xsWritten, show s.cfg.hasXs = false from hX]

theorem LegalStatus.dirtyFs {s : State} (h : LegalStatus s) (hF : s.cfg.hasF = true) : LegalStatus s.dirtyFs where
  prv := h.prv
  prv1 := h.prv1
  prv2 := h.prv2
  vm := h.vm
  fs := fun hno => absurd (show s.cfg.hasF = false from hno) (by simp [hF])
  xs := h.xs

theorem kept_legalStatus : Kept LegalStatus where
  environment _ _ h := h.of_eq rfl rfl
  popEnv _ h := h.of_eq rfl rfl
  stalled _ _ h := h.of_eq rfl rfl
  touched _ _ hu h := h.of_eq (by rw [hu.frame]) (by rw [hu.frame])
  trap s _ _ d _ _ h := by
    refine (h.push (target := if s.delegated s.prv d then .supervisor else .machine) ?_).of_eq rfl rfl
    split
    · exact Config.supports_of_hasS (hasS_of_delegated ‹_›) _
    · exact Config.supports_machine _
  setX _ _ _ h := h.of_eq rfl rfl
  advance _ h := h.of_eq rfl rfl
  setPc _ h := h.of_eq rfl rfl
  complete _ _ _ h := h.of_eq rfl rfl
  csr s a r v u hcheck _ hu h := by
    obtain ⟨-, hcfg, -⟩ := csrWrite_frame hu
    rcases (csrWrite_leaves hu).mstatus with hm | ⟨hr, hm⟩ | ⟨rfl, hm⟩ | ⟨-, hm⟩
    · exact h.of_eq hcfg hm
    · exact (h.dirtyFs (hasF_of_csrCheck hcheck hr)).of_eq hcfg hm
    · exact (h.supervisorWritten (hasS_of_csrCheck hcheck (by decide)) v).of_eq hcfg hm
    · exact (h.written hm).of_eq hcfg rfl
  eret _ _ _ h := h.pop.of_eq rfl rfl
  mrts s t hp hS ht h := by
    obtain rfl := execMrts_next hp hS ht
    exact ⟨hS, h.prv1, h.prv2, h.vm, h.fs, h.xs⟩

/-- Settles O15: the modes come from the stack, a handler mode or an accepted write. -/
theorem stepKeepsLegalStatus : Obligations.StepKeepsLegalStatus :=
  fun _ _ h hstep => kept_legalStatus.step hstep h

/-! ## Timers -/

/-- A counter that advances by `k` passes a compare value where one of the values on the way has its low 32 bits. -/
theorem passes_iff (counter : BitVec 64) (compare : BitVec 32) (k : Nat) :
    passes counter compare k = true ↔ ∃ j ≤ k, (counter + BitVec.ofNat 64 j).setWidth 32 = compare := by
  unfold passes
  rw [decide_eq_true_eq]
  constructor
  · intro h
    refine ⟨_, h, ?_⟩
    apply BitVec.eq_of_toNat_eq
    have hlt := compare.isLt
    simp only [BitVec.toNat_setWidth, BitVec.toNat_add, BitVec.toNat_ofNat, BitVec.toNat_sub]
    omega
  · rintro ⟨j, hj, rfl⟩
    simp only [BitVec.toNat_setWidth, BitVec.toNat_add, BitVec.toNat_ofNat, BitVec.toNat_sub]
    omega

/-- A counter that stands on the compare value passes it. -/
theorem passes_of_eq {counter : BitVec 64} {compare : BitVec 32} (h : counter.setWidth 32 = compare) :
    passes counter compare 0 = true :=
  (passes_iff _ _ _).2 ⟨0, Nat.le_refl 0, by simpa using h⟩

theorem TimersLatched.of_eq {s t : State} (h : TimersLatched s) (hc : t.cfg = s.cfg) (hip : t.mip = s.mip)
    (hm : t.mtime = s.mtime) (hmc : t.mtimecmp = s.mtimecmp) (hs : t.stime = s.stime)
    (hsc : t.stimecmp = s.stimecmp) : TimersLatched t := by
  constructor
  · rw [hip, hm, hmc]; exact h.machine
  · rw [hc, hip, hs, hsc]; exact h.supervisor

theorem kept_timersLatched : Kept TimersLatched where
  environment s _ h := by
    have key : ∀ counter compare, (counter + BitVec.ofNat 64 s.now.ticks).setWidth 32 = compare →
        passes counter compare s.now.ticks = true := fun _ _ heq => (passes_iff _ _ _).2 ⟨_, Nat.le_refl _, heq⟩
    constructor
    · intro heq
      simp [State.environment, State.outsideIrqs, State.latched, key s.mtime s.mtimecmp heq]
    · intro hS heq
      simp [State.environment, State.outsideIrqs, State.latched, key s.stime s.stimecmp heq,
        show s.cfg.hasS = true from hS]
  popEnv _ h := h.of_eq rfl rfl rfl rfl rfl rfl
  stalled _ _ h := h.of_eq rfl rfl rfl rfl rfl rfl
  touched _ _ hu h := by
    rw [hu.frame]
    exact h.of_eq rfl rfl rfl rfl rfl rfl
  trap _ _ _ _ _ _ h := h.of_eq rfl rfl rfl rfl rfl rfl
  setX _ _ _ h := h.of_eq rfl rfl rfl rfl rfl rfl
  advance _ h := h.of_eq rfl rfl rfl rfl rfl rfl
  setPc _ h := h.of_eq rfl rfl rfl rfl rfl rfl
  complete _ _ _ h := h.of_eq rfl rfl rfl rfl rfl rfl
  csr s a r v u _ _ hu h := by
    obtain ⟨-, hcfg, -⟩ := csrWrite_frame hu
    have hw := csrWrite_leaves hu
    constructor
    · intro heq
      rcases hw.mti with ⟨hmti, ht, hc⟩ | hmti | hmti <;> rw [hmti]
      · exact h.machine (by rwa [← ht, ← hc])
      · simp [passes_of_eq heq]
      · exact passes_of_eq heq
    · intro hS heq
      rw [hcfg] at hS
      rcases hw.sti with ⟨hsti, ht, hc⟩ | hsti | hsti <;> rw [hsti]
      · exact h.supervisor hS (by rwa [← ht, ← hc])
      · simp [hS, passes_of_eq heq]
      · simp [hS, passes_of_eq heq]
  eret _ _ _ h := h.of_eq rfl rfl rfl rfl rfl rfl
  mrts s t hp hS ht h := by
    obtain rfl := execMrts_next hp hS ht
    exact h.of_eq rfl rfl rfl rfl rfl rfl

/-- Settles O16: a counter moves by the environment's ticks or a CSR write, a latch is cleared by a write of its
compare register alone; each sets the latch where the counter stands on the compare value. -/
theorem stepKeepsTimersLatched : Obligations.StepKeepsTimersLatched :=
  fun _ _ h hstep => kept_timersLatched.step hstep h

/-! ## The parameters, hardwired and absent bits -/

theorem kept_cfg (c : Config) : Kept fun s => s.cfg = c where
  environment _ _ h := h
  popEnv _ h := h
  stalled _ _ h := h
  touched _ _ hu h := by rwa [hu.frame]
  trap _ _ _ _ _ _ h := h
  setX _ _ _ h := h
  advance _ h := h
  setPc _ h := h
  complete _ _ _ h := h
  csr s a r v u _ _ hu h := by
    obtain ⟨-, hcfg, -⟩ := csrWrite_frame hu
    exact hcfg.trans h
  eret _ _ _ h := h
  mrts s t hp hS ht h := by
    obtain rfl := execMrts_next hp hS ht
    exact h

theorem and_asidMask_lt (c : Config) (v : Word) : (v &&& asidMask c).toNat < 2 ^ c.asidLen := by
  have hpos : 0 < 2 ^ c.asidLen := by positivity
  have hmask : (asidMask c).toNat ≤ 2 ^ c.asidLen - 1 := by
    rw [asidMask, BitVec.toNat_ofNat]
    exact Nat.mod_le _ _
  have hand : (v &&& asidMask c).toNat ≤ (asidMask c).toNat := by
    rw [BitVec.toNat_and]
    exact Nat.and_le_right
  omega

theorem and_mask_andNot (v m : Word) : v &&& m &&& ~~~m = 0 := by
  rw [BitVec.and_assoc, BitVec.and_not_self]
  exact BitVec.and_zero

theorem kept_hardwiredZero : Kept HardwiredZero where
  environment s _ h := by
    refine ⟨fun hS => ?_, h.mie, h.mtdeleg, h.sptbr, h.sasid⟩
    have hS' : s.cfg.hasS = false := hS
    obtain ⟨hssi, hsti⟩ := h.mip hS'
    simp [State.environment, State.outsideIrqs, State.latched, hssi, hsti, hS']
  popEnv _ h := ⟨h.mip, h.mie, h.mtdeleg, h.sptbr, h.sasid⟩
  stalled _ _ h := ⟨h.mip, h.mie, h.mtdeleg, h.sptbr, h.sasid⟩
  touched _ _ hu h := by
    rw [hu.frame]
    exact ⟨h.mip, h.mie, h.mtdeleg, h.sptbr, h.sasid⟩
  trap _ _ _ _ _ _ h := ⟨h.mip, h.mie, h.mtdeleg, h.sptbr, h.sasid⟩
  setX _ _ _ h := ⟨h.mip, h.mie, h.mtdeleg, h.sptbr, h.sasid⟩
  advance _ h := ⟨h.mip, h.mie, h.mtdeleg, h.sptbr, h.sasid⟩
  setPc _ h := ⟨h.mip, h.mie, h.mtdeleg, h.sptbr, h.sasid⟩
  complete _ _ _ h := ⟨h.mip, h.mie, h.mtdeleg, h.sptbr, h.sasid⟩
  csr s a r v u hcheck _ hu h := by
    obtain ⟨-, hcfg, -⟩ := csrWrite_frame hu
    have hw := csrWrite_leaves hu
    have hview : ∀ q ∈ [Csr.sip, .sie], r = q → s.cfg.hasS = false → False := by
      rintro q hq rfl hS
      have hSt := hasS_of_csrCheck hcheck (r := r) (by revert hq; simp; tauto)
      simp [hS] at hSt
    constructor
    case mip =>
      rw [hcfg]
      intro hS
      obtain ⟨hssi, hsti⟩ := h.mip hS
      constructor
      · rcases hw.ssi with e | e | e
        · rw [e, hssi]
        · simp [e, hS]
        · exact (hview .sip (by decide) e hS).elim
      · rcases hw.sti with ⟨e, -⟩ | e | e <;> simp [e, hS, hsti]
    case mie =>
      rw [hcfg]
      intro hS
      rcases hw.mie with e | e | e
      · rw [e]; exact h.mie hS
      · simp [e, mieWritten, hS]
      · exact (hview .sie (by decide) e hS).elim
    case mtdeleg =>
      rw [hcfg]
      rcases hw.mtdeleg with e | e <;> rw [e]
      exacts [h.mtdeleg, and_mask_andNot _ _]
    case sptbr =>
      rcases hw.sptbr with e | e <;> rw [e]
      exacts [h.sptbr, lowZero_align4096 v]
    case sasid =>
      rw [hcfg]
      rcases hw.sasid with e | e <;> rw [e]
      exacts [h.sasid, and_asidMask_lt _ v]
  eret _ _ _ h := ⟨h.mip, h.mie, h.mtdeleg, h.sptbr, h.sasid⟩
  mrts s t hp hS ht h := by
    obtain rfl := execMrts_next hp hS ht
    exact ⟨h.mip, h.mie, h.mtdeleg, h.sptbr, h.sasid⟩

/-- Settles O17: every write masks these bits, and the views of S-mode exist only with S-mode. -/
theorem stepKeepsHardwiredZero : Obligations.StepKeepsHardwiredZero :=
  fun s _ hstep => ⟨(kept_cfg s.cfg).step hstep rfl, kept_hardwiredZero.step hstep⟩

/-! ## Values of XLEN bits -/

theorem fits_zero (s : State) : fits s 0 := by
  unfold fits
  simp

theorem fits_norm (s : State) (v : Word) : fits s (s.cfg.norm v) := s.cfg.norm_lt v

theorem fits_of_norm {s : State} {v : Word} (h : s.cfg.norm v = v) : fits s v := h ▸ fits_norm s v

theorem fits_and {s : State} {v : Word} (h : fits s v) (m : Word) : fits s (v &&& m) := by
  have hle : (v &&& m).toNat ≤ v.toNat := by
    rw [BitVec.toNat_and]
    exact Nat.and_le_left
  exact Nat.lt_of_le_of_lt hle h

theorem fits_mtvecWritten {s : State} {old : Word} (h : fits s old) (v : Word) :
    fits s (mtvecWritten s.cfg old v) := by
  unfold mtvecWritten
  split
  · exact h
  · exact fits_norm _ _

theorem fits_badValue {s : State} {bad : Option Word} (h : ∀ a, bad = some a → fits s a) :
    fits s (s.badValue bad) := by
  cases bad with
  | none => exact fits_norm _ _
  | some a => exact h a rfl

theorem fits_setX {s : State} (h : ∀ r : Reg, fits s (s.x[r.toNat]'r.isLt)) (rd : Reg) (v : Word) (r : Reg) :
    fits s ((s.setX rd v).x[r.toNat]'r.isLt) := by
  simp only [State.setX]
  split
  · exact h r
  · by_cases heq : rd.toNat = r.toNat
    · simp only [heq, Vector.getElem_set_self]
      exact fits_norm _ _
    · rw [Vector.getElem_set_ne _ _ heq]
      exact h r

theorem WidthOk.csrWrite {s u : State} {r : Csr} {v : Word} (h : WidthOk s) (hv : fits s v)
    (hu : s.csrWrite r v = some u) : WidthOk u := by
  obtain ⟨-, hcfg, hpc, hx, -⟩ := csrWrite_frame hu
  have hw := csrWrite_leaves hu
  constructor <;> unfold fits <;> simp only [hcfg]
  case x => simp only [hx]; exact h.x
  case pc => rw [hpc]; exact h.pc
  case mtvec => rcases hw.mtvec with e | e <;> rw [e]; exacts [h.mtvec, fits_mtvecWritten h.mtvec v]
  case mtdeleg => rcases hw.mtdeleg with e | e <;> rw [e]; exacts [h.mtdeleg, fits_and hv _]
  case mscratch => rcases hw.mscratch with e | e <;> rw [e]; exacts [h.mscratch, hv]
  case mepc => rcases hw.mepc with e | e <;> rw [e]; exacts [h.mepc, fits_and hv _]
  case mbadaddr => rcases hw.mbadaddr with e | e <;> rw [e]; exacts [h.mbadaddr, hv]
  case mbase => rcases hw.mbase with e | e <;> rw [e]; exacts [h.mbase, hv]
  case mbound => rcases hw.mbound with e | e <;> rw [e]; exacts [h.mbound, hv]
  case mibase => rcases hw.mibase with e | e <;> rw [e]; exacts [h.mibase, hv]
  case mibound => rcases hw.mibound with e | e <;> rw [e]; exacts [h.mibound, hv]
  case mdbase => rcases hw.mdbase with e | e <;> rw [e]; exacts [h.mdbase, hv]
  case mdbound => rcases hw.mdbound with e | e <;> rw [e]; exacts [h.mdbound, hv]
  case mtohost => rcases hw.mtohost with e | e <;> rw [e]; exacts [h.mtohost, hv]
  case mfromhost => rcases hw.mfromhost with e | e <;> rw [e]; exacts [h.mfromhost, hv]
  case stvec => rcases hw.stvec with e | e <;> rw [e]; exacts [h.stvec, fits_and hv _]
  case sscratch => rcases hw.sscratch with e | e <;> rw [e]; exacts [h.sscratch, hv]
  case sepc => rcases hw.sepc with e | e <;> rw [e]; exacts [h.sepc, fits_and hv _]
  case sbadaddr => rw [hw.sbadaddr]; exact h.sbadaddr
  case sptbr => rcases hw.sptbr with e | e <;> rw [e]; exacts [h.sptbr, fits_and hv _]
  case sasid => rcases hw.sasid with e | e <;> rw [e]; exacts [h.sasid, fits_and hv _]

theorem WidthOk.takeTrap {s : State} (h : WidthOk s) (i : Bool) (c : BitVec 4) (d : Nat) {bad : Option Word}
    (hbad : ∀ a, bad = some a → fits s a) : WidthOk (s.takeTrap i c d s.pc bad) := by
  cases hd : s.delegated s.prv d
  · exact { h with
      pc := by simp only [State.takeTrap, hd]; exact fits_norm _ _
      mepc := by simp only [State.takeTrap, hd]; exact h.pc
      mbadaddr := by simp only [State.takeTrap, hd]; exact fits_badValue hbad
      sepc := by simp only [State.takeTrap, hd]; exact h.sepc
      sbadaddr := by simp only [State.takeTrap, hd]; exact h.sbadaddr }
  · exact { h with
      pc := by simp only [State.takeTrap, hd]; exact h.stvec
      mepc := by simp only [State.takeTrap, hd]; exact h.mepc
      mbadaddr := by simp only [State.takeTrap, hd]; exact h.mbadaddr
      sepc := by simp only [State.takeTrap, hd]; exact h.pc
      sbadaddr := by simp only [State.takeTrap, hd]; exact fits_badValue hbad }

theorem kept_widthOk : Kept WidthOk where
  environment s _ h := { h with
    mfromhost := by
      simp only [State.environment]
      split
      · exact fits_norm _ _
      · exact h.mfromhost }
  popEnv _ h := { h with }
  stalled _ _ h := { h with }
  touched _ _ hu h := by
    rw [hu.frame]
    exact { h with }
  trap s i c d bad hbad h := by
    refine h.takeTrap i c d fun a ha => ?_
    rcases hbad a ha with hn | rfl
    · exact fits_of_norm hn
    · exact h.pc
  setX _ rd v h := { h with x := fits_setX h.x rd v }
  advance _ h := { h with pc := fits_norm _ _ }
  setPc _ h := { h with pc := fits_norm _ _ }
  complete _ _ _ h := { h with pc := fits_norm _ _ }
  csr _ _ _ _ _ _ hv hu h := h.csrWrite (fits_of_norm hv) hu
  eret _ _ _ h := { h with pc := fits_norm _ _ }
  mrts s t hp hS ht h := by
    obtain rfl := execMrts_next hp hS ht
    exact { h with pc := fits_norm _ _, sepc := h.mepc, sbadaddr := h.mbadaddr }

/-- Settles O18: every value written is taken modulo 2^XLEN, or comes from a register that fits. -/
theorem stepKeepsWidth : Obligations.StepKeepsWidth :=
  fun _ _ h hstep => kept_widthOk.step hstep h

end Sys2Proof.Machine

/-! The invariants at reset (10_state.md R44 to R50), and the step (60_exceptions.md R480, R490). -/

namespace Sys2Proof.Machine

/-! ## Reset -/

theorem lowZero_mtvecReset (c : Config) : lowZero c.mtvecReset 2 := by
  unfold Config.mtvecReset
  split
  · exact lowZero_norm c (by decide) (show (0 - 0x200#64).toNat % 2 ^ 2 = 0 by decide)
  · rfl

theorem alignedPc_resetOf (c : Config) : AlignedPc (State.resetOf c) where
  pc := lowZero_norm c (by decide) (lowZero_add (lowZero_mtvecReset c) rfl)
  mepc := rfl
  sepc := rfl
  mtvec := lowZero_mtvecReset c
  stvec := rfl

theorem legalStatus_resetOf (c : Config) : LegalStatus (State.resetOf c) where
  prv := Config.supports_machine c
  prv1 := Config.supports_lowest c
  prv2 := Config.supports_lowest c
  vm := rfl
  fs _ := rfl
  xs _ := rfl

theorem hardwiredZero_resetOf (c : Config) : HardwiredZero (State.resetOf c) where
  mip h := ⟨rfl, h⟩
  mie _ := ⟨rfl, rfl⟩
  mtdeleg := BitVec.zero_and
  sptbr := rfl
  sasid := by
    change 0 < 2 ^ c.asidLen
    positivity

theorem fits_mtvecReset (c : Config) : fits (State.resetOf c) c.mtvecReset := by
  unfold Config.mtvecReset
  split
  · exact fits_norm (State.resetOf c) _
  · unfold fits
    obtain ⟨-, h⟩ | ⟨-, h⟩ := (State.resetOf c).cfg.xlen_cases <;> rw [h] <;> decide

theorem widthOk_resetOf (c : Config) : WidthOk (State.resetOf c) := by
  constructor
  case x =>
    intro r
    simp only [State.resetOf, Vector.getElem_replicate]
    exact fits_zero _
  case pc => exact fits_norm (State.resetOf c) _
  case mtvec => exact fits_mtvecReset c
  all_goals exact fits_zero _

/-- Settles O12: each invariant from the reset values of the registers it is about. -/
theorem invariantsAtReset : Obligations.InvariantsAtReset := fun c =>
  ⟨rfl, alignedPc_resetOf c, legalStatus_resetOf c, ⟨fun _ => rfl, fun hS _ => hS⟩, hardwiredZero_resetOf c,
    widthOk_resetOf c, rfl, rfl, rfl, rfl⟩

/-! ## What a trap leaves -/

theorem State.delegated_iff (s : State) (p : Priv) (d : Nat) :
    s.delegated p d = true ↔
      s.cfg.supports .supervisor = true ∧ p.level ≤ Priv.supervisor.level ∧ s.mtdeleg.getLsbD d = true := by
  simp only [State.delegated, Config.hasS, Bool.and_eq_true, decide_eq_true_eq, and_assoc]
  rfl

theorem State.handlerMode_eq (s : State) (p : Priv) (d : Nat) :
    s.handlerMode p d = if s.delegated p d then .supervisor else .machine := by
  simp only [State.handlerMode, ← s.delegated_iff]

theorem State.machineVector_toNat (s : State) (p : Priv) :
    (s.machineVector p).toNat = (s.mtvec.toNat + prvNumber p * 0x40) % 2 ^ s.cfg.xlen := by
  rw [State.machineVector, Config.norm_add_toNat, prvNumber_eq]
  congr 2
  cases p <;> rfl

theorem trapSaved_badValue (s : State) (epc : Word) (k : Cause) (bad : Option Word) :
    trapSaved epc k (s.badValue bad) k epc bad :=
  ⟨rfl, rfl, fun a ha => by rw [ha]; rfl⟩

section HandlerMode
variable {s : State} {d : Nat} (i : Bool) (c : BitVec 4) (epc : Word) (bad : Option Word)

theorem takeTrap_of_not_delegated (hd : s.delegated s.prv d = false) :
    s.takeTrap i c d epc bad =
      { s with
        mstatus := s.mstatus.push s.cfg .machine
        mepc := epc, mcause := ⟨i, c⟩, mbadaddr := s.badValue bad
        pc := s.machineVector s.prv, stalled := false, free := if bad.isNone then s.free + 1 else s.free } := by
  simp [State.takeTrap, hd]

theorem takeTrap_of_delegated (hd : s.delegated s.prv d = true) :
    s.takeTrap i c d epc bad =
      { s with
        mstatus := s.mstatus.push s.cfg .supervisor
        sepc := epc, scause := ⟨i, c⟩, sbadaddr := s.badValue bad
        pc := s.stvec, stalled := false, free := if bad.isNone then s.free + 1 else s.free } := by
  simp [State.takeTrap, hd]

end HandlerMode

/-- The trap of R460 is what the statements say of it, for both handler modes. -/
theorem takeTrap_entry (s : State) (i : Bool) (c : BitVec 4) (d : Nat) (epc : Word) (bad : Option Word) :
    TrapEntry s (s.takeTrap i c d epc bad) i c d epc bad := by
  have hmode := s.handlerMode_eq s.prv d
  cases hd : s.delegated s.prv d
  · rw [takeTrap_of_not_delegated i c epc bad hd]
    have hm : s.handlerMode s.prv d = .machine := by simpa [hd] using hmode
    exact {
      mode := hm.symm, masked := rfl, entry1 := rfl, entry2 := rfl, mprv := rfl, status := rfl
      toMachine := fun _ => ⟨trapSaved_badValue s _ _ _, rfl, rfl, rfl, State.machineVector_toNat s _⟩
      toSupervisor := fun h => absurd (hm.symm.trans h) (by decide)
      awake := rfl, registers := fun _ => rfl, retired := rfl, memory := fun _ => rfl, frame := rfl }
  · rw [takeTrap_of_delegated i c epc bad hd]
    have hm : s.handlerMode s.prv d = .supervisor := by simpa [hd] using hmode
    exact {
      mode := hm.symm, masked := rfl, entry1 := rfl, entry2 := rfl, mprv := rfl, status := rfl
      toMachine := fun h => absurd (hm.symm.trans h) (by decide)
      toSupervisor := fun _ => ⟨trapSaved_badValue s _ _ _, rfl, rfl, rfl, rfl⟩
      awake := rfl, registers := fun _ => rfl, retired := rfl, memory := fun _ => rfl, frame := rfl }

theorem raise_raised (s : State) (e : Exc) (bad : Option Word) : Raised s (s.raise e bad) e.code bad :=
  takeTrap_entry s false e.code e.code.toNat s.pc bad

theorem illegal_raised (s : State) : Raised s s.illegal 2 none := raise_raised s .illegal none

/-! ## The step -/

theorem step_of_admitted {s : State} (h : s.cfg.admitted = true) : step s = popOutcome s.environment.hart := if_pos h

theorem hart_of_interrupt {s : State} {i : Irq} (h : s.staysStalled = false)
    (hc : s.woken.chooseIrq s.now.irq = some i) : s.hart = .next (s.woken.takeInterrupt i) := by
  simp [State.hart, h, hc]

theorem hart_of_no_interrupt {s : State} (h : s.staysStalled = false) (hc : s.woken.chooseIrq s.now.irq = none) :
    s.hart = s.woken.runNext := by
  simp [State.hart, h, hc]

/-- Waking a hart that does not stay stalled changes nothing in its step. -/
theorem hart_woken {s : State} (h : s.staysStalled = false) : s.woken.hart = s.hart := by
  have hnow : s.woken.now = s.now := rfl
  cases hc : s.woken.chooseIrq s.now.irq with
  | some i => rw [hart_of_interrupt h hc, hart_of_interrupt (s := s.woken) rfl hc]; rfl
  | none => rw [hart_of_no_interrupt h hc, hart_of_no_interrupt (s := s.woken) rfl hc]; rfl

theorem step_of_no_interrupt {s : State} (ha : s.cfg.admitted = true) (hs : s.environment.staysStalled = false)
    (hc : s.environment.woken.chooseIrq s.environment.woken.now.irq = none) :
    step s = popOutcome s.environment.woken.runNext := by
  rw [step_of_admitted ha, hart_of_no_interrupt hs hc]

section Fetch
variable {s t : State} {pa : Nat}

/-- The word at a physical address. -/
def Memory.insnAt (m : Memory) (pa : Nat) : Insn :=
  insnOfBytes (m.read pa) (m.read (pa + 1)) (m.read (pa + 2)) (m.read (pa + 3))

theorem fetch_of_found (h : s.pc.toNat % 4 = 0) (ht : s.translate s.pc .fetch 4 = .found t pa) :
    s.fetch = .ok t (t.mem.insnAt pa) := by
  rw [State.fetch, if_neg (not_not.2 ((and_three_eq_zero _).2 h)), ht, Memory.insnAt]

theorem fetch_of_fail (h : s.pc.toNat % 4 = 0) (ht : s.translate s.pc .fetch 4 = .fail t) :
    s.fetch = .raises t .instrAccess := by
  rw [State.fetch, if_neg (not_not.2 ((and_three_eq_zero _).2 h)), ht, accessFault]

theorem runNext_of_fail (h : s.pc.toNat % 4 = 0) (ht : s.translate s.pc .fetch 4 = .fail t) :
    s.runNext = .next (t.raise .instrAccess (some s.pc)) := by
  rw [State.runNext, fetch_of_fail h ht]

theorem runNext_of_decoded {i : Instr} (h : s.pc.toNat % 4 = 0) (ht : s.translate s.pc .fetch 4 = .found t pa)
    (hd : decode (t.mem.insnAt pa) = .ok i) : s.runNext = exec i t := by
  simp only [State.runNext, fetch_of_found h ht, hd]

theorem runNext_of_refused {err : DecodeError} (h : s.pc.toNat % 4 = 0)
    (ht : s.translate s.pc .fetch 4 = .found t pa) (hd : decode (t.mem.insnAt pa) = .error err) :
    s.runNext = .next t.illegal := by
  simp only [State.runNext, fetch_of_found h ht, hd]

end Fetch

/-- Four bytes decode as the word they make. -/
theorem decode_of_decodeBytes {b0 b1 b2 b3 : Byte} {i : Instr} {rest : List Byte}
    (h : decodeBytes [b0, b1, b2, b3] = .ok (i, rest)) : decode (insnOfBytes b0 b1 b2 b3) = .ok i := by
  simp only [decodeBytes] at h
  split at h
  · rename_i j hj
    injection h with h
    injection h with h
    rw [hj, h]
  · cases h

/-- Settles O5: the step wakes the hart, fetches the four bytes and runs what they decode to. -/
theorem stepRunsDecodedInstruction : Obligations.StepRunsDecodedInstruction := by
  rintro s e t pa i ha rfl hs hc hpc ht hd
  rw [step_of_no_interrupt ha hs hc, runNext_of_decoded hpc ht (decode_of_decodeBytes hd)]

/-- Settles O6: the two ways in which no instruction is reached, each the trap of its exception. -/
theorem stepWithoutInstruction : Obligations.StepWithoutInstruction := by
  rintro s e ha rfl hs hc hpc
  refine ⟨fun t ht => ?fetchFails, fun t pa err ht hd => ?refused⟩
  case fetchFails =>
    exact ⟨_, by rw [step_of_no_interrupt ha hs hc, runNext_of_fail hpc ht]; rfl, raise_raised t .instrAccess _⟩
  case refused =>
    exact ⟨_, by rw [step_of_no_interrupt ha hs hc, runNext_of_refused hpc ht hd]; rfl, illegal_raised t⟩

/-! ## Interrupts -/

/-- Every choice is of a takeable source. -/
theorem takeable_of_chooseIrq {s : State} {choice : IrqChoice} {i : Irq} (h : s.chooseIrq choice = some i) :
    s.takeable i = true := by
  cases choice with
  | first => exact List.find?_some h
  | defer => cases h
  | take j =>
    simp only [State.chooseIrq] at h
    split at h
    · cases h
      assumption
    · cases h

theorem chooseIrq_first {s : State} {i : Irq} (h : s.takeable i = true) : ∃ j, s.chooseIrq .first = some j := by
  have hsome : ([Irq.mti, .sti, .msi, .ssi].find? s.takeable).isSome = true :=
    List.find?_isSome.2 ⟨i, by cases i <;> decide, h⟩
  exact Option.isSome_iff_exists.1 hsome

theorem irq_code (i : Irq) : i.code = if i = .ssi ∨ i = .msi then 0 else 1 := by cases i <;> rfl

theorem delegationBit_eq (i : Irq) : delegationBit i = 16 + i.bit := by cases i <;> rfl

theorem takeInterrupt_entry (s : State) (i : Irq) :
    TrapEntry s (s.takeInterrupt i) true (if i = .ssi ∨ i = .msi then 0 else 1) (delegationBit i) s.pc none := by
  rw [← irq_code, delegationBit_eq]
  exact takeTrap_entry s true i.code (16 + i.bit) s.pc none

/-- Settles O7: a choice is takeable, and the hart takes its trap before it fetches. -/
theorem interruptIsTaken : Obligations.InterruptIsTaken := by
  rintro s e ha rfl hs
  refine ⟨fun i hc => ⟨takeable_of_chooseIrq hc, _, ?taken, takeInterrupt_entry _ i⟩, fun hfirst ⟨i, hi⟩ => ?first⟩
  case taken =>
    have hsome : s.environment.woken.chooseIrq s.environment.now.irq = some i := hc
    rw [step_of_admitted ha, hart_of_interrupt hs hsome]
    rfl
  case first =>
    rw [hfirst]
    exact chooseIrq_first hi

theorem enabled_iff (s : State) (i : Irq) :
    s.enabled i = true ↔ s.mie.get i = true ∧
      (s.prv.level < i.level.level ∨ (i.level = s.prv ∧ s.mstatus.e0.ie = true)) := by
  simp [State.enabled]

/-- Settles O8: the general rule, and what it comes to in each mode. -/
theorem interruptEnabling : Obligations.InterruptEnabling := by
  intro s i
  refine ⟨enabled_iff s i, ?takeable, fun hp => ?user, fun hp => ?supervisor, fun hp => ?machine⟩
  case takeable => simp [State.takeable]
  case user => rw [enabled_iff, hp]; cases i <;> simp [Irq.level, Priv.level]
  case supervisor => rw [enabled_iff, hp]; cases i <;> simp [Irq.level, Priv.level]
  case machine => rw [enabled_iff, hp]; cases i <;> simp [Irq.level, Priv.level]

/-! ## Stall and wake -/

theorem any_iff (b : IrqBits) :
    b.any = true ↔ b.ssi = true ∨ b.msi = true ∨ b.sti = true ∨ b.mti = true := by
  simp [IrqBits.any, or_assoc]

/-- Settles O9: a stalled hart stays so exactly while nothing is pending and the environment does not wake it. -/
theorem stallAndWake : Obligations.StallAndWake := by
  rintro s e ha rfl hstalled
  refine ⟨fun hip hwake => ?stays, fun hip => ?wakes⟩
  case stays =>
    have hs : s.environment.staysStalled = true := by
      rw [State.staysStalled, hstalled, hip, hwake]
      rfl
    rw [step_of_admitted ha, State.hart, if_pos hs]
    rfl
  case wakes =>
    have hs : s.environment.staysStalled = false := by simp [State.staysStalled, (any_iff _).2 hip]
    rw [step_of_admitted ha, hart_woken hs]

/-! ## The environment -/

/-- A byte that no cell of the list names is left alone. -/
theorem Memory.read_writeCells_other (m : Memory) (cells : List Host.Cell) (a : Nat) (h : ∀ b, (a, b) ∉ cells) :
    (m.writeCells cells).read a = m.read a := by
  induction cells generalizing m with
  | nil => rfl
  | cons cell cells ih =>
    obtain ⟨a', b⟩ := cell
    have hne : a ≠ a' := by
      rintro rfl
      exact h b (by simp)
    rw [Memory.writeCells, ih _ fun b' hb => h b' (List.mem_cons_of_mem _ hb), Memory.read_write_other _ _ _ _ hne]

theorem mem_of_mem_evicted {tc : List TcEntry} {places : List Nat} {e : TcEntry} (h : e ∈ evicted tc places) :
    e ∈ tc := by
  obtain ⟨⟨e', k⟩, hmem, rfl⟩ := List.mem_map.1 h
  exact List.fst_mem_of_mem_zipIdx (List.mem_of_mem_filter hmem)

/-- Settles O10: each of the fields that the environment may change, from what R480 does to it. -/
theorem environmentActions : Obligations.EnvironmentActions := by
  rintro s t e rfl rfl
  refine ⟨rfl, rfl, rfl, rfl, rfl, ?mti, ?sti, rfl, ?ssi, fun a ha => ?memory, fun c hc => ?cache, fun hh => ?host⟩
  case mti => simp [State.environment, State.outsideIrqs, State.latched, passes_iff]
  case sti => simp [State.environment, State.outsideIrqs, State.latched, passes_iff]
  case ssi => simp [State.environment, State.outsideIrqs, State.latched]
  case memory =>
    exact Memory.read_writeCells_other _ _ _ fun b hb => ha b (List.mem_of_mem_filter hb)
  case cache => exact mem_of_mem_evicted hc
  case host => simp [State.environment, hh]

end Sys2Proof.Machine

/-! Traps and privilege: taking a trap, the returns from one, and what an instruction can do to the privilege mode and
in U-mode (60_exceptions.md R452 to R466; 41_privilege_change.md; 42_trap_redirect.md; 43_wfi.md; 44_sfence_vm.md). -/

namespace Sys2Proof.Machine

/-! ## Integers modulo 2^XLEN -/

theorem pow_xlen_le (c : Config) : 2 ^ c.xlen ≤ 2 ^ 64 := by
  obtain ⟨-, h⟩ | ⟨-, h⟩ := c.xlen_cases <;> simp [h]

/-- Remainders modulo 2^XLEN are not changed by one modulo 2^64 taken before. -/
theorem emod_pow64_emod (c : Config) (n : Int) : n % 2 ^ 64 % 2 ^ c.xlen = n % 2 ^ c.xlen := by
  apply Int.emod_emod_of_dvd
  obtain ⟨-, h⟩ | ⟨-, h⟩ := c.xlen_cases <;> norm_num [h]

theorem valueOf_toNat (s : State) (n : Int) : ((s.valueOf n).toNat : Int) = n % 2 ^ s.cfg.xlen := by
  have hpos : (0 : Int) < 2 ^ s.cfg.xlen := by positivity
  have hle : (2 : Int) ^ s.cfg.xlen ≤ 2 ^ 64 := by exact_mod_cast pow_xlen_le s.cfg
  have h0 := Int.emod_nonneg n hpos.ne'
  have h1 := Int.emod_lt_of_pos n hpos
  rw [State.valueOf, BitVec.toNat_ofInt, Int.toNat_of_nonneg (Int.emod_nonneg _ (by norm_num))]
  exact Int.emod_eq_of_lt h0 (by push_cast; omega)

/-- A value modulo 2^XLEN is the XLEN-bit value of each integer it is congruent to. -/
theorem norm_eq_valueOf (s : State) (v : Word) {n : Int} (h : (v.toNat : Int) % 2 ^ s.cfg.xlen = n % 2 ^ s.cfg.xlen) :
    s.cfg.norm v = s.valueOf n := by
  apply BitVec.eq_of_toNat_eq
  have hnorm := s.cfg.norm_toNat v
  have hval := valueOf_toNat s n
  zify
  rw [hval, hnorm, ← h]
  push_cast
  rfl

theorem norm_eq_valueOf_toNat (s : State) (v : Word) : s.cfg.norm v = s.valueOf v.toNat := norm_eq_valueOf s v rfl

theorem norm_add_four (s : State) : s.cfg.norm (s.pc + 4) = s.nextPc := by
  apply norm_eq_valueOf
  rw [BitVec.toNat_add]
  push_cast
  exact emod_pow64_emod s.cfg _

/-! ## Taking a trap -/

/-- A cause register reads as its two fields, the interrupt flag in the sign bit. -/
theorem norm_cause_value (c : Config) (k : Cause) :
    (c.norm (k.value c)).toNat = (if k.interrupt then 2 ^ (c.xlen - 1) else 0) + k.code.toNat := by
  obtain ⟨i, code⟩ := k
  rw [c.norm_toNat]
  obtain ⟨h64, hx⟩ | ⟨h64, hx⟩ := c.xlen_cases
  · simp only [Cause.value, Config.signBit, h64, hx]
    revert i code
    decide
  · simp only [Cause.value, Config.signBit, h64, hx]
    revert i code
    decide

/-- Settles O19: the entry of the trap, and the cause register of the handler mode read back. -/
theorem takingATrap : Obligations.TakingATrap := by
  rintro s t i code d epc bad rfl
  have hentry := takeTrap_entry s i code d epc bad
  refine ⟨hentry, fun hm => ?machine, fun hs => ?supervisor⟩
  case machine =>
    obtain ⟨⟨-, hcause, -⟩, -⟩ := hentry.toMachine hm
    rw [State.csrRead, State.csrRaw, hcause]
    exact norm_cause_value s.cfg ⟨i, code⟩
  case supervisor =>
    obtain ⟨⟨-, hcause, -⟩, -⟩ := hentry.toSupervisor hs
    rw [State.csrRead, State.csrRaw, hcause]
    exact norm_cause_value s.cfg ⟨i, code⟩

theorem raises_of_raise {i : Instr} {s : State} (e : Exc) {bad : Option Word}
    (h : exec i s = .next (s.raise e bad)) : Raises i s e.code bad :=
  ⟨_, h, raise_raised s e bad⟩

theorem raises_of_illegal {i : Instr} {s : State} (h : exec i s = .next s.illegal) : Raises i s 2 none :=
  raises_of_raise .illegal h

theorem ecallExc_code (p : Priv) : (ecallExc p).code = BitVec.ofNat 4 (8 + prvNumber p) := by cases p <;> rfl

/-- Settles O20: each raises its exception in every state. -/
theorem environmentCallsTrap : Obligations.EnvironmentCallsTrap := by
  intro s
  rw [← ecallExc_code]
  exact ⟨raises_of_raise (ecallExc s.prv) rfl, raises_of_raise .breakpoint rfl⟩

/-! ## The returns from a trap -/

theorem execEret_of_user {s : State} (hp : s.prv = .user) : execEret s = .next s.illegal := by
  simp only [execEret, hp]

theorem execEret_of_not_user {s : State} (hp : s.prv ≠ .user) :
    execEret s = .next (s.returnTo (if s.prv = .machine then s.mepc else s.sepc)) := by
  unfold execEret
  cases h : s.prv
  case user => exact absurd h hp
  all_goals rfl

theorem pop_push_e0 (m : Mstatus) (c : Config) (target : Priv) : ((m.push c target).pop c).e0 = m.e0 := rfl

theorem pop_push_e1 (m : Mstatus) {c : Config} (target : Priv) (h : c.depth = 3) :
    ((m.push c target).pop c).e1 = m.e1 := by
  simp [Mstatus.push, Mstatus.pop, h]

/-- Settles O21: illegal in U-mode, else the stack popped and the pc at the `epc` of the mode. -/
theorem eretReturns : Obligations.EretReturns := by
  intro s
  refine ⟨fun hp => raises_of_illegal (execEret_of_user hp), fun hp => ⟨_, execEret_of_not_user hp, ?_⟩,
    fun target => ⟨pop_push_e0 _ _ _, pop_push_e1 _ _⟩⟩
  refine ⟨norm_eq_valueOf_toNat s _, rfl, fun h => ?two, fun h => ?three, rfl, rfl, fun _ => rfl, fun _ => rfl, rfl⟩
  case two => simp [Mstatus.pop, h]
  case three => simp [Mstatus.pop, h]

theorem execMrts_of_not_machine {s : State} (h : s.prv ≠ .machine ∨ s.cfg.hasS = false) :
    execMrts s = .next s.illegal := by
  unfold execMrts
  rw [if_neg]
  rcases h with h | h <;> simp [h]

/-- Settles O22: the state MRTS hands over, where it may; the other two always raise. -/
theorem trapRedirection : Obligations.TrapRedirection := by
  intro s
  refine ⟨fun hp hS => ⟨_, execMrts_of_machine hp hS, ?_⟩, fun h => raises_of_illegal (execMrts_of_not_machine h),
    raises_of_illegal rfl, raises_of_illegal rfl⟩
  exact ⟨rfl, rfl, rfl, rfl, norm_eq_valueOf_toNat s _, rfl, fun _ => rfl, fun _ => rfl, rfl⟩

/-- Settles O23: the trap pushes the same entry on either way, and MRTS then moves what it saved from the machine's
registers to the supervisor's. -/
theorem redirectionEqualsDelegation : Obligations.RedirectionEqualsDelegation := by
  rintro s d t u v i c k epc bad hS hp hno hyes hd hfits ht hu rfl
  have hmach : s.delegated s.prv k = false := by simp [State.delegated, hno]
  have hlevel : s.prv.level ≤ 1 := by
    cases h : s.prv
    case machine => exact absurd h hp
    all_goals decide
  obtain ⟨deleg, rfl⟩ : ∃ m, d = { s with mtdeleg := m } := ⟨_, hd⟩
  have hsup : State.delegated { s with mtdeleg := deleg } s.prv k = true := by
    simp only [State.delegated, Bool.and_eq_true, decide_eq_true_eq]
    exact ⟨⟨hS, hlevel⟩, hyes⟩
  rw [takeTrap_of_not_delegated i c epc bad hmach] at ht
  rw [takeTrap_of_delegated i c epc bad hsup]
  obtain rfl := execMrts_next (s := t) (by rw [ht]; rfl) (by rw [ht]; exact hS) hu
  subst ht
  refine ⟨rfl, rfl, rfl, s.cfg.norm_of_lt _ hfits, fun hbad => ?_⟩
  obtain ⟨a, rfl⟩ := Option.isSome_iff_exists.1 hbad
  rfl

/-! ## WFI and SFENCE.VM -/

theorem execWfi_of_not_user {s : State} (hp : s.prv ≠ .user) :
    execWfi s = .next { s.advance with stalled := s.now.stall && !s.mip.any } := by
  unfold execWfi
  cases h : s.prv
  case user => exact absurd h hp
  all_goals rfl

theorem any_eq_false_iff (b : IrqBits) : b.any = false ↔ b = ⟨false, false, false, false⟩ := by
  obtain ⟨ssi, msi, sti, mti⟩ := b
  simp [IrqBits.any, and_assoc]

/-- Settles O26: a NOP outside U-mode, with the stall as the schedule chooses. -/
theorem wfiCompletes : Obligations.WfiCompletes := by
  intro s
  refine ⟨fun hp => raises_of_illegal (by simp only [exec, execWfi, hp]),
    fun hp => ⟨_, execWfi_of_not_user hp, norm_add_four s, rfl, ?_, fun _ => rfl, fun _ => rfl, rfl⟩⟩
  simp [any_eq_false_iff]

theorem execSfenceVm_of_not_user {s : State} {rs1 : Reg} (hp : s.prv ≠ .user) (hr : s.hasRegs [rs1] = true) :
    execSfenceVm rs1 s = .next (s.setTc (s.tc.filter fun e => !s.fences rs1 e)).advance := by
  simp [execSfenceVm, hp, hr]

/-- Settles O27: the filter's condition is that of the statement. -/
theorem sfenceVmRemoves : Obligations.SfenceVmRemoves := by
  intro s rs1
  refine ⟨fun hp => raises_of_illegal (by simp [exec, execSfenceVm, hp]),
    fun hp hr => ⟨_, execSfenceVm_of_not_user hp hr, fun e => ?_, norm_add_four s, rfl, fun _ => rfl, fun _ => rfl,
      rfl⟩⟩
  have hfences : s.fences rs1 e = true ↔
      (rs1 = 0 ∨ (s.readX rs1).toNat / pageBytes s.cfg e.level = e.vaBase.toNat / pageBytes s.cfg e.level) ∧
      (s.sasid = 0 ∨ s.cfg.hasS = false ∨ s.cfg.hasPaging = false ∨ (e.asid = s.sasid ∧ e.isGlobal = false)) := by
    simp only [State.fences, TcEntry.covers, Bool.and_eq_true, Bool.or_eq_true, decide_eq_true_eq, beq_iff_eq,
      Bool.not_eq_true', Bool.and_eq_false_iff, or_assoc]
  rw [← hfences]
  simp [State.setTc, State.advance, State.complete]

/-! ## What an instruction does to the privilege mode -/

theorem Touched.eq {s u : State} (h : Touched s u) : ∃ m tc, u = { s with mem := m, tc := tc } := ⟨_, _, h.frame⟩

/-- A trap never lowers the privilege (R452). -/
theorem level_le_raise (s : State) (e : Exc) (bad : Option Word) : s.prv.level ≤ (s.raise e bad).prv.level := by
  rw [(raise_raised s e bad).mode, State.handlerMode]
  split
  · rename_i h
    exact h.2.1
  · cases s.prv <;> decide

/-- A completed CSR write changes an integer register, the pc and the count beside what it wrote. -/
theorem csrFinish_frame (wrote : Bool) (r : Csr) (rd : Reg) (old : Word) (t : State) :
    ∃ x pc n, csrFinish wrote r rd old t = { t with x := x, pc := pc, instret := n } := by
  unfold csrFinish
  split
  · exact ⟨_, _, _, rfl⟩
  · exact ⟨_, _, _, rfl⟩

theorem machine_of_level {p : Priv} (h : 3 ≤ p.level) : p = .machine := by
  cases p
  · exact absurd h (by decide)
  · exact absurd h (by decide)
  · rfl

/-- `mstatus` is at one address, of machine level. -/
theorem csrCheck_mstatus {s : State} {a : CsrAddr} {w : Bool} (h : s.csrCheck a w = some .mstatus) :
    a = 0x300#12 ∧ s.prv = .machine := by
  obtain ⟨row, hat, hreg, hlevel, -⟩ := csrCheck_some h
  obtain ⟨hmem, -, rfl⟩ := csrAt_some hat
  have key : ∀ row ∈ csrRows s.cfg, row.reg = .mstatus → row.addr = 0x300#12 := by
    simp [csrRows, userCsrs, supervisorCsrs, machineCsrs]
  have haddr := key row hmem hreg
  rw [haddr] at hlevel
  exact ⟨haddr, machine_of_level hlevel⟩

/-- A CSR write changes the mode by a write of `mstatus` alone. -/
theorem csrWrite_prv {s u : State} {r : Csr} {v : Word} (h : s.csrWrite r v = some u) (hne : u.prv ≠ s.prv) :
    r = .mstatus := by
  unfold State.prv at hne
  rcases (csrWrite_leaves h).mstatus with hm | ⟨-, hm⟩ | ⟨-, hm⟩ | ⟨hr, -⟩
  · exact absurd (by rw [hm]) hne
  · exact absurd (by rw [hm]) hne
  · exact absurd (by rw [hm]; rfl) hne
  · exact hr

/-- Settles O24: of the effects an instruction can have, these change the mode. -/
theorem modeChanges : Obligations.ModeChanges := by
  intro i s t h hne
  cases exec_effect h with
  | trap u e bad hu =>
    obtain ⟨m, tc, rfl⟩ := hu.eq
    exact .inl ⟨level_le_raise { s with mem := m, tc := tc } e bad, rfl, rfl⟩
  | write u rd v hu =>
    obtain ⟨m, tc, rfl⟩ := hu.eq
    exact absurd rfl hne
  | jump => exact absurd rfl hne
  | csr a r rd v u hi hcheck _ hu =>
    obtain ⟨x, pc, n, hfin⟩ := csrFinish_frame true r rd (s.csrRead r) u
    rw [hfin] at hne
    obtain rfl := csrWrite_prv hu hne
    obtain ⟨rfl, hp⟩ := csrCheck_mstatus hcheck
    exact .inr (.inr (.inr ⟨hi, hp⟩))
  | eret target hi hp =>
    refine .inr (.inl ⟨hi, ?_, rfl⟩)
    rcases hp with ⟨hp, -⟩ | ⟨hp, -⟩ <;> simp [hp]
  | mrts _ hi hp hS hx =>
    obtain rfl := execMrts_next hp hS hx
    exact .inr (.inr (.inl ⟨hi, hp, rfl⟩))
  | wfi => exact absurd rfl hne

/-- The CSRs that U-mode can write are those of the floating-point unit. -/
theorem csrCheck_user {s : State} {a : CsrAddr} {r : Csr} (hp : s.prv = .user) (h : s.csrCheck a true = some r) :
    r ∈ [Csr.fflags, .frm, .fcsr] := by
  obtain ⟨row, hat, rfl, hlevel, hro, -⟩ := csrCheck_some h
  obtain ⟨hmem, -, rfl⟩ := csrAt_some hat
  have key : ∀ row ∈ csrRows s.cfg, row.readOnly = false → csrLevel row.addr = 0 →
      row.reg ∈ [Csr.fflags, .frm, .fcsr] := by
    simp [csrRows, userCsrs, supervisorCsrs, machineCsrs, csrLevel]
  rw [hp] at hlevel
  exact key row hmem (hro rfl) (Nat.le_zero.1 hlevel)

/-- What a write of a floating-point CSR changes. -/
theorem csrWrite_float {s u : State} {r : Csr} {v : Word} (hr : r ∈ [Csr.fflags, .frm, .fcsr])
    (h : s.csrWrite r v = some u) :
    u = { s with fflags := u.fflags, frm := u.frm, mstatus := { s.mstatus with fs := .dirty } } := by
  have honly := csrWrite_only h
  simp only [List.mem_cons, List.not_mem_nil, or_false] at hr
  rcases hr with rfl | rfl | rfl
  · rw [show u = _ from honly]
  · rw [show u = _ from honly]
  · exact honly

/-- Settles O25: of the effects an instruction can have in U-mode, a trap changes the trap registers and the stack; the
others none of these. -/
theorem userModeConfinement : Obligations.UserModeConfinement := by
  intro i s t hp h
  cases exec_effect h with
  | trap u e bad hu =>
    obtain ⟨m, tc, rfl⟩ := hu.eq
    exact ⟨rfl, .inl ⟨rfl, rfl⟩⟩
  | write u rd v hu =>
    obtain ⟨m, tc, rfl⟩ := hu.eq
    exact ⟨rfl, .inr ⟨rfl, rfl, rfl, rfl, rfl, rfl, rfl, rfl, rfl⟩⟩
  | jump => exact ⟨rfl, .inr ⟨rfl, rfl, rfl, rfl, rfl, rfl, rfl, rfl, rfl⟩⟩
  | csr a r rd v u _ hcheck _ hu =>
    obtain ⟨x, pc, n, hfin⟩ := csrFinish_frame true r rd (s.csrRead r) u
    rw [hfin, csrWrite_float (csrCheck_user hp hcheck) hu]
    exact ⟨rfl, .inr ⟨rfl, rfl, rfl, rfl, rfl, rfl, rfl, rfl, rfl⟩⟩
  | eret target _ hmode => rcases hmode with ⟨hmode, -⟩ | ⟨hmode, -⟩ <;> simp [hp] at hmode
  | mrts _ _ hmode => simp [hp] at hmode
  | wfi _ _ hmode => exact absurd hp hmode

end Sys2Proof.Machine

/-! The CSR instructions: which registers an access reaches, what a read and a write leave, and the one refusal
(40_csr_instructions.md R290 to R304; 10_state.md R26 to R42; 12_supervisor_csrs.md R170). -/

namespace Sys2Proof.Machine

/-! ## The six CSR instructions as one -/

/-- What a CSR instruction does with its register (40_csr_instructions.md R290 to R297). -/
structure CsrForm where
  addr : CsrAddr
  rd : Reg
  sources : List Reg
  operand : Word
  op : Word → Word → Word
  isWrite : Bool

/-- The form of a CSR instruction in a state; none for the other instructions. -/
def csrForm (s : State) : Instr → Option CsrForm
  | .csrrw rd csr rs1 => some ⟨csr, rd, [rs1], s.readX rs1, csrSwap, true⟩
  | .csrrs rd csr rs1 => some ⟨csr, rd, [rs1], s.readX rs1, csrSet, decide (rs1 ≠ 0)⟩
  | .csrrc rd csr rs1 => some ⟨csr, rd, [rs1], s.readX rs1, csrClear, decide (rs1 ≠ 0)⟩
  | .csrrwi rd csr z => some ⟨csr, rd, [], zimmValue z, csrSwap, decide (z ≠ 0) || s.cfg.csrrwiZeroWrites⟩
  | .csrrsi rd csr z => some ⟨csr, rd, [], zimmValue z, csrSet, decide (z ≠ 0)⟩
  | .csrrci rd csr z => some ⟨csr, rd, [], zimmValue z, csrClear, decide (z ≠ 0)⟩
  | _ => none

/-- `CsrInstr` of a form. -/
def CsrForm.run (f : CsrForm) (s : State) : Result := csrInstr f.addr f.rd f.sources f.operand f.op f.isWrite s

/-- A form is that of one of the six instructions. -/
theorem csrForm_cases {s : State} {i : Instr} {f : CsrForm} (h : csrForm s i = some f) :
    (∃ rd csr rs1, i = .csrrw rd csr rs1) ∨ (∃ rd csr rs1, i = .csrrs rd csr rs1) ∨
    (∃ rd csr rs1, i = .csrrc rd csr rs1) ∨ (∃ rd csr z, i = .csrrwi rd csr z) ∨
    (∃ rd csr z, i = .csrrsi rd csr z) ∨ (∃ rd csr z, i = .csrrci rd csr z) := by
  cases i <;> first | cases h; done | simp

/-- What the statements say of a CSR instruction, in terms of its form. -/
structure FormOf (s : State) (i : Instr) (f : CsrForm) : Prop where
  exec : exec i s = f.run s
  regs : namedRegs i = f.rd :: f.sources
  uses : UsesCsr i s f.addr f.isWrite
  accesses : AccessesCsr i f.addr
  writes : ∀ a r v, WritesValue i s a r v ↔ f.addr = a ∧ f.isWrite = true ∧ v = f.op (s.csrRead r) f.operand

theorem formOf_csrForm {s : State} {i : Instr} {f : CsrForm} (h : csrForm s i = some f) : FormOf s i f := by
  rcases csrForm_cases h with ⟨rd, csr, rs1, rfl⟩ | ⟨rd, csr, rs1, rfl⟩ | ⟨rd, csr, rs1, rfl⟩ | ⟨rd, csr, z, rfl⟩ |
    ⟨rd, csr, z, rfl⟩ | ⟨rd, csr, z, rfl⟩ <;> injection h with h <;> subst h <;>
    refine ⟨rfl, rfl, by simp [UsesCsr], by simp [AccessesCsr], fun a r v => ?_⟩ <;>
    simp [WritesValue, csrSwap, csrSet, csrClear, zimmValue, and_assoc]

/-- An instruction without a form is none of the six, and goes on. -/
theorem no_form {s : State} {i : Instr} (h : csrForm s i = none) :
    (∀ a, ¬AccessesCsr i a) ∧ ∀ a r v, ¬WritesValue i s a r v := by
  cases i <;> first | cases h; done | simp [AccessesCsr, WritesValue]

/-! ## `CsrInstr`, path by path -/

section Paths
variable {a : CsrAddr} {rd : Reg} {sources : List Reg} {operand : Word} {op : Word → Word → Word} {w : Bool} {s : State}
variable {r : Csr}

theorem csrInstr_of_no_regs (h : s.hasRegs (rd :: sources) = false) :
    csrInstr a rd sources operand op w s = .next s.illegal := by
  simp [csrInstr, h]

theorem csrInstr_of_refused_access (h : s.csrCheck a w = none) :
    csrInstr a rd sources operand op w s = .next s.illegal := by
  simp [csrInstr, h]

theorem csrInstr_read (hr : s.hasRegs (rd :: sources) = true) (h : s.csrCheck a false = some r) :
    csrInstr a rd sources operand op false s = .next (s.setX rd (s.csrRead r)).advance := by
  simp [csrInstr, hr, h, csrFinish]

theorem csrInstr_write {u : State} (hr : s.hasRegs (rd :: sources) = true) (h : s.csrCheck a true = some r)
    (hu : s.csrWrite r (op (s.csrRead r) operand) = some u) :
    csrInstr a rd sources operand op true s = .next (csrFinish true r rd (s.csrRead r) u) := by
  simp [csrInstr, hr, h, hu]

theorem csrInstr_refused (hr : s.hasRegs (rd :: sources) = true) (h : s.csrCheck a true = some r)
    (hu : s.csrWrite r (op (s.csrRead r) operand) = none) :
    csrInstr a rd sources operand op true s = .refused .unsupportedStatusValue := by
  simp [csrInstr, hr, h, hu]

/-- A CSR instruction goes on, or is refused, which happens where the registers exist, the access passes and the write
is refused. -/
theorem csrInstr_total :
    (∃ t, csrInstr a rd sources operand op w s = .next t) ∨
    (csrInstr a rd sources operand op w s = .refused .unsupportedStatusValue ∧ s.hasRegs (rd :: sources) = true ∧
      w = true ∧ ∃ r, s.csrCheck a true = some r ∧ s.csrWrite r (op (s.csrRead r) operand) = none) := by
  cases hr : s.hasRegs (rd :: sources) with
  | false => exact .inl ⟨_, csrInstr_of_no_regs hr⟩
  | true =>
    cases hc : s.csrCheck a w with
    | none => exact .inl ⟨_, csrInstr_of_refused_access hc⟩
    | some r =>
      cases w with
      | false => exact .inl ⟨_, csrInstr_read hr hc⟩
      | true =>
        cases hu : s.csrWrite r (op (s.csrRead r) operand) with
        | some u => exact .inl ⟨_, csrInstr_write hr hc hu⟩
        | none => exact .inr ⟨csrInstr_refused hr hc hu, rfl, rfl, r, hc, hu⟩

end Paths

/-! ## Which accesses pass -/

theorem csrLevel_eq (a : CsrAddr) : csrLevel a = a.toNat / 256 % 4 := by
  simp [csrLevel, BitVec.extractLsb'_toNat, Nat.shiftRight_eq_div_pow]

theorem isFpCsr_iff (a : CsrAddr) : isFpCsr a = true ↔ a ∈ [0x001#12, 0x002#12, 0x003#12] := by
  simp [isFpCsr, or_assoc]

/-- The checks of R30, R33 and `FpCheck`, as one condition. -/
theorem csrCheck_iff (s : State) (a : CsrAddr) (w : Bool) (r : Csr) :
    s.csrCheck a w = some r ↔ ∃ row, csrAt s.cfg a = some row ∧ row.reg = r ∧ a.toNat / 256 % 4 ≤ prvNumber s.prv ∧
      ¬(w = true ∧ row.readOnly = true) ∧ (a, s.prv, w) ∉ s.cfg.trapLower ∧
      (isFpCsr a = true → s.mstatus.fs ≠ .off) := by
  unfold State.csrCheck
  rw [prvNumber_eq, ← csrLevel_eq]
  cases csrAt s.cfg a with
  | none => simp
  | some row =>
    simp only [Option.some.injEq, exists_eq_left']
    split
    · rename_i h
      simp only [Bool.or_eq_true, Bool.and_eq_true, decide_eq_true_eq, List.contains_eq_mem] at h
      refine iff_of_false (by simp) ?_
      rintro ⟨-, hl, hro, htrap, hfp⟩
      rcases h with ((h | h) | h) | h
      · omega
      · exact hro h
      · exact htrap h
      · exact hfp h.1 h.2
    · rename_i h
      simp only [Bool.or_eq_true, Bool.and_eq_true, decide_eq_true_eq, List.contains_eq_mem, not_or] at h
      obtain ⟨⟨⟨hl, hro⟩, htrap⟩, hfp⟩ := h
      simp only [Option.some.injEq]
      exact ⟨fun hr => ⟨hr, by omega, hro, htrap, fun h1 h2 => hfp ⟨h1, h2⟩⟩, fun h => h.1⟩

/-- Addresses 0 to 3 that hold a register are the three floating-point CSRs. -/
theorem csrRows_low {c : Config} (hc : c.admitted = true) : ∀ row ∈ csrRows c, row.addr.toNat ≤ 3 →
    row.addr ∈ [0x001#12, 0x002#12, 0x003#12] ∧ row.reg ∈ [Csr.fflags, .frm, .fcsr] := by
  rcases admitted_addrs hc with ⟨h1, h2⟩ | ⟨h1, h2⟩ <;>
    simp [csrRows, userCsrs, supervisorCsrs, machineCsrs, h1, h2]

theorem csrCheck_iff_allowed {s : State} (hc : s.cfg.admitted = true) (a : CsrAddr) (w : Bool) (r : Csr) :
    s.csrCheck a w = some r ↔ CsrAllowed s a w r := by
  rw [csrCheck_iff]
  constructor
  · rintro ⟨row, hat, hreg, hl, hro, htrap, hfp⟩
    refine ⟨row.readOnly, (hasCsr_iff hc a r _).2 ⟨row, hat, hreg, rfl⟩, hl, hro, htrap, fun hlow => hfp ?_⟩
    obtain ⟨hmem, -, rfl⟩ := csrAt_some hat
    exact (isFpCsr_iff _).2 (csrRows_low hc row hmem hlow).1
  · rintro ⟨readOnly, hhas, hl, hro, htrap, hfp⟩
    obtain ⟨row, hat, hreg, rfl⟩ := (hasCsr_iff hc a r _).1 hhas
    refine ⟨row, hat, hreg, hl, hro, htrap, fun hf => hfp ?_⟩
    have hmem := (isFpCsr_iff a).1 hf
    simp only [List.mem_cons, List.not_mem_nil, or_false] at hmem
    rcases hmem with rfl | rfl | rfl <;> decide

/-- Each test that fails is enough for the access to fail. -/
theorem csrCheck_eq_none {s : State} {a : CsrAddr} {w : Bool}
    (h : csrAt s.cfg a = none ∨ prvNumber s.prv < a.toNat / 256 % 4 ∨
      (w = true ∧ ∃ row, csrAt s.cfg a = some row ∧ row.readOnly = true) ∨ (a, s.prv, w) ∈ s.cfg.trapLower ∨
      ((a = 0x001#12 ∨ a = 0x002#12 ∨ a = 0x003#12) ∧ s.mstatus.fs = .off)) : s.csrCheck a w = none := by
  rw [Option.eq_none_iff_forall_ne_some]
  intro r hr
  obtain ⟨row, hat, -, hl, hro, htrap, hfp⟩ := (csrCheck_iff s a w r).1 hr
  rcases h with h | h | ⟨hw, row', hat', hro'⟩ | h | ⟨hf, hoff⟩
  · simp [hat] at h
  · omega
  · rw [hat] at hat'
    cases hat'
    exact hro ⟨hw, hro'⟩
  · exact htrap h
  · exact hfp ((isFpCsr_iff a).2 (by simpa using hf)) hoff

theorem raises_of_refused_access {i : Instr} {s : State} {f : CsrForm} (hf : csrForm s i = some f)
    (h : s.csrCheck f.addr f.isWrite = none) : Raises i s 2 none :=
  raises_of_illegal (by rw [(formOf_csrForm hf).exec]; exact csrInstr_of_refused_access h)

/-- Settles O28: the model's table against the list of registers, the tests one by one, and what a failed one raises. -/
theorem csrIllegalAccess : Obligations.CsrIllegalAccess := by
  intro s a rd rs1 zimm write
  refine ⟨fun hc r => csrCheck_iff_allowed hc a write r, csrCheck_eq_none, fun hnone => ⟨?_, ?_, ?_, ?_⟩⟩
  · rintro rfl
    exact raises_of_refused_access rfl hnone
  · rintro rfl
    exact ⟨raises_of_refused_access rfl hnone, raises_of_refused_access rfl hnone⟩
  · rintro rfl
    exact raises_of_refused_access rfl hnone
  · rintro rfl
    exact ⟨raises_of_refused_access rfl hnone, raises_of_refused_access rfl hnone⟩

/-! ## Reading -/

/-- An instruction that writes one register and completes (also for a base ISA instruction). -/
theorem wrote_setX_complete (s : State) (rd : Reg) {v w npc npc' : Word} (hv : s.cfg.norm v = w)
    (hn : s.cfg.norm npc = npc') : Wrote s ((s.setX rd v).complete npc) rd w npc' where
  result := (State.readX_setX_same s rd v).trans (by rw [hv])
  others r hr := State.readX_setX_other s rd r v hr
  pc := hn
  retired := rfl
  memory _ := rfl
  frame := rfl

theorem wrote_setX_advance (s : State) (rd : Reg) {v w : Word} (hv : s.cfg.norm v = w) :
    Wrote s (s.setX rd v).advance rd w s.nextPc :=
  wrote_setX_complete s rd hv (norm_add_four s)

theorem hasReg_zero (c : Config) : c.hasReg 0 = true := by
  cases h : c.base <;> simp [Config.hasReg, h]

theorem hasRegs_cons (s : State) (r : Reg) (regs : List Reg) :
    s.hasRegs (r :: regs) = true ↔ s.cfg.hasReg r = true ∧ s.hasRegs regs = true := by
  simp [State.hasRegs]

theorem hasRegs_nil (s : State) : s.hasRegs [] = true := rfl

/-- Settles O29: each of the forms reads without writing. -/
theorem csrReadOnlyForms : Obligations.CsrReadOnlyForms := by
  intro s a r rd hcheck hregs
  have hregs0 : s.hasRegs [rd, 0] = true := by
    simp only [hasRegs_cons] at hregs ⊢
    exact ⟨hregs.1, hasReg_zero _, hregs.2⟩
  have hwrote : Wrote s (s.setX rd (s.csrRead r)).advance rd (s.csrRead r) s.nextPc :=
    wrote_setX_advance s rd (s.csrRead_norm r)
  refine ⟨fun i hi => ?_, fun hz => ⟨_, ?_, hwrote⟩⟩
  · simp only [List.mem_cons, List.not_mem_nil, or_false] at hi
    rcases hi with rfl | rfl | rfl | rfl
    · exact ⟨_, csrInstr_read hregs0 hcheck, hwrote⟩
    · exact ⟨_, csrInstr_read hregs0 hcheck, hwrote⟩
    · exact ⟨_, csrInstr_read hregs hcheck, hwrote⟩
    · exact ⟨_, csrInstr_read hregs hcheck, hwrote⟩
  · have hno : (decide ((0 : BitVec 5) ≠ 0) || s.cfg.csrrwiZeroWrites) = false := by simp [hz]
    simp only [exec, execCsrrwi, hno]
    exact csrInstr_read hregs hcheck

/-! ## Writing -/

/-- A CSR write reaches `instret` by its own address or that of its upper half alone. -/
theorem csrWrite_instret {s u : State} {r : Csr} {v : Word} (h : s.csrWrite r v = some u)
    (hr : ¬(r = .instret ∨ r = .instreth)) : u.instret = s.instret := by
  have honly := csrWrite_only h
  cases r <;> first | (rw [show u = _ from honly]; done) | exact absurd (by simp) hr

theorem csrFinish_instret (r : Csr) (rd : Reg) (old : Word) (u : State) :
    (csrFinish true r rd old u).instret = if r = .instret ∨ r = .instreth then u.instret else u.instret + 1 := by
  simp only [csrFinish, Bool.true_and, Bool.or_eq_true, decide_eq_true_eq]
  split <;> rfl

theorem csrFinish_readX (w : Bool) (r : Csr) (rd : Reg) (old : Word) (u : State) (q : Reg) :
    (csrFinish w r rd old u).readX q = (u.setX rd old).readX q := by
  unfold csrFinish
  split <;> exact State.readX_congr _ _ _ rfl rfl

theorem csrFinish_pc (w : Bool) (r : Csr) (rd : Reg) (old : Word) (u : State) :
    (csrFinish w r rd old u).pc = u.cfg.norm (u.pc + 4) := by
  unfold csrFinish
  split <;> rfl

/-- A form that writes and passes the checks does what `CsrInstr` says of its value. -/
theorem writesCsr_of_form {i : Instr} {s : State} {f : CsrForm} {r : Csr} (hf : csrForm s i = some f)
    (hregs : s.hasRegs (f.rd :: f.sources) = true) (hw : f.isWrite = true) (hcheck : s.csrCheck f.addr true = some r) :
    WritesCsr i s r f.rd (f.op (s.csrRead r) f.operand) := by
  intro u hu
  obtain ⟨hmem, hcfg, hpc, hx, -⟩ := csrWrite_frame hu
  have hrun : exec i s = .next (csrFinish true r f.rd (s.csrRead r) u) := by
    rw [(formOf_csrForm hf).exec, CsrForm.run, hw]
    exact csrInstr_write hregs hcheck hu
  have hread : ∀ q, u.readX q = s.readX q := fun q => State.readX_congr _ _ _ hx hcfg
  obtain ⟨x, pc, n, hfin⟩ := csrFinish_frame true r f.rd (s.csrRead r) u
  refine ⟨_, hrun, ?rd, fun q hq => ?others, ?pc, ?count, fun a => ?memory, ?frame, csrWrite_only hu⟩
  case rd => rw [csrFinish_readX, State.readX_setX_same, hcfg, s.csrRead_norm]
  case others => rw [csrFinish_readX, State.readX_setX_other _ _ _ _ hq, hread]
  case pc => rw [csrFinish_pc, hcfg, hpc, norm_add_four]
  case count =>
    rw [csrFinish_instret]
    split
    · rfl
    · rw [csrWrite_instret hu ‹_›]
  case memory => rw [hfin]; exact congrArg (Memory.read · a) hmem
  case frame => rw [hfin]

/-- Settles O30: the six forms, each with its value. -/
theorem csrWritingForms : Obligations.CsrWritingForms := by
  intro s a r rd rs1 zimm hcheck hregs
  have hregs1 : s.hasRegs [rd] = true := by
    simp only [hasRegs_cons] at hregs ⊢
    exact ⟨hregs.1, rfl⟩
  refine ⟨?swap, fun hne => ⟨?set, ?clear⟩, fun hz => ?swapImm, fun hne => ⟨?setImm, ?clearImm⟩⟩
  case swap => exact (writesCsr_of_form (i := .csrrw rd a rs1) rfl hregs rfl hcheck :)
  case set => exact (writesCsr_of_form (i := .csrrs rd a rs1) rfl hregs (by simpa using hne) hcheck :)
  case clear => exact (writesCsr_of_form (i := .csrrc rd a rs1) rfl hregs (by simpa using hne) hcheck :)
  case swapImm => exact (writesCsr_of_form (i := .csrrwi rd a zimm) rfl hregs1 (by simpa using hz) hcheck :)
  case setImm => exact (writesCsr_of_form (i := .csrrsi rd a zimm) rfl hregs1 (by simpa using hne) hcheck :)
  case clearImm => exact (writesCsr_of_form (i := .csrrci rd a zimm) rfl hregs1 (by simpa using hne) hcheck :)

/-! ## The one refusal -/

theorem writeResult_total (legal : Bool) (rd : Reg) (sources : List Reg) (v : Word) (s : State) :
    ∃ t, writeResult legal rd sources v s = .next t := by
  unfold writeResult
  split <;> exact ⟨_, rfl⟩

theorem jumpAndLink_total (rd : Reg) (sources : List Reg) (target : Word) (s : State) :
    ∃ t, jumpAndLink rd sources target s = .next t := by
  unfold jumpAndLink
  split
  · exact ⟨_, rfl⟩
  · split <;> exact ⟨_, rfl⟩

theorem branch_total (taken : Bool) (rs1 rs2 : Reg) (offset : BitVec 13) (s : State) :
    ∃ t, branch taken rs1 rs2 offset s = .next t := by
  unfold branch
  simp only
  split
  · exact ⟨_, rfl⟩
  · split
    · exact ⟨_, rfl⟩
    · split <;> exact ⟨_, rfl⟩

theorem loadOp_total (legal : Bool) (n : Nat) (extend : Word → Word) (rd rs1 : Reg) (imm : BitVec 12) (s : State) :
    ∃ t, loadOp legal n extend rd rs1 imm s = .next t := by
  unfold loadOp
  simp only
  split
  · cases s.memRead (s.address rs1 (immI imm)) n <;> exact ⟨_, rfl⟩
  · exact ⟨_, rfl⟩

theorem storeOp_total (legal : Bool) (n : Nat) (rs1 rs2 : Reg) (imm : BitVec 12) (s : State) :
    ∃ t, storeOp legal n rs1 rs2 imm s = .next t := by
  unfold storeOp
  simp only
  split
  · cases s.memWrite (s.address rs1 (immS imm)) n (s.readX rs2) <;> exact ⟨_, rfl⟩
  · exact ⟨_, rfl⟩

/-- An instruction that is none of the six goes on in every state. -/
theorem exec_total_of_no_form {i : Instr} {s : State} (h : csrForm s i = none) : ∃ t, exec i s = .next t := by
  cases i
  case csrrw | csrrs | csrrc | csrrwi | csrrsi | csrrci => cases h
  case ecall | ebreak | hrts | mrth | fence | fenceI => exact ⟨_, rfl⟩
  case eret =>
    by_cases hp : s.prv = .user
    · exact ⟨_, execEret_of_user hp⟩
    · exact ⟨_, execEret_of_not_user hp⟩
  case mrts =>
    by_cases hm : s.prv = .machine ∧ s.cfg.hasS = true
    · exact ⟨_, execMrts_of_machine hm.1 hm.2⟩
    · exact ⟨_, execMrts_of_not_machine (by simpa [or_iff_not_imp_left] using hm)⟩
  case wfi =>
    by_cases hp : s.prv = .user
    · exact ⟨s.illegal, by simp only [exec, execWfi, hp]⟩
    · exact ⟨_, execWfi_of_not_user hp⟩
  case sfenceVm =>
    simp only [exec, execSfenceVm]
    split <;> exact ⟨_, rfl⟩
  all_goals
    first
    | exact writeResult_total ..
    | exact jumpAndLink_total ..
    | exact branch_total ..
    | exact loadOp_total ..
    | exact storeOp_total ..

/-- Only a write of `mstatus` can be refused. -/
theorem csrWrite_eq_none {s : State} {r : Csr} {v : Word} (h : s.csrWrite r v = none) : r = .mstatus := by
  cases r
  case mstatus => rfl
  case mbase | mbound => simp only [State.csrWrite] at h; split at h <;> cases h
  all_goals cases h

/-- Settles O31: of the paths of `CsrInstr` one is refused, and no other instruction has such a path. -/
theorem onlyUnsupportedStatusIsRefused : Obligations.OnlyUnsupportedStatusIsRefused := by
  intro i s
  cases hform : csrForm s i with
  | none =>
    obtain ⟨t, ht⟩ := exec_total_of_no_form hform
    exact ⟨.inl ⟨t, ht⟩, iff_of_false (by simp [ht]) fun ⟨_, v, hv, _⟩ => (no_form hform).2 _ _ _ hv⟩
  | some f =>
    have hf := formOf_csrForm hform
    rw [hf.exec, hf.regs]
    have htotal := csrInstr_total (a := f.addr) (rd := f.rd) (sources := f.sources) (operand := f.operand)
      (op := f.op) (w := f.isWrite) (s := s)
    refine ⟨htotal.imp_right And.left, fun hrefused => ?only, ?refused⟩
    case only =>
      rcases htotal with ⟨t, ht⟩ | ⟨-, hregs, hw, r, hcheck, hnone⟩
      · rw [CsrForm.run, ht] at hrefused
        cases hrefused
      · obtain rfl := csrWrite_eq_none hnone
        obtain ⟨haddr, -⟩ := csrCheck_mstatus hcheck
        exact ⟨hregs, _, (hf.writes _ _ _).2 ⟨haddr, hw, rfl⟩, haddr ▸ hcheck, hnone⟩
    case refused =>
      rintro ⟨hregs, v, hv, hcheck, hnone⟩
      obtain ⟨haddr, hw, rfl⟩ := (hf.writes _ _ _).1 hv
      rw [CsrForm.run, hw, haddr]
      exact csrInstr_refused hregs hcheck hnone

/-! ## Floating-point CSRs -/

/-- Settles O40: addresses 1 to 3 hold the floating-point CSRs and nothing else. -/
theorem floatingPointCsrs : Obligations.FloatingPointCsrs := by
  intro s a w hc ha
  have hreg : ∀ r, s.csrCheck a w = some r → r ∈ [Csr.fflags, .frm, .fcsr] := by
    intro r hr
    obtain ⟨row, hat, rfl, -⟩ := (csrCheck_iff s a w r).1 hr
    obtain ⟨hmem, -, rfl⟩ := csrAt_some hat
    refine (csrRows_low hc row hmem ?_).2
    simp only [List.mem_cons, List.not_mem_nil, or_false] at ha
    rcases ha with h | h | h <;> rw [h] <;> decide
  refine ⟨fun hoff => ?off, fun hF => ?absent, fun r u v hr hu => ?dirty⟩
  case off => exact csrCheck_eq_none (.inr (.inr (.inr (.inr ⟨by simpa using ha, hoff⟩))))
  case absent =>
    rw [Option.eq_none_iff_forall_ne_some]
    intro r hr
    simp [hasF_of_csrCheck hr (hreg r hr)] at hF
  case dirty => rw [csrWrite_float (hreg r hr) hu]

end Sys2Proof.Machine

/-! What each CSR reads as and what a write leaves in it (11_machine_csrs.md; 12_supervisor_csrs.md). -/

namespace Sys2Proof.Machine

/-! ## Masked values -/

theorem toNat_andNot_lowMask (v : Word) (n : Nat) (hn : n ≤ 64) :
    (v &&& ~~~BitVec.ofNat 64 (2 ^ n - 1)).toNat = v.toNat / 2 ^ n * 2 ^ n := by
  apply Nat.eq_of_testBit_eq
  intro j
  rw [BitVec.testBit_toNat, Nat.testBit_mul_two_pow, Nat.testBit_div_two_pow, BitVec.testBit_toNat]
  simp only [BitVec.getLsbD_and, BitVec.getLsbD_not, BitVec.getLsbD_ofNat, Nat.testBit_two_pow_sub_one]
  by_cases hj : n ≤ j
  · have hsub : j - n + n = j := by omega
    by_cases h64 : j < 64
    · simp [hj, h64, hsub, not_lt.2 hj]
    · simp [hj, hsub, BitVec.getLsbD_of_ge v j (by omega)]
  · simp [hj, not_le.1 hj, show j < 64 by omega]

theorem toNat_align4 (v : Word) : (align4 v).toNat = v.toNat / 4 * 4 := toNat_andNot_lowMask v 2 (by decide)

theorem toNat_align4096 (v : Word) : (align4096 v).toNat = v.toNat / 4096 * 4096 :=
  toNat_andNot_lowMask v 12 (by decide)

theorem toNat_and_asidMask (c : Config) (v : Word) : (v &&& asidMask c).toNat = v.toNat % 2 ^ c.asidLen := by
  apply Nat.eq_of_testBit_eq
  intro j
  rw [BitVec.testBit_toNat, Nat.testBit_mod_two_pow, BitVec.testBit_toNat]
  simp only [asidMask, BitVec.getLsbD_and, BitVec.getLsbD_ofNat, Nat.testBit_two_pow_sub_one]
  by_cases h64 : j < 64
  · simp [h64, Bool.and_comm]
  · simp [BitVec.getLsbD_of_ge v j (by omega)]

/-- The sign bit of an XLEN-bit value is bit XLEN-1. -/
theorem signBit_eq_twoPow (c : Config) : c.signBit = BitVec.twoPow 64 (c.xlen - 1) := by
  obtain ⟨h, hx⟩ | ⟨h, hx⟩ := c.xlen_cases <;> simp only [Config.signBit, h, hx] <;> decide

theorem and_signBit_ne_zero (c : Config) (v : Word) : v &&& c.signBit ≠ 0 ↔ v.getLsbD (c.xlen - 1) = true := by
  have hlt : c.xlen - 1 < 64 := by obtain ⟨-, h⟩ | ⟨-, h⟩ := c.xlen_cases <;> omega
  rw [signBit_eq_twoPow, BitVec.and_twoPow]
  cases v.getLsbD (c.xlen - 1)
  · simp
  · simp only [if_true, iff_true]
    intro h
    have hbit := congrArg (BitVec.getLsbD · (c.xlen - 1)) h
    simp [hlt] at hbit

theorem toNat_getLsbD {w : Nat} (v : BitVec w) (j : Nat) : (v.getLsbD j).toNat = v.toNat / 2 ^ j % 2 := by
  rw [← BitVec.testBit_toNat, Nat.testBit_eq_decide_div_mod_eq]
  rcases Nat.mod_two_eq_zero_or_one (v.toNat / 2 ^ j) with h | h <;> simp [h]

/-! ## 64-bit counters -/

section Counters
variable {s : State} {v : Word}

theorem norm_of_fits (h : fits s v) : s.cfg.norm v = v := s.cfg.norm_of_lt v h

theorem toNat_counterWritten (old : BitVec 64) (h : s.cfg.rv64 = false) (hv : fits s v) :
    (counterWritten s.cfg old v).toNat = old.toNat / 2 ^ 32 * 2 ^ 32 + v.toNat := by
  have hlt : v.toNat < 2 ^ 32 := by
    obtain ⟨h', -⟩ | ⟨-, hx⟩ := s.cfg.xlen_cases
    · simp [h] at h'
    · unfold fits at hv
      rwa [hx] at hv
  have hold := old.isLt
  simp only [counterWritten, h, Bool.false_eq_true, if_false, BitVec.toNat_append, BitVec.extractLsb'_toNat,
    BitVec.toNat_setWidth, Nat.mod_eq_of_lt hlt, Nat.shiftRight_eq_div_pow]
  rw [← Nat.shiftLeft_add_eq_or_of_lt hlt, Nat.shiftLeft_eq]
  omega

theorem toNat_counterHighWritten (old : BitVec 64) (h : s.cfg.rv64 = false) (hv : fits s v) :
    (counterHighWritten old v).toNat = v.toNat * 2 ^ 32 + old.toNat % 2 ^ 32 := by
  have hlt : v.toNat < 2 ^ 32 := by
    obtain ⟨h', -⟩ | ⟨-, hx⟩ := s.cfg.xlen_cases
    · simp [h] at h'
    · unfold fits at hv
      rwa [hx] at hv
  have hlow : old.toNat % 2 ^ 32 < 2 ^ 32 := Nat.mod_lt _ (by decide)
  simp only [counterHighWritten, BitVec.toNat_append, BitVec.toNat_setWidth, Nat.mod_eq_of_lt hlt]
  rw [← Nat.shiftLeft_add_eq_or_of_lt hlow, Nat.shiftLeft_eq]

theorem norm_counterWritten (old : BitVec 64) (hv : fits s v) : s.cfg.norm (counterWritten s.cfg old v) = v := by
  obtain ⟨h, hx⟩ | ⟨h, hx⟩ := s.cfg.xlen_cases
  · rw [counterWritten, if_pos h, norm_of_fits hv]
  · apply BitVec.eq_of_toNat_eq
    rw [Config.norm_toNat, toNat_counterWritten old h hv, hx]
    unfold fits at hv
    rw [hx] at hv
    omega

theorem norm_highHalf_counterHighWritten (old : BitVec 64) (h : s.cfg.rv64 = false) (hv : fits s v) :
    s.cfg.norm (highHalf (counterHighWritten old v)) = v := by
  apply BitVec.eq_of_toNat_eq
  unfold fits at hv
  rw [Config.norm_toNat, highHalf, BitVec.toNat_ushiftRight, toNat_counterHighWritten (s := s) old h hv,
    Nat.shiftRight_eq_div_pow]
  rw [show (v.toNat * 2 ^ 32 + old.toNat % 2 ^ 32) / 2 ^ 32 = v.toNat by omega]
  exact Nat.mod_eq_of_lt hv

end Counters

/-! ## Reading back what was written -/

section ReadBack
variable {s u : State} {r : Csr} {v : Word}

/-- The registers that hold the whole value. -/
theorem csrRead_plain (hv : fits s v) (h : s.csrWrite r v = some u)
    (hr : r ∈ [Csr.mscratch, .sscratch, .mbadaddr, .mibase, .mibound, .mdbase, .mdbound, .mtohost, .mfromhost]) :
    u.csrRead r = v := by
  simp only [List.mem_cons, List.not_mem_nil, or_false] at hr
  rcases hr with rfl | rfl | rfl | rfl | rfl | rfl | rfl | rfl | rfl <;> obtain rfl := Option.some.inj h <;>
    exact norm_of_fits hv

/-- The access paths of R129 read back through whichever storage is behind them. -/
theorem csrRead_path (hv : fits s v) (h : s.csrWrite r v = some u) (hr : r ∈ [Csr.mbase, .mbound]) :
    u.csrRead r = v := by
  simp only [List.mem_cons, List.not_mem_nil, or_false] at hr
  cases hb : s.cfg.hasMbbid <;> rcases hr with rfl | rfl <;> simp only [State.csrWrite, hb] at h <;> cases h <;>
    simp only [State.csrRead, State.csrRaw, hb] <;> exact norm_of_fits hv

theorem csrRead_counter (hv : fits s v) (h : s.csrWrite r v = some u)
    (hr : r ∈ [Csr.cycle, .time, .instret, .mtime, .stime]) : u.csrRead r = v := by
  simp only [List.mem_cons, List.not_mem_nil, or_false] at hr
  rcases hr with rfl | rfl | rfl | rfl | rfl <;> obtain rfl := Option.some.inj h <;> exact norm_counterWritten _ hv

theorem csrRead_counterHigh (hv : fits s v) (h : s.csrWrite r v = some u) (h32 : s.cfg.rv64 = false)
    (hr : r ∈ [Csr.cycleh, .timeh, .instreth, .mtimeh, .stimeh]) : u.csrRead r = v := by
  simp only [List.mem_cons, List.not_mem_nil, or_false] at hr
  rcases hr with rfl | rfl | rfl | rfl | rfl <;> obtain rfl := Option.some.inj h <;>
    exact norm_highHalf_counterHighWritten _ h32 hv

theorem csrRead_aligned (hv : fits s v) (h : s.csrWrite r v = some u) (hr : r ∈ [Csr.mepc, .sepc, .stvec]) :
    (u.csrRead r).toNat = v.toNat / 4 * 4 := by
  have hnorm : s.cfg.norm (align4 v) = align4 v := norm_of_fits (fits_and hv _)
  simp only [List.mem_cons, List.not_mem_nil, or_false] at hr
  rcases hr with rfl | rfl | rfl <;> obtain rfl := Option.some.inj h <;>
    exact (congrArg BitVec.toNat hnorm).trans (toNat_align4 v)

theorem csrRead_sptbr (hv : fits s v) (h : s.csrWrite .sptbr v = some u) :
    (u.csrRead .sptbr).toNat = v.toNat / 4096 * 4096 := by
  have hnorm : s.cfg.norm (align4096 v) = align4096 v := norm_of_fits (fits_and hv _)
  obtain rfl := Option.some.inj h
  exact (congrArg BitVec.toNat hnorm).trans (toNat_align4096 v)

theorem csrRead_sasid (hv : fits s v) (h : s.csrWrite .sasid v = some u) :
    (u.csrRead .sasid).toNat = v.toNat % 2 ^ s.cfg.asidLen := by
  have hnorm : s.cfg.norm (v &&& asidMask s.cfg) = v &&& asidMask s.cfg := norm_of_fits (fits_and hv _)
  obtain rfl := Option.some.inj h
  exact (congrArg BitVec.toNat hnorm).trans (toNat_and_asidMask s.cfg v)

theorem csrRead_mtdeleg (hv : fits s v) (h : s.csrWrite .mtdeleg v = some u) :
    u.csrRead .mtdeleg = v &&& s.cfg.mtdelegMask := by
  obtain rfl := Option.some.inj h
  exact norm_of_fits (fits_and hv _)

/-- The low `n` bits of a value, zero-extended, read as they stand. -/
theorem toNat_norm_setWidth (c : Config) {n : Nat} (hn : n ≤ 32) (w : BitVec n) :
    (c.norm (w.setWidth 64)).toNat = w.toNat := by
  have hlt : w.toNat < 2 ^ 32 := Nat.lt_of_lt_of_le w.isLt (Nat.pow_le_pow_right (by decide) hn)
  rw [Config.norm_toNat, BitVec.toNat_setWidth]
  obtain ⟨-, hx⟩ | ⟨-, hx⟩ := c.xlen_cases <;> rw [hx] <;> omega

theorem csrRead_compare (h : s.csrWrite r v = some u) (hr : r ∈ [Csr.mtimecmp, .stimecmp]) :
    (u.csrRead r).toNat = v.toNat % 2 ^ 32 := by
  simp only [List.mem_cons, List.not_mem_nil, or_false] at hr
  rcases hr with rfl | rfl <;> obtain rfl := Option.some.inj h <;>
    exact (toNat_norm_setWidth s.cfg (by decide) _).trans (BitVec.toNat_setWidth _ _)

theorem csrRead_mcause (h : s.csrWrite .mcause v = some u) :
    (u.csrRead .mcause).toNat =
      v.toNat / 2 ^ (s.cfg.xlen - 1) % 2 * 2 ^ (s.cfg.xlen - 1) + v.toNat % 16 := by
  obtain rfl := Option.some.inj h
  refine (norm_cause_value s.cfg _).trans ?_
  rw [← toNat_getLsbD]
  have hcode : (v.setWidth 4).toNat = v.toNat % 16 := BitVec.toNat_setWidth 4 v
  simp only [Cause.written, decide_eq_true_eq, and_signBit_ne_zero, hcode]
  cases v.getLsbD (s.cfg.xlen - 1) <;> simp

theorem csrRead_fflags (t : State) : (t.csrRead .fflags).toNat = t.fflags.toNat :=
  toNat_norm_setWidth t.cfg (by decide) _

theorem csrRead_frm (t : State) : (t.csrRead .frm).toNat = t.frm.toNat := toNat_norm_setWidth t.cfg (by decide) _

theorem csrRead_fcsr (t : State) : (t.csrRead .fcsr).toNat = t.frm.toNat * 32 + t.fflags.toNat := by
  refine (toNat_norm_setWidth t.cfg (by decide) _).trans ?_
  rw [State.fcsr, BitVec.toNat_append, ← Nat.shiftLeft_add_eq_or_of_lt t.fflags.isLt, Nat.shiftLeft_eq]

theorem letters_lt (c : Config) : c.letters < 2 ^ 24 := by
  unfold Config.letters
  split <;> split <;> split <;> split <;> split <;> decide

/-- A `mcpuid` that agrees with the other parameters is an XLEN-bit value. -/
theorem fits_mcpuid (h : s.cfg.mcpuidOk = true) : fits s s.cfg.mcpuid := by
  simp only [Config.mcpuidOk, Bool.or_eq_true, decide_eq_true_eq] at h
  unfold fits
  rcases h with h | h
  · simp [h]
  · obtain ⟨-, hx⟩ | ⟨h32, hx⟩ := s.cfg.xlen_cases
    · rw [hx]
      exact s.cfg.mcpuid.isLt
    · have hbase : s.cfg.baseCode ≤ 1 := by
        revert h32
        cases hb : s.cfg.base <;> simp [Config.rv64, Config.baseCode, hb]
      have hletters := letters_lt s.cfg
      rw [h, hx]
      omega

/-- The identity registers read the parameters: in an admitted configuration these are XLEN-bit values. -/
theorem csrRead_identity (hc : s.cfg.admitted = true) :
    s.csrRead .mcpuid = s.cfg.mcpuid ∧ s.csrRead .mimpid = s.cfg.mimpid ∧ s.csrRead .mhartid = s.cfg.mhartid := by
  unfold Config.admitted at hc
  simp only [Bool.and_eq_true, beq_iff_eq] at hc
  obtain ⟨⟨⟨⟨⟨⟨⟨⟨⟨-, hcpu⟩, -⟩, himp⟩, hhart⟩, -⟩, -⟩, -⟩, -⟩, -⟩ := hc
  exact ⟨norm_of_fits (fits_mcpuid hcpu), himp, hhart⟩

/-- Half a counter is written, the other half stays. -/
theorem counter_half_written (hv : fits s v) (h : s.csrWrite r v = some u) (h32 : s.cfg.rv64 = false)
    {low high : Csr} {old new : BitVec 64}
    (hmem : (low, high, old, new) ∈
      [ (Csr.cycle, Csr.cycleh, s.cycle, u.cycle), (.time, .timeh, s.time, u.time)
      , (.instret, .instreth, s.instret, u.instret), (.mtime, .mtimeh, s.mtime, u.mtime)
      , (.stime, .stimeh, s.stime, u.stime) ]) :
    (r = low → new.toNat = old.toNat / 2 ^ 32 * 2 ^ 32 + v.toNat) ∧
    (r = high → new.toNat = v.toNat * 2 ^ 32 + old.toNat % 2 ^ 32) := by
  simp only [List.mem_cons, List.not_mem_nil, or_false, Prod.mk.injEq] at hmem
  constructor
  · rintro rfl
    rcases hmem with ⟨rfl, -, rfl, rfl⟩ | ⟨rfl, -, rfl, rfl⟩ | ⟨rfl, -, rfl, rfl⟩ | ⟨rfl, -, rfl, rfl⟩ |
      ⟨rfl, -, rfl, rfl⟩ <;> obtain rfl := Option.some.inj h <;> exact toNat_counterWritten _ h32 hv
  · rintro rfl
    rcases hmem with ⟨-, rfl, rfl, rfl⟩ | ⟨-, rfl, rfl, rfl⟩ | ⟨-, rfl, rfl, rfl⟩ | ⟨-, rfl, rfl, rfl⟩ |
      ⟨-, rfl, rfl, rfl⟩ <;> obtain rfl := Option.some.inj h <;> exact toNat_counterHighWritten (s := s) _ h32 hv

end ReadBack

/-- Settles O32: register by register. -/
theorem csrReadBack : Obligations.CsrReadBack := by
  intro s u r v hv h
  refine ⟨fun hr => ?whole, csrRead_aligned hv h, ?sptbr, ?sasid, csrRead_compare h, ?mcause, ?mtdeleg, ?fflags, ?frm,
    ?fcsr, fun hr h32 => csrRead_counterHigh hv h h32 hr, fun _ _ _ _ hmem h32 => counter_half_written hv h h32 hmem,
    csrRead_identity⟩
  case whole =>
    have hkind : r ∈ [Csr.mscratch, .sscratch, .mbadaddr, .mibase, .mibound, .mdbase, .mdbound, .mtohost,
        .mfromhost] ∨ r ∈ [Csr.mbase, .mbound] ∨ r ∈ [Csr.cycle, .time, .instret, .mtime, .stime] := by
      revert hr
      simp only [List.mem_cons, List.not_mem_nil, or_false]
      tauto
    rcases hkind with hr | hr | hr
    · exact csrRead_plain hv h hr
    · exact csrRead_path hv h hr
    · exact csrRead_counter hv h hr
  case sptbr => rintro rfl; exact csrRead_sptbr hv h
  case sasid => rintro rfl; exact csrRead_sasid hv h
  case mcause => rintro rfl; exact csrRead_mcause h
  case mtdeleg => rintro rfl; exact csrRead_mtdeleg hv h
  case fflags =>
    rintro rfl
    obtain rfl := Option.some.inj h
    exact ⟨(csrRead_fflags _).trans (BitVec.toNat_setWidth 5 v), rfl⟩
  case frm =>
    rintro rfl
    obtain rfl := Option.some.inj h
    exact ⟨(csrRead_frm _).trans (BitVec.toNat_setWidth 3 v), rfl⟩
  case fcsr =>
    rintro rfl
    obtain rfl := Option.some.inj h
    have hflags : (v.setWidth 5).toNat = v.toNat % 32 := BitVec.toNat_setWidth 5 v
    have hmode : (v.extractLsb' 5 3).toNat = v.toNat / 32 % 8 := by
      rw [BitVec.extractLsb'_toNat, Nat.shiftRight_eq_div_pow]
    refine ⟨(csrRead_fflags _).trans hflags, (csrRead_frm _).trans hmode, (csrRead_fcsr _).trans ?_⟩
    change (v.extractLsb' 5 3).toNat * 32 + (v.setWidth 5).toNat = v.toNat % 256
    rw [hmode, hflags]
    omega

/-! ## `mstatus` and `sstatus` -/

theorem toNat_append {m n : Nat} (x : BitVec m) (y : BitVec n) : (x ++ y).toNat = x.toNat * 2 ^ n + y.toNat := by
  rw [BitVec.toNat_append, ← Nat.shiftLeft_add_eq_or_of_lt y.isLt, Nat.shiftLeft_eq]

/-- The sign bit stands above the 22 bits of the status fields. -/
theorem toNat_norm_or_signBit (c : Config) (v : BitVec 22) (b : Bool) :
    (c.norm (v.setWidth 64 ||| (if b then c.signBit else 0))).toNat =
      v.toNat + (if b then 2 ^ (c.xlen - 1) else 0) := by
  have hv := v.isLt
  have hw : (v.setWidth 64).toNat = v.toNat := by
    rw [BitVec.toNat_setWidth]
    omega
  rw [Config.norm_toNat, BitVec.toNat_or, hw]
  cases b
  · obtain ⟨-, hx⟩ | ⟨-, hx⟩ := c.xlen_cases <;> simp [hx] <;> omega
  · have hlt : v.toNat < 2 ^ (c.xlen - 1) := by
      obtain ⟨-, hx⟩ | ⟨-, hx⟩ := c.xlen_cases <;> rw [hx] <;> omega
    have hsign : c.signBit.toNat = 2 ^ (c.xlen - 1) * 1 := by
      obtain ⟨h, hx⟩ | ⟨h, hx⟩ := c.xlen_cases <;> simp [Config.signBit, h, hx]
    rw [if_pos rfl, if_pos rfl, hsign, Nat.or_comm, ← Nat.two_pow_add_eq_or_of_lt hlt]
    obtain ⟨-, hx⟩ | ⟨-, hx⟩ := c.xlen_cases <;> rw [hx] at hlt ⊢ <;> omega

theorem sd_iff (m : Mstatus) : m.sd = true ↔ m.fs = .dirty ∨ m.xs = .dirty := by
  simp [Mstatus.sd]

theorem toNat_entry_bits (e : StackEntry) : e.bits.toNat = e.ie.toNat + 2 * prvNumber e.prv := by
  obtain ⟨p, i⟩ := e
  cases p <;> cases i <;> rfl

theorem mstatus_read (s : State) :
    (s.csrRead .mstatus).toNat =
      s.mstatus.e0.ie.toNat + 2 * prvNumber s.mstatus.e0.prv + 8 * s.mstatus.e1.ie.toNat +
      16 * prvNumber s.mstatus.e1.prv +
      (if s.cfg.depth = 3 then 64 * s.mstatus.e2.ie.toNat + 128 * prvNumber s.mstatus.e2.prv else 0) +
      4096 * statusNumber s.mstatus.fs + 16384 * statusNumber s.mstatus.xs + 65536 * s.mstatus.mprv.toNat +
      131072 * vmNumber s.mstatus.vm +
      (if s.mstatus.fs = .dirty ∨ s.mstatus.xs = .dirty then 2 ^ (s.cfg.xlen - 1) else 0) := by
  refine (toNat_norm_or_signBit s.cfg _ _).trans ?_
  have he2 : (if s.cfg.depth = 3 then s.mstatus.e2.bits else 0#3).toNat =
      if s.cfg.depth = 3 then s.mstatus.e2.ie.toNat + 2 * prvNumber s.mstatus.e2.prv else 0 := by
    split
    · exact toNat_entry_bits _
    · rfl
  simp only [toNat_append, he2, toNat_entry_bits, ← vmNumber_code, ← statusNumber_code, BitVec.toNat_ofBool, sd_iff]
  split <;> split <;> simp <;> omega

/-- The bits of a write that `mstatus` looks at. -/
theorem mstatus_written_congr (m : Mstatus) (c : Config) {v w : Word} (h : ∀ j < 22, v.getLsbD j = w.getLsbD j) :
    m.written c v = m.written c w := by
  have key : ∀ start len, start + len ≤ 22 → v.extractLsb' start len = w.extractLsb' start len := by
    intro start len hle
    apply BitVec.eq_of_getLsbD_eq
    intro j hj
    simp only [BitVec.getLsbD_extractLsb', h (start + j) (by omega)]
  simp only [Mstatus.written, fsWritten, xsWritten, key 0 3 (by decide), key 3 3 (by decide), key 6 3 (by decide),
    key 17 5 (by decide), key 12 2 (by decide), key 14 2 (by decide), h 16 (by decide)]

/-- Settles O34: the fields at their places, and no storage behind SD. -/
theorem mstatusRead : Obligations.MstatusRead := by
  intro s
  refine ⟨mstatus_read s, fun v w h => ?_⟩
  have hbits : ∀ j < 22, v.getLsbD j = w.getLsbD j := by
    intro j hj
    have hlow : s.cfg.signBit.getLsbD j = false := by
      rw [signBit_eq_twoPow, BitVec.getLsbD_twoPow]
      obtain ⟨-, hx⟩ | ⟨-, hx⟩ := s.cfg.xlen_cases <;> rw [hx] <;> simp <;> omega
    have hbit := congrArg (BitVec.getLsbD · j) h
    simpa only [BitVec.getLsbD_and, BitVec.getLsbD_not, hlow, show j < 64 by omega, decide_true, Bool.not_false,
      Bool.and_true] using hbit
  simp only [State.csrWrite, mstatus_written_congr s.mstatus s.cfg hbits]

/-- The fields of `sstatus` below SD, as one number. -/
def Mstatus.supervisorBits (m : Mstatus) : BitVec 22 :=
  0#5 ++ BitVec.ofBool m.mprv ++ m.xs.code ++ m.fs.code ++ 0#7 ++ BitVec.ofBool (decide (m.e1.prv ≠ .user)) ++
    BitVec.ofBool m.e1.ie ++ 0#2 ++ BitVec.ofBool m.e0.ie

theorem supervisorFields_eq : ∀ (ie0 ie1 ps mprv : Bool) (xs fs : BitVec 2),
    bitAt ie0 0 ||| bitAt ie1 3 ||| bitAt ps 4 ||| (xs ++ fs ++ 0#12).setWidth 64 ||| bitAt mprv 16 =
      (0#5 ++ BitVec.ofBool mprv ++ xs ++ fs ++ 0#7 ++ BitVec.ofBool ps ++ BitVec.ofBool ie1 ++ 0#2 ++
        BitVec.ofBool ie0 : BitVec 22).setWidth 64 := by
  decide

theorem supervisorValue_eq (m : Mstatus) (c : Config) :
    m.supervisorValue c = m.supervisorBits.setWidth 64 ||| (if m.sd then c.signBit else 0) := by
  rw [Mstatus.supervisorValue, supervisorFields_eq, Mstatus.supervisorBits]

theorem sstatus_read (s : State) :
    (s.csrRead .sstatus).toNat =
      s.mstatus.e0.ie.toNat + 8 * s.mstatus.e1.ie.toNat + (if s.mstatus.e1.prv = .user then 0 else 16) +
      4096 * statusNumber s.mstatus.fs + 16384 * statusNumber s.mstatus.xs + 65536 * s.mstatus.mprv.toNat +
      (if s.mstatus.fs = .dirty ∨ s.mstatus.xs = .dirty then 2 ^ (s.cfg.xlen - 1) else 0) := by
  rw [State.csrRead, State.csrRaw, supervisorValue_eq, toNat_norm_or_signBit]
  simp only [Mstatus.supervisorBits, toNat_append, ← statusNumber_code, BitVec.toNat_ofBool, sd_iff]
  by_cases hp : s.mstatus.e1.prv = .user <;> simp [hp] <;> omega

theorem toNat_field {w : Nat} (v : BitVec w) (start len : Nat) :
    (v.extractLsb' start len).toNat = v.toNat / 2 ^ start % 2 ^ len := by
  rw [BitVec.extractLsb'_toNat, Nat.shiftRight_eq_div_pow]

theorem statusNumber_fsWritten (c : Config) (v : Word) :
    statusNumber (fsWritten c v) = if c.hasF then v.toNat / 4096 % 4 else 0 := by
  unfold fsWritten
  split
  · exact (statusNumber_ofCode _).trans (toNat_field v _ _)
  · rfl

theorem statusNumber_xsWritten (c : Config) (v : Word) :
    statusNumber (xsWritten c v) = if c.hasXs then v.toNat / 16384 % 4 else 0 := by
  unfold xsWritten
  split
  · exact (statusNumber_ofCode _).trans (toNat_field v _ _)
  · rfl

/-- Settles O35: the view read, and the fields of the view written. -/
theorem sstatusView : Obligations.SstatusView := fun s =>
  ⟨sstatus_read s, fun v => ⟨_, rfl, rfl, rfl, rfl, statusNumber_fsWritten _ v, statusNumber_xsWritten _ v, rfl, rfl,
    rfl⟩⟩

/-! ### Which writes of `mstatus` are refused -/

theorem entry_written_eq_none (old : StackEntry) (c : Config) (b : BitVec 3) :
    old.written c b = none ↔ c.modes ≠ .m ∧ ∀ p, prvNumber p = (b.extractLsb' 1 2).toNat → c.supports p = false := by
  unfold StackEntry.written
  split
  · simp [*]
  · rename_i hm
    simp only [← ofCode_priv, ne_eq, hm, not_false_eq_true, true_and]
    cases h : Priv.ofCode (b.extractLsb' 1 2) with
    | none => simp
    | some p => by_cases hp : c.supports p = true <;> simp [hp]

theorem schemeWritten_eq_none (c : Config) (b : BitVec 5) :
    schemeWritten c b = none ↔ ∀ k, vmNumber k = b.toNat → c.supportsScheme k = false := by
  unfold schemeWritten
  simp only [← ofCode_scheme]
  cases h : Scheme.ofCode b with
  | none => simp
  | some k => by_cases hk : c.supportsScheme k = true <;> simp [hk]

/-- A write of `mstatus` is refused where that of one of its fields is. -/
theorem mstatus_written_eq_none (m : Mstatus) (c : Config) (v : Word) :
    m.written c v = none ↔ schemeWritten c (v.extractLsb' 17 5) = none ∨ m.e0.written c (v.extractLsb' 0 3) = none ∨
      m.e1.written c (v.extractLsb' 3 3) = none ∨ (c.depth = 3 ∧ m.e2.written c (v.extractLsb' 6 3) = none) := by
  unfold Mstatus.written
  by_cases hd : c.depth = 3
  · rw [if_pos hd]
    split
    · rename_i h0 h1 h2 h3
      simp [h0, h1, h2, h3]
    · rename_i hnone
      refine iff_of_true rfl ?_
      by_contra hcon
      simp only [not_or, hd, true_and, ← ne_eq, Option.ne_none_iff_exists'] at hcon
      obtain ⟨⟨vm, h3⟩, ⟨e0, h0⟩, ⟨e1, h1⟩, e2, h2⟩ := hcon
      exact hnone e0 e1 e2 vm h0 h1 h2 h3
  · rw [if_neg hd]
    split
    · rename_i h0 h1 h2 h3
      simp [h0, h1, hd, h3]
    · rename_i hnone
      refine iff_of_true rfl ?_
      by_contra hcon
      simp only [not_or, hd, false_and, not_false_eq_true, and_true, ← ne_eq, Option.ne_none_iff_exists'] at hcon
      obtain ⟨⟨vm, h3⟩, ⟨e0, h0⟩, e1, h1⟩ := hcon
      exact hnone e0 e1 m.e2 vm h0 h1 rfl h3

theorem modes_of_depth {c : Config} (h : c.depth = 3) : c.modes ≠ .m := by
  intro hm
  simp [Config.depth, hm] at h

/-- The mode field of an entry, as a number of the value written. -/
theorem toNat_entry_prv (v : Word) (start : Nat) :
    ((v.extractLsb' start 3).extractLsb' 1 2).toNat = v.toNat / 2 ^ (start + 1) % 4 := by
  rw [toNat_field, toNat_field, Nat.pow_succ 2 start, ← Nat.div_div_eq_div_mul]
  omega

theorem csrWrite_mstatus_eq_none (s : State) (v : Word) :
    s.csrWrite .mstatus v = none ↔ s.mstatus.written s.cfg v = none := by
  simp only [State.csrWrite]
  cases s.mstatus.written s.cfg v <;> simp

/-- What an accepted write leaves in an entry. -/
theorem entry_written_fields {old e : StackEntry} {c : Config} {v : Word} {start : Nat}
    (h : old.written c (v.extractLsb' start 3) = some e) :
    e.ie = v.getLsbD start ∧ (c.modes ≠ .m → prvNumber e.prv = v.toNat / 2 ^ (start + 1) % 4) ∧
    (c.modes = .m → e.prv = old.prv) := by
  have hie : (v.extractLsb' start 3).getLsbD 0 = v.getLsbD start := by simp
  rcases entry_written h with ⟨hm, rfl⟩ | ⟨hm, hcode, -, he⟩
  · exact ⟨hie, fun hne => absurd hm hne, fun _ => rfl⟩
  · exact ⟨he.trans hie, fun _ => ((ofCode_priv _ _).1 hcode).trans (toNat_entry_prv v start), fun heq => absurd heq hm⟩

/-- Settles O33: refused exactly where a field is; an accepted write field by field. -/
theorem mstatusWrite : Obligations.MstatusWrite := by
  intro s v
  constructor
  · rw [csrWrite_mstatus_eq_none, mstatus_written_eq_none, schemeWritten_eq_none, entry_written_eq_none,
      entry_written_eq_none, entry_written_eq_none]
    simp only [toNat_entry_prv]
    rw [toNat_field]
    have hd := @modes_of_depth s.cfg
    norm_num only
    tauto
  · intro u hu
    obtain ⟨m, hm, rfl⟩ := csrWrite_mstatus hu
    obtain ⟨e0, e1, e2, vm, h0, h1, h2, h3, rfl⟩ := mstatus_written hm
    obtain ⟨hie0, hprv0, hown0⟩ := entry_written_fields h0
    obtain ⟨hie1, hprv1, hown1⟩ := entry_written_fields h1
    have hvm : vmNumber vm = v.toNat / 131072 % 32 :=
      ((ofCode_scheme _ _).1 (scheme_written h3).1).trans (toNat_field v 17 5)
    have hdeep : s.cfg.depth = 3 →
        e2.ie = v.getLsbD 6 ∧ (s.cfg.modes ≠ .m → prvNumber e2.prv = v.toNat / 2 ^ (6 + 1) % 4) := by
      intro hd
      rw [if_pos hd] at h2
      exact ⟨(entry_written_fields h2).1, (entry_written_fields h2).2.1⟩
    have hshallow : s.cfg.depth ≠ 3 → e2 = s.mstatus.e2 := by
      intro hd
      rw [if_neg hd] at h2
      exact (Option.some.inj h2).symm
    exact ⟨hvm, rfl, hie0, hie1, fun hd => (hdeep hd).1, hshallow,
      fun hne => ⟨hprv0 hne, hprv1 hne, fun hd => (hdeep hd).2 hne⟩, fun heq => ⟨hown0 heq, hown1 heq⟩,
      statusNumber_fsWritten _ v, statusNumber_xsWritten _ v, rfl⟩

/-! ## Timers and interrupt registers -/

theorem passes_zero_iff (counter : BitVec 64) (compare : BitVec 32) :
    passes counter compare 0 = true ↔ counter.setWidth 32 = compare := by
  simp [passes_iff]

/-- Settles O36: the latch is cleared, then set where the counter stands on the new value. -/
theorem compareWriteClearsTimer : Obligations.CompareWriteClearsTimer := by
  intro s u v
  refine ⟨fun h => ?mtimecmp, fun h => ?stimecmp, fun h hset => ?mtime, fun h => ?mip⟩
  case mtimecmp =>
    obtain rfl := Option.some.inj h
    refine ⟨rfl, ?_⟩
    simp only [State.latchTimers, State.latched, Bool.false_or, passes_zero_iff]
  case stimecmp =>
    obtain rfl := Option.some.inj h
    refine ⟨rfl, ?_⟩
    simp only [State.latchTimers, State.latched, Bool.false_or, Bool.and_eq_true, passes_zero_iff]
  case mtime =>
    obtain rfl := Option.some.inj h
    simp [State.latchTimers, State.latched, hset]
  case mip =>
    obtain rfl := Option.some.inj h
    exact ⟨rfl, rfl⟩

/-- The interrupt registers hold the same bits whatever XLEN is. -/
theorem norm_irqBits_value (c : Config) (b : IrqBits) :
    (c.norm b.value).toNat = 2 * b.ssi.toNat + 8 * b.msi.toNat + 32 * b.sti.toNat + 128 * b.mti.toNat := by
  have hval : b.value.toNat = 2 * b.ssi.toNat + 8 * b.msi.toNat + 32 * b.sti.toNat + 128 * b.mti.toNat := by
    obtain ⟨ssi, msi, sti, mti⟩ := b
    revert ssi msi sti mti
    decide
  have hlt : b.value.toNat < 2 ^ 32 := by
    have h1 := b.ssi.toNat_lt
    have h2 := b.msi.toNat_lt
    have h3 := b.sti.toNat_lt
    have h4 := b.mti.toNat_lt
    omega
  rw [Config.norm_toNat, ← hval]
  obtain ⟨-, hx⟩ | ⟨-, hx⟩ := c.xlen_cases <;> rw [hx] <;> omega

theorem supervisorValue_eq_value (b : IrqBits) : b.supervisorValue = IrqBits.value ⟨b.ssi, false, b.sti, false⟩ := by
  obtain ⟨ssi, msi, sti, mti⟩ := b
  revert ssi msi sti mti
  decide

theorem norm_irqBits_supervisorValue (c : Config) (b : IrqBits) :
    (c.norm b.supervisorValue).toNat = 2 * b.ssi.toNat + 32 * b.sti.toNat := by
  rw [supervisorValue_eq_value, norm_irqBits_value]
  simp

/-- Settles O37: the four registers read, and their writable bits. -/
theorem interruptRegisters : Obligations.InterruptRegisters := fun s _ =>
  ⟨norm_irqBits_value s.cfg s.mip, norm_irqBits_value s.cfg s.mie, norm_irqBits_supervisorValue s.cfg s.mip,
    norm_irqBits_supervisorValue s.cfg s.mie, rfl, rfl, rfl, rfl⟩

/-! ## `mtvec` -/

theorem getLsbD_norm (c : Config) (v : Word) {j : Nat} (h : j < c.xlen) : (c.norm v).getLsbD j = v.getLsbD j := by
  rw [← BitVec.testBit_toNat, Config.norm_toNat, Nat.testBit_mod_two_pow, BitVec.testBit_toNat]
  simp [h]

theorem lt_xlen_of_getLsbD {c : Config} {v : Word} (hv : c.norm v = v) {j : Nat} (h : v.getLsbD j = true) :
    j < c.xlen := by
  by_contra hj
  rw [← hv, ← BitVec.testBit_toNat, Config.norm_toNat, Nat.testBit_mod_two_pow] at h
  simp [hj] at h

/-- The writable bits below the sign bit, as a number. -/
def lowerMask (c : Config) : Nat := c.mtvecMask.toNat % 2 ^ (c.xlen - 1)

theorem lowerMask_testBit (c : Config) (j : Nat) :
    (lowerMask c).testBit j = (decide (j < c.xlen - 1) && c.mtvecMask.getLsbD j) := by
  rw [lowerMask, Nat.testBit_mod_two_pow, BitVec.testBit_toNat]

/-- What R94 asks of a mask that is not zero. -/
theorem mtvecMask_of_admitted {c : Config} (h : c.admitted = true) (hne : c.mtvecMask ≠ 0) :
    c.norm c.mtvecMask = c.mtvecMask ∧ c.mtvecMask &&& 3 = 0 ∧ 256 ≤ lowerMask c := by
  have hok : c.mtvecMaskOk = true := by
    unfold Config.admitted at h
    simp only [Bool.and_eq_true] at h
    tauto
  simp only [Config.mtvecMaskOk, Bool.or_eq_true, beq_iff_eq, hne, false_or, Bool.and_eq_true, bne_iff_ne,
    ne_eq] at hok
  obtain ⟨⟨⟨⟨hnorm, hlow⟩, -⟩, hupper⟩, -⟩ := hok
  refine ⟨hnorm, hlow, ?_⟩
  unfold lowerMask
  omega

/-- The highest writable bit below the sign bit. -/
theorem mtvecLow_getLsbD {c : Config} (h : 256 ≤ lowerMask c) (j : Nat) (hj : j < 64) :
    (mtvecLow c).getLsbD j = decide (j ≤ (lowerMask c).log2) := by
  have hlog : 1 ≤ (lowerMask c).log2 := (Nat.le_log2 (by omega)).2 (by omega)
  rw [mtvecLow, ← lowerMask, max_eq_right hlog, BitVec.getLsbD_ofNat, Nat.testBit_two_pow_sub_one]
  simp [hj]

/-- A write of `mtvec` bit by bit, for bits above 1. -/
theorem mtvecWritten_getLsbD {c : Config} (hne : c.mtvecMask ≠ 0) (h : 256 ≤ lowerMask c) (old v : Word) {j : Nat}
    (h2 : 2 ≤ j) (hj : j < c.xlen) :
    (mtvecWritten c old v).getLsbD j =
      if j ≤ (lowerMask c).log2 then (if c.mtvecMask.getLsbD j then v.getLsbD j else old.getLsbD j)
      else v.getLsbD (c.xlen - 1) := by
  have h64 : j < 64 := by obtain ⟨-, hx⟩ | ⟨-, hx⟩ := c.xlen_cases <;> omega
  have h3 : (3#64).getLsbD j = false := by
    rw [BitVec.getLsbD_ofNat]
    have hbit : Nat.testBit 3 j = false :=
      Nat.testBit_lt_two_pow (Nat.lt_of_lt_of_le (by decide : 3 < 2 ^ 2) (Nat.pow_le_pow_right (by decide) h2))
    simp [hbit]
  have hlow := mtvecLow_getLsbD h j h64
  rw [mtvecWritten, if_neg hne]
  simp only [getLsbD_norm c _ hj, and_signBit_ne_zero]
  by_cases hle : j ≤ (lowerMask c).log2
  · have hhigh : (if v.getLsbD (c.xlen - 1) = true then ~~~mtvecLow c else 0).getLsbD j = false := by
      split <;> simp [hlow, hle]
    simp only [BitVec.getLsbD_and, BitVec.getLsbD_or, BitVec.getLsbD_not, hhigh, hlow, h3, hle, h64]
    cases c.mtvecMask.getLsbD j <;> simp
  · have hhigh : (if v.getLsbD (c.xlen - 1) = true then ~~~mtvecLow c else 0).getLsbD j = v.getLsbD (c.xlen - 1) := by
      cases v.getLsbD (c.xlen - 1)
      · simp
      · simp only [if_true, BitVec.getLsbD_not, hlow, hle, h64, decide_true, decide_false, Bool.not_false, Bool.and_self]
    simp only [BitVec.getLsbD_and, BitVec.getLsbD_or, BitVec.getLsbD_not, hhigh, hlow, h3, hle, h64]
    simp

/-- Settles O38: bits up to the highest writable one below the sign bit are taken or kept, the others take the sign
bit. -/
theorem mtvecWrite : Obligations.MtvecWrite := by
  intro s u v hc _ h
  obtain rfl := Option.some.inj h
  refine ⟨fun h0 => ?fixed, fun hne => ?written⟩
  case fixed => simp only [mtvecWritten, if_pos h0]
  case written =>
    obtain ⟨hnorm, hlow, hbig⟩ := mtvecMask_of_admitted hc hne
    have hmask2 : ∀ j, s.cfg.mtvecMask.getLsbD j = true → 2 ≤ j := by
      intro j hj
      by_contra hlt
      have hzero := (lowZero_iff _ 2).1 ((and_three_eq_zero _).1 hlow) j (by omega)
      simp [hj] at hzero
    have hlog : ∀ k, s.cfg.mtvecMask.getLsbD k = true → k < s.cfg.xlen - 1 → k ≤ (lowerMask s.cfg).log2 := by
      intro k hk hlt
      have hbit : (lowerMask s.cfg).testBit k = true := by simp [lowerMask_testBit, hk, hlt]
      exact (Nat.le_log2 (by omega)).2 (Nat.ge_two_pow_of_testBit hbit)
    refine ⟨fun j hj => ?taken, fun j hj hfree => ?sign, ?aligned⟩
    case taken =>
      have hlt := lt_xlen_of_getLsbD hnorm hj
      rw [mtvecWritten_getLsbD hne hbig _ _ (hmask2 j hj) hlt, if_pos hj]
      by_cases hsign : j = s.cfg.xlen - 1
      · subst hsign
        split <;> rfl
      · rw [if_pos (hlog j hj (by omega))]
    case sign =>
      have hpos : lowerMask s.cfg ≠ 0 := by omega
      have hgt : (lowerMask s.cfg).log2 < j := by
        by_contra hle
        have htop := Nat.testBit_log2 hpos
        rw [lowerMask_testBit] at htop
        simp only [Bool.and_eq_true, decide_eq_true_eq] at htop
        simp [hfree _ (by omega) htop.1] at htop
      have hlog8 : 8 ≤ (lowerMask s.cfg).log2 := (Nat.le_log2 hpos).2 hbig
      rw [mtvecWritten_getLsbD hne hbig _ _ (by omega) (by omega), if_neg (by omega)]
    case aligned =>
      simp only [mtvecWritten, if_neg hne]
      exact lowZero_norm _ (by decide) (lowZero_andNot _ 3#64 2 (by decide))

end Sys2Proof.Machine

/-! Address translation (20_memory.md R186 to R201; 21_paged_vm.md R230 to R258). -/

namespace Sys2Proof.Machine

/-! ## The physical checks, and the translation from the mapping -/

theorem physCheck_iff (c : Config) (pa n : Nat) (acc : Access) (p : Priv) (controlled : Bool) :
    physCheck c pa n acc p controlled = true ↔
      pa + n ≤ 2 ^ c.palen ∧
      ∃ r ∈ c.regions, r.base ≤ pa ∧ pa + n ≤ r.base + r.size ∧ (acc, n) ∈ r.supported ∧
        (controlled = true → (acc, p) ∈ r.granted) := by
  simp only [physCheck, Region.supports, Region.grants, Bool.and_eq_true, Bool.or_eq_true, decide_eq_true_eq,
    List.any_eq_true, List.contains_eq_mem, Bool.not_eq_true', and_assoc]
  cases controlled <;> simp

theorem controlled_iff (s : State) (acc : Access) :
    s.controlled acc = true ↔ s.prv ≠ .machine ∨ (acc ≠ .fetch ∧ s.mstatus.mprv = true) := by
  simp [State.controlled]

section Mapping
variable {s t : State} {va : Word} {acc : Access} {n pa : Nat}

theorem translate_of_map_found (h : s.map va acc n = .found t pa) :
    s.translate va acc n = if physCheck s.cfg pa n acc (s.effPriv acc) (s.controlled acc) then .found t pa else .fail t := by
  simp only [State.translate, h]

theorem translate_of_map_fail (h : s.map va acc n = .fail t) : s.translate va acc n = .fail t := by
  simp only [State.translate, h]

theorem map_of_untranslated (h : s.mstatus.vm = .mbare ∨ s.effPriv acc = .machine) :
    s.map va acc n = .found s (s.bareAddress va) := by
  unfold State.map
  cases hv : s.mstatus.vm
  case mbare => rfl
  all_goals
    have hm : s.effPriv acc = .machine := h.resolve_left (by simp [hv])
    simp only [hm, if_true]

theorem map_mbb (hv : s.mstatus.vm = .mbb) (hp : s.effPriv acc ≠ .machine) :
    s.map va acc n = s.locate (s.mbbAddress va acc n) := by
  simp only [State.map, hv, if_neg hp]

theorem map_mbbid (hv : s.mstatus.vm = .mbbid) (hp : s.effPriv acc ≠ .machine) :
    s.map va acc n = s.locate (s.mbbidAddress va acc n) := by
  simp only [State.map, hv, if_neg hp]

theorem map_paged (hv : s.mstatus.vm ∈ [Scheme.sv32, .sv39, .sv48]) (hp : s.effPriv acc ≠ .machine) :
    s.map va acc n = s.walkCached va acc (s.effPriv acc) := by
  simp only [List.mem_cons, List.not_mem_nil, or_false] at hv
  rcases hv with hv | hv | hv <;> simp only [State.map, hv, if_neg hp]

end Mapping

/-- Settles O42: no mapping, then the physical checks. -/
theorem untranslatedAccess : Obligations.UntranslatedAccess := by
  intro s va acc n
  refine ⟨?_, controlled_iff s acc, fun pa p controlled => physCheck_iff s.cfg pa n acc p controlled⟩
  rintro pa h rfl
  exact translate_of_map_found (map_of_untranslated h)

/-! ## Base and bound -/

section Segments
variable {c : Config} {base bound : Word} {offset n : Nat}

theorem boundedSum_of_le (h : bound.toNat ≤ offset + (n - 1)) : boundedSum c base bound offset n = none := if_pos h

theorem boundedSum_of_lt (h : offset + (n - 1) < bound.toNat) :
    boundedSum c base bound offset n = some ((offset + base.toNat) % 2 ^ c.xlen % 2 ^ c.palen) :=
  if_neg (by omega)

end Segments

/-- What a segment's mapping means for the access: past the bound it fails, below it the sum is checked. -/
theorem translate_segment {s : State} {va base bound : Word} {acc : Access} {n offset : Nat}
    (h : s.map va acc n = s.locate (boundedSum s.cfg base bound offset n)) :
    (bound.toNat ≤ offset + (n - 1) → s.translate va acc n = .fail s) ∧
    (∀ pa, offset + (n - 1) < bound.toNat → pa = (offset + base.toNat) % 2 ^ s.cfg.xlen % 2 ^ s.cfg.palen →
      s.translate va acc n =
        if physCheck s.cfg pa n acc (s.effPriv acc) (s.controlled acc) then .found s pa else .fail s) := by
  constructor
  · intro hle
    rw [boundedSum_of_le hle] at h
    exact translate_of_map_fail h
  · rintro pa hlt rfl
    rw [boundedSum_of_lt hlt] at h
    exact translate_of_map_found h

theorem mbbPair_eq (s : State) (acc : Access) :
    s.mbbPair acc =
      (if s.cfg.hasMbbid then (if acc = .fetch then s.mibase else s.mdbase) else s.mbase,
        if s.cfg.hasMbbid then (if acc = .fetch then s.mibound else s.mdbound) else s.mbound) := by
  unfold State.mbbPair
  split
  · split <;> rfl
  · rfl

/-- Settles O44: one segment, of the pair that the access uses. -/
theorem baseAndBound : Obligations.BaseAndBound := by
  rintro s va base bound acc n hv hp hbase hbound
  have hpair : s.mbbPair acc = (base, bound) := by rw [mbbPair_eq, hbase, hbound]
  apply translate_segment
  rw [map_mbb hv hp, State.mbbAddress, hpair]

/-- Settles O45: the top bit chooses for a fetch, and each kind of access has its segment. -/
theorem splitBaseAndBound : Obligations.SplitBaseAndBound := by
  rintro s va acc n hv hp -
  refine ⟨fun hacc => ⟨fun hlow => ?below, fun off hoff => ?fetch⟩, fun hacc => ?data⟩
  case below =>
    apply translate_of_map_fail
    rw [map_mbbid hv hp, State.mbbidAddress, if_pos hacc, if_pos hlow]
    rfl
  case fetch =>
    apply translate_segment
    rw [map_mbbid hv hp, State.mbbidAddress, if_pos hacc, if_neg (by omega), hoff, Nat.add_sub_cancel_left]
  case data =>
    apply translate_segment
    rw [map_mbbid hv hp, State.mbbidAddress, if_neg hacc]

/-! ## The search for a leaf -/

theorem pteType_eq_one (pte : Word) : (pteType pte == 1) = decide ((pte.extractLsb' 1 4).toNat = 1) := by
  rw [pteType]
  generalize pte.extractLsb' 1 4 = t
  revert t
  decide

theorem globalLeaf_eq (t : BitVec 4) : globalLeaf t = decide (12 ≤ t.toNat) := by
  revert t
  decide

section Search
variable {c : Config} {m : Memory} {va i a addr : Nat} {glob : Bool} {pte : Word} {leaf : Leaf}

/-- A valid leaf ends the search. -/
theorem findLeaf_of_leaf (ha : addr = a + vpn c va i * pteSize c) (hpte : pte = m.readWord addr (pteSize c))
    (hread : physCheck c addr (pteSize c) .load .supervisor true = true) (hvalid : pteValid pte = true)
    (htype : 2 ≤ (pteType pte).toNat) :
    findLeaf c m va i a glob = some ⟨pte, i, addr, glob || globalLeaf (pteType pte)⟩ := by
  subst ha hpte
  rw [findLeaf]
  simp [hread, hvalid, not_lt.2 htype]

/-- A valid pointer leads to the next level. -/
theorem findLeaf_of_pointer (ha : addr = a + vpn c va (i + 1) * pteSize c) (hpte : pte = m.readWord addr (pteSize c))
    (hread : physCheck c addr (pteSize c) .load .supervisor true = true) (hvalid : pteValid pte = true)
    (htype : (pteType pte).toNat < 2) :
    findLeaf c m va (i + 1) a glob = findLeaf c m va i (ptePpn c pte * 4096) (glob || pteType pte == 1) := by
  subst ha hpte
  rw [findLeaf]
  simp [hread, hvalid, htype]

/-- A search that finds a leaf reads a valid entry first, the leaf or a pointer on the way to it. -/
theorem findLeaf_some (h : findLeaf c m va i a glob = some leaf) :
    ∃ addr pte, addr = a + vpn c va i * pteSize c ∧ pte = m.readWord addr (pteSize c) ∧
      physCheck c addr (pteSize c) .load .supervisor true = true ∧ pteValid pte = true ∧
      ((2 ≤ (pteType pte).toNat ∧ leaf = ⟨pte, i, addr, glob || globalLeaf (pteType pte)⟩) ∨
        ∃ j, i = j + 1 ∧ (pteType pte).toNat < 2 ∧
          findLeaf c m va j (ptePpn c pte * 4096) (glob || pteType pte == 1) = some leaf) := by
  refine ⟨_, _, rfl, rfl, ?_⟩
  rw [findLeaf.eq_def] at h
  simp only at h
  split at h
  · cases h
  · rename_i hread
    split at h
    · cases h
    · rename_i hvalid
      refine ⟨by simpa using hread, by simpa using hvalid, ?_⟩
      split at h
      · rename_i htype
        cases i with
        | zero => cases h
        | succ j => exact .inr ⟨j, rfl, htype, h⟩
      · injection h with h
        exact .inl ⟨by omega, h.symm⟩

end Search

theorem findsLeaf_of_findLeaf {c : Config} {m : Memory} {va : Nat} {leaf : Leaf} (i a : Nat) (glob : Bool)
    (h : findLeaf c m va i a glob = some leaf) : FindsLeaf c m va i a glob leaf := by
  induction i generalizing a glob with
  | zero =>
    obtain ⟨addr, pte, ha, hpte, hread, hvalid, ⟨htype, rfl⟩ | ⟨j, hj, -⟩⟩ := findLeaf_some h
    · rw [globalLeaf_eq]
      exact .leaf 0 a glob addr pte ha hpte hread hvalid htype
    · omega
  | succ i ih =>
    obtain ⟨addr, pte, ha, hpte, hread, hvalid, ⟨htype, rfl⟩ | ⟨j, hj, htype, hnext⟩⟩ := findLeaf_some h
    · rw [globalLeaf_eq]
      exact .leaf (i + 1) a glob addr pte ha hpte hread hvalid htype
    · obtain rfl : i = j := by omega
      have hfound := ih _ _ hnext
      rw [pteType_eq_one] at hfound
      exact .pointer i a glob addr pte leaf ha hpte hread hvalid htype hfound

theorem findLeaf_of_findsLeaf {c : Config} {m : Memory} {va i a : Nat} {glob : Bool} {leaf : Leaf}
    (h : FindsLeaf c m va i a glob leaf) : findLeaf c m va i a glob = some leaf := by
  induction h with
  | leaf i a glob addr pte ha hpte hread hvalid htype =>
    rw [findLeaf_of_leaf ha hpte hread hvalid htype, globalLeaf_eq, pteType]
  | pointer i a glob addr pte found ha hpte hread hvalid htype _ ih =>
    rw [findLeaf_of_pointer ha hpte hread hvalid htype, pteType_eq_one]
    exact ih

/-- Settles O46: the search goes down the levels, the relation down its derivation. -/
theorem walkFindsTheLeaf : Obligations.WalkFindsTheLeaf := fun _ _ _ level table glob _ =>
  ⟨findsLeaf_of_findLeaf level table glob, findLeaf_of_findsLeaf⟩

/-- The leaf found is the entry at its address. -/
theorem pte_of_findsLeaf {c : Config} {m : Memory} {va i a : Nat} {glob : Bool} {leaf : Leaf}
    (h : FindsLeaf c m va i a glob leaf) : leaf.pte = m.readWord leaf.addr (pteSize c) := by
  induction h with
  | leaf _ _ _ _ _ _ hpte => exact hpte
  | pointer _ _ _ _ _ _ _ _ _ _ _ _ ih => exact ih

/-! ## The outcome of a walk -/

theorem getLsbD_signExtend_setWidth (va : Word) {n : Nat} (hn : 0 < n) {j : Nat} (hj : j < 64) :
    ((va.setWidth n).signExtend 64).getLsbD j = va.getLsbD (if j < n then j else n - 1) := by
  rw [BitVec.getLsbD_signExtend]
  split
  · simp [*]
  · simp [BitVec.msb_eq_getLsbD_last, hj, hn]

/-- An address is canonical where the bits from VABITS up equal the one below. -/
theorem canonical_iff (c : Config) (v : Scheme) (va : Word) :
    canonical c v va = true ↔ (c.rv64 = true → ∀ j, v.vaBits ≤ j → j < 64 → va.getLsbD j = va.getLsbD (v.vaBits - 1)) := by
  have hpos : 0 < v.vaBits := by cases v <;> decide
  simp only [canonical, Bool.or_eq_true, Bool.not_eq_true', decide_eq_true_eq]
  cases c.rv64
  · simp
  · simp only [Bool.true_eq_false, false_or, forall_const]
    constructor
    · intro h j hj hlt
      have hbit := getLsbD_signExtend_setWidth va hpos hlt
      rw [h, if_neg (by omega)] at hbit
      exact hbit
    · intro h
      apply BitVec.eq_of_getLsbD_eq
      intro j hj
      rw [getLsbD_signExtend_setWidth va hpos hj]
      split
      · rfl
      · exact (h j (by omega) hj).symm

theorem markedPte_eq (pte : Word) (acc : Access) : markedPte pte acc = usedPte pte acc := rfl

theorem leafAddress_eq (c : Config) (pte : Word) (level : Nat) (va : Word) :
    leafAddress c pte level va.toNat = pageAddress c pte level va := rfl

section Walk
variable {s : State} {va : Word} {acc : Access} {p : Priv} {leaf : Leaf}

/-- The leaf that a walk from the root finds (21_paged_vm.md R245, steps 1 to 4). -/
def State.rootLeaf (s : State) (va : Word) : Option Leaf :=
  findLeaf s.cfg s.mem va.toNat (s.mstatus.vm.levels - 1) s.sptbr.toNat false

theorem walk_of_not_canonical (h : canonical s.cfg s.mstatus.vm va = false) : s.walk va acc p = .fail s := by
  simp [State.walk, h]

theorem walk_of_no_leaf (h : s.rootLeaf va = none) : s.walk va acc p = .fail s := by
  unfold State.rootLeaf at h
  simp only [State.walk, h, ite_self]

theorem walk_of_forbidden (h : s.rootLeaf va = some leaf) (hp : permit (pteType leaf.pte) acc p = false) :
    s.walk va acc p = .fail s := by
  unfold State.rootLeaf at h
  simp [State.walk, h, hp]

theorem walk_of_unmarkable (h : s.rootLeaf va = some leaf) (hne : usedPte leaf.pte acc ≠ leaf.pte)
    (hcheck : physCheck s.cfg leaf.addr (pteSize s.cfg) .store .supervisor true = false) :
    s.walk va acc p = .fail s := by
  rw [← markedPte_eq] at hne
  unfold State.rootLeaf at h
  simp only [State.walk, h, if_neg hne, hcheck, Bool.not_false, if_true, ite_self]

/-- Memory after the leaf is marked: unchanged where it was marked already. -/
def State.markedMem (s : State) (leaf : Leaf) (acc : Access) : Memory :=
  if usedPte leaf.pte acc = leaf.pte then s.mem
  else s.mem.writeWord leaf.addr (pteSize s.cfg) (usedPte leaf.pte acc)

theorem walk_found (hc : canonical s.cfg s.mstatus.vm va = true) (h : s.rootLeaf va = some leaf)
    (hp : permit (pteType leaf.pte) acc p = true)
    (hcheck : usedPte leaf.pte acc = leaf.pte ∨
      physCheck s.cfg leaf.addr (pteSize s.cfg) .store .supervisor true = true) :
    s.walk va acc p = .found ((s.setMem (s.markedMem leaf acc)).fillTc va acc leaf (usedPte leaf.pte acc))
      (pageAddress s.cfg leaf.pte leaf.level va) := by
  unfold State.rootLeaf at h
  unfold State.markedMem
  rw [← markedPte_eq, ← leafAddress_eq] at *
  by_cases heq : markedPte leaf.pte acc = leaf.pte
  · rw [if_pos heq]
    simp only [State.walk, hc, h, hp, Bool.not_true, Bool.false_eq_true, if_false, if_pos heq]
    rfl
  · rw [if_neg heq]
    simp only [State.walk, hc, h, hp, hcheck.resolve_left heq, Bool.not_true, Bool.false_eq_true, if_false,
      if_neg heq]

theorem markedMem_other (a : Nat) (h : a < leaf.addr ∨ leaf.addr + pteSize s.cfg ≤ a) :
    (s.markedMem leaf acc).read a = s.mem.read a := by
  unfold State.markedMem
  split
  · rfl
  · exact Memory.read_writeWord_other _ _ _ _ _ h

theorem pow_pteSize_le (c : Config) : 256 ^ pteSize c ≤ 2 ^ 64 := by
  unfold pteSize
  split <;> norm_num

/-- The entry of the leaf, read back: marked. -/
theorem markedMem_entry (h : s.rootLeaf va = some leaf) (hwf : s.mem.wf = true) :
    (s.markedMem leaf acc).readNat leaf.addr (pteSize s.cfg) =
      (usedPte leaf.pte acc).toNat % 256 ^ pteSize s.cfg := by
  unfold State.markedMem
  split
  · rename_i heq
    have hlt := Memory.readNat_lt s.mem leaf.addr (pteSize s.cfg)
    have hle := pow_pteSize_le s.cfg
    rw [heq, pte_of_findsLeaf (findsLeaf_of_findLeaf _ _ _ h), Memory.readWord, BitVec.toNat_ofNat,
      Nat.mod_eq_of_lt (Nat.lt_of_lt_of_le hlt hle), Nat.mod_eq_of_lt hlt]
  · exact Memory.readNat_writeWord _ _ _ _ hwf

theorem fillTc_mem (t : State) (pte : Word) : (t.fillTc va acc leaf pte).mem = t.mem := by
  rcases fillTc_cases t va acc leaf pte with ⟨-, -, h⟩ | ⟨-, h⟩ <;> rw [h]
  rfl

end Walk

/-- Settles O47: each way to fail, and the one to succeed. -/
theorem walkOutcome : Obligations.WalkOutcome := by
  rintro s va acc p leaf? canonicalVa hleaf rfl
  replace hleaf : s.rootLeaf va = leaf? := hleaf.symm
  rw [← canonical_iff]
  refine ⟨fun hc => ?notCanonical, ?noLeaf, ?forbidden, ?unmarkable, ?found⟩
  case notCanonical => exact walk_of_not_canonical (by simpa using hc)
  case noLeaf =>
    rintro rfl
    exact walk_of_no_leaf hleaf
  case forbidden =>
    rintro leaf rfl hp
    exact walk_of_forbidden hleaf hp
  case unmarkable =>
    rintro leaf rfl hne hcheck
    exact walk_of_unmarkable hleaf hne hcheck
  case found =>
    rintro leaf rfl hc hp hcheck
    refine ⟨_, walk_found hc hleaf hp hcheck, fun hwf => ?_, fun a ha => ?_, ?_⟩
    · rw [fillTc_mem]
      exact markedMem_entry hleaf hwf
    · rw [fillTc_mem]
      exact markedMem_other a ha
    · exact (touched_fillTc (s.setMem _) va acc leaf _).frame

/-- Settles O48: the table, entry by entry. -/
theorem leafPermissions : Obligations.LeafPermissions := by
  intro t acc
  cases acc <;> revert t <;> decide

/-! ## What translating changes -/

section Cached
variable {s : State} {va : Word} {acc : Access} {p : Priv}

/-- A cached translation that is used is an entry of the cache, and usable. -/
theorem cached_some {e : TcEntry} (h : s.cached va acc p = some e) :
    e ∈ s.tc ∧ va.toNat / pageBytes s.cfg e.level = e.vaBase.toNat / pageBytes s.cfg e.level ∧
      (e.isGlobal = true ∨ e.asid = s.sasid) ∧ permit (e.pte.extractLsb' 1 4) acc p = true ∧
      e.pte.getLsbD 5 = true ∧ (acc = .store → e.pte.getLsbD 6 = true) := by
  simp only [State.cached, Option.filter_eq_some_iff, Option.bind_eq_some_iff] at h
  obtain ⟨⟨k, -, hk⟩, husable⟩ := h
  simp only [State.usable, TcEntry.covers, Bool.and_eq_true, Bool.or_eq_true, beq_iff_eq, decide_eq_true_eq] at husable
  obtain ⟨⟨⟨⟨hcovers, hasid⟩, hpermit⟩, hR⟩, hD⟩ := husable
  exact ⟨List.mem_of_getElem? hk, hcovers, hasid, hpermit, hR, fun hstore => hD.resolve_left (by simp [hstore])⟩

theorem cachesLeaf_leafEntry (s : State) (va : Word) (acc : Access) (leaf : Leaf) :
    CachesLeaf s va acc leaf (s.leafEntry va leaf (usedPte leaf.pte acc)) where
  asid := rfl
  isGlobal := rfl
  page := by
    change (BitVec.ofNat 64 (va.toNat / pageBytes s.cfg leaf.level * pageBytes s.cfg leaf.level)).toNat = _
    rw [BitVec.toNat_ofNat, Nat.mod_eq_of_lt (Nat.lt_of_le_of_lt (Nat.div_mul_le_self _ _) va.isLt)]
    rfl
  level := rfl
  pte := rfl
  place := rfl

/-- What a walk that succeeds adds to the cache. -/
theorem walk_tc {u : State} {pa : Nat} (h : s.walk va acc p = .found u pa) :
    ∃ leaf, s.rootLeaf va = some leaf ∧
      (((s.tcChoice acc).fill = true ∧ u.tc = s.leafEntry va leaf (usedPte leaf.pte acc) :: s.tc) ∨
        (((s.tcChoice acc).fill = false ∨ s.leafEntry va leaf (usedPte leaf.pte acc) ∈ s.tc) ∧ u.tc = s.tc)) := by
  rcases walk_cases s va acc p with hfail | ⟨leaf, m, hleaf, -, hfound⟩
  · rw [hfail] at h
    cases h
  · rw [hfound] at h
    injection h with h
    refine ⟨leaf, hleaf, ?_⟩
    rcases fillTc_cases (s.setMem m) va acc leaf (markedPte leaf.pte acc) with ⟨hfill, -, heq⟩ | ⟨hno, heq⟩
    · exact .inl ⟨hfill, by rw [← h, heq]; rfl⟩
    · exact .inr ⟨hno, by rw [← h, heq]; rfl⟩

/-- A walk that fails changes nothing. -/
theorem walk_fail {u : State} (h : s.walk va acc p = .fail u) : u = s := by
  rcases walk_cases s va acc p with hfail | ⟨leaf, m, -, -, hfound⟩
  · rw [hfail] at h
    injection h with h
    exact h.symm
  · rw [hfound] at h
    cases h

/-- A walk that succeeds changes no byte of memory outside the leaf's entry. -/
theorem walk_mem {u : State} {pa : Nat} (h : s.walk va acc p = .found u pa) :
    ∃ leaf, s.rootLeaf va = some leaf ∧
      ∀ a, a < leaf.addr ∨ leaf.addr + pteSize s.cfg ≤ a → u.mem.read a = s.mem.read a := by
  rcases walk_cases s va acc p with hfail | ⟨leaf, m, hleaf, hm, hfound⟩
  · rw [hfail] at h
    cases h
  · rw [hfound] at h
    injection h with h
    refine ⟨leaf, hleaf, fun a ha => ?_⟩
    rw [← h, fillTc_mem]
    rcases hm with rfl | rfl
    · rfl
    · exact Memory.read_writeWord_other _ _ _ _ _ ha

end Cached

section Frame
variable {s : State} {va : Word} {acc : Access} {n : Nat}

/-- Translating leaves every byte outside the entry that a walk marks. -/
theorem translate_unmarked {a : Nat} (ha : s.unmarked va acc a) :
    (s.translate va acc n).after.mem.read a = s.mem.read a := by
  rcases translate_after s va acc n with h | ⟨hp, hl, hc, h⟩ <;> rw [h]
  cases hw : s.walk va acc (s.effPriv acc) with
  | fail u => rw [Located.after, walk_fail hw]
  | found u pa =>
    obtain ⟨leaf, hleaf, hmem⟩ := walk_mem hw
    refine hmem a (ha leaf.addr ?_)
    rw [State.walkedPte, if_neg (by simp [hp, hl, hc])]
    exact congrArg (Option.map Leaf.addr) hleaf

theorem translate_untouched (h : s.effPriv acc = .machine ∨ s.mstatus.vm.levels = 0) :
    (s.translate va acc n).after = s := by
  rcases translate_after s va acc n with heq | ⟨hp, hl, -, -⟩
  · exact heq
  · rcases h with h | h
    · exact absurd h hp
    · exact absurd h hl

/-- Translating adds one entry to the cache at most, that of the leaf that its walk found. -/
theorem translate_tc (s : State) (va : Word) (acc : Access) (n : Nat) :
    ∃ added, (s.translate va acc n).after.tc = added ++ s.tc ∧ added.length ≤ 1 ∧
      ∀ e ∈ added, (s.tcChoice acc).fill = true ∧ s.cached va acc (s.effPriv acc) = none ∧
        ∃ leaf, s.rootLeaf va = some leaf ∧ CachesLeaf s va acc leaf e := by
  rcases translate_after s va acc n with h | ⟨-, -, hc, h⟩ <;> rw [h]
  · exact ⟨[], rfl, by simp, by simp⟩
  · cases hw : s.walk va acc (s.effPriv acc) with
    | fail u => exact ⟨[], by rw [Located.after, walk_fail hw]; rfl, by simp, by simp⟩
    | found u pa =>
      obtain ⟨leaf, hleaf, ⟨hfill, htc⟩ | ⟨-, htc⟩⟩ := walk_tc hw
      · refine ⟨[s.leafEntry va leaf (usedPte leaf.pte acc)], htc, by simp, fun e he => ?_⟩
        rw [List.mem_singleton.1 he]
        exact ⟨hfill, hc, leaf, hleaf, cachesLeaf_leafEntry s va acc leaf⟩
      · exact ⟨[], htc, by simp, by simp⟩

end Frame

/-- Settles O49: the frame, the cache and the paths of a paged translation. -/
theorem translationFrame : Obligations.TranslationFrame := by
  rintro s t va acc n p rfl rfl
  refine ⟨(touched_translate s va acc n).frame, fun a ha => translate_unmarked ha, translate_untouched,
    translate_tc s va acc n, fun e he => cached_some he, fun hp hv => ⟨?cached, ?walkFails, ?walkFinds⟩⟩
  case cached =>
    rintro e pa he rfl
    apply translate_of_map_found
    simp only [map_paged hv hp, State.walkCached, he, leafAddress_eq]
  case walkFails =>
    rintro u hc hw
    obtain rfl := walk_fail hw
    apply translate_of_map_fail
    simp only [map_paged hv hp, State.walkCached, hc, hw]
  case walkFinds =>
    rintro u pa hc hw
    refine ⟨translate_of_map_found (by simp only [map_paged hv hp, State.walkCached, hc, hw]), fun hfill => ?_⟩
    obtain ⟨leaf, hleaf, ⟨-, htc⟩ | ⟨hno, htc⟩⟩ := walk_tc hw
    · exact ⟨leaf, _, hleaf, cachesLeaf_leafEntry s va acc leaf, by simp [htc]⟩
    · have hmem := hno.resolve_left (by simp [hfill])
      exact ⟨leaf, _, hleaf, cachesLeaf_leafEntry s va acc leaf, by rwa [htc]⟩

end Sys2Proof.Machine

/-! The results of the base ISA's computing instructions (46_base_isa_general_knowledge.md sections 2, 3, 6, 7, 8, 9). -/

namespace Sys2Proof.Machine

/-! ## Words as integers -/

/-- The 64-bit word of an integer, modulo 2^XLEN. -/
theorem norm_ofInt (s : State) (n : Int) : s.cfg.norm (BitVec.ofInt 64 n) = s.valueOf n := by
  apply norm_eq_valueOf
  rw [BitVec.toNat_ofInt, Int.toNat_of_nonneg (Int.emod_nonneg _ (by decide))]
  exact emod_pow64_emod s.cfg n

theorem norm_eq_valueOf_toInt (s : State) (v : Word) : s.cfg.norm v = s.valueOf v.toInt := by
  rw [← norm_ofInt, BitVec.ofInt_toInt]

theorem eq_ofInt_toNat (v : Word) : v = BitVec.ofInt 64 v.toNat := by simp

theorem add_signExtend {n : Nat} (v : Word) (imm : BitVec n) :
    v + imm.signExtend 64 = BitVec.ofInt 64 (v.toNat + imm.toInt) := by
  rw [BitVec.ofInt_add, ← eq_ofInt_toNat]
  rfl

theorem sub_eq_ofInt (x y : Word) : x - y = BitVec.ofInt 64 (x.toNat - y.toNat) := by
  rw [Int.sub_eq_add_neg, BitVec.ofInt_add, BitVec.ofInt_neg, ← eq_ofInt_toNat, ← eq_ofInt_toNat,
    BitVec.sub_eq_add_neg]

/-- LUI's immediate stands in bits 31:12. -/
theorem immU_eq (upper : BitVec 20) : immU upper = BitVec.ofInt 64 (upper.toInt * 4096) := by
  have happend : (upper ++ 0#12).toInt = upper.toInt * 4096 := by
    have hlt := upper.isLt
    rw [BitVec.toInt_eq_toNat_cond, BitVec.toInt_eq_toNat_cond, toNat_append]
    simp only [BitVec.toNat_ofNat, Nat.zero_mod, Nat.add_zero]
    split <;> split <;> omega
  rw [← happend]
  rfl

/-- An immediate modulo 2^XLEN. -/
theorem norm_immI_toNat (s : State) (imm : BitVec 12) :
    (s.cfg.norm (immI imm)).toNat = (imm.toInt % 2 ^ s.cfg.xlen).toNat := by
  have hval : s.cfg.norm (immI imm) = s.valueOf imm.toInt := norm_ofInt s imm.toInt
  rw [hval]
  have hnat := valueOf_toNat s imm.toInt
  omega

/-! ## Completing with a value -/

/-- An instruction of the shape `writeResult` computes each integer its value is congruent to. -/
theorem computes_of_writeResult {i : Instr} {s : State} {legal : Bool} {rd : Reg} {sources : List Reg} {v : Word}
    {n : Int} (h : exec i s = writeResult legal rd sources v s) (hl : legal = true)
    (hr : s.hasRegs (rd :: sources) = true) (hv : s.cfg.norm v = s.valueOf n) : Computes i s rd n := by
  refine ⟨(s.setX rd v).advance, ?_, wrote_setX_advance s rd hv⟩
  rw [h, writeResult, if_pos (by simp [hl, hr])]

/-- Of three registers that exist, the first two and the first do. -/
theorem hasRegs_init {s : State} {rd rs1 rs2 : Reg} (h : s.hasRegs [rd, rs1, rs2] = true) :
    s.hasRegs [rd, rs1] = true ∧ s.hasRegs [rd] = true := by
  simp only [hasRegs_cons, hasRegs_nil, and_true] at h ⊢
  exact ⟨⟨h.1, h.2.1⟩, h.1⟩

/-- Settles O50: each sum is the 64-bit word of the integer sum. -/
theorem additiveResults : Obligations.AdditiveResults := by
  intro s rd rs1 rs2 imm upper h3
  obtain ⟨h2, h1⟩ := hasRegs_init h3
  refine ⟨?lui, ?auipc, ?addi, ?add, ?sub⟩
  case lui => exact computes_of_writeResult rfl rfl h1 (by rw [immU_eq, norm_ofInt])
  case auipc =>
    refine computes_of_writeResult rfl rfl h1 ?_
    rw [immU_eq, eq_ofInt_toNat s.pc, ← BitVec.ofInt_add, norm_ofInt, ← eq_ofInt_toNat]
  case addi => exact computes_of_writeResult rfl rfl h2 (by rw [immI, add_signExtend, norm_ofInt])
  case add =>
    refine computes_of_writeResult rfl rfl h3 ?_
    rw [← norm_ofInt, BitVec.ofInt_add, ← eq_ofInt_toNat, ← eq_ofInt_toNat]
  case sub => exact computes_of_writeResult rfl rfl h3 (by rw [sub_eq_ofInt, norm_ofInt])

/-! ## Logic and comparisons -/

/-- The value of a natural number below 2^XLEN. -/
theorem norm_eq_valueOf_nat {s : State} {v : Word} {m : Nat} (h : (s.cfg.norm v).toNat = m) :
    s.cfg.norm v = s.valueOf m := by
  rw [← h, ← norm_eq_valueOf_toNat, Config.norm_norm]

section Bitwise
variable {s : State} {x y : Word}

theorem norm_xor_toNat : (s.cfg.norm (x ^^^ y)).toNat = (s.cfg.norm x).toNat ^^^ (s.cfg.norm y).toNat := by
  simp only [Config.norm_toNat, BitVec.toNat_xor, Nat.xor_mod_two_pow]

theorem norm_or_toNat : (s.cfg.norm (x ||| y)).toNat = (s.cfg.norm x).toNat ||| (s.cfg.norm y).toNat := by
  simp only [Config.norm_toNat, BitVec.toNat_or, Nat.or_mod_two_pow]

theorem norm_and_toNat : (s.cfg.norm (x &&& y)).toNat = (s.cfg.norm x).toNat &&& (s.cfg.norm y).toNat := by
  simp only [Config.norm_toNat, BitVec.toNat_and, Nat.and_mod_two_pow]

end Bitwise

theorem toInt_signExtend_word {n : Nat} (hn : n ≤ 64) (x : BitVec n) : (x.signExtend 64).toInt = x.toInt := by
  rw [BitVec.toInt_signExtend_of_le hn]

/-- The sign extension of XLEN bits is the signed value. -/
theorem sext_toInt (s : State) (v : Word) : (s.cfg.sext v).toInt = s.signed v := by
  unfold Config.sext State.signed
  obtain ⟨h, hx⟩ | ⟨h, hx⟩ := s.cfg.xlen_cases
  · rw [h, hx, if_pos rfl, BitVec.toInt_eq_toNat_bmod]
  · rw [h, hx, if_neg (by decide), toInt_signExtend_word (by decide), BitVec.toInt_eq_toNat_bmod,
      BitVec.toNat_setWidth]
    push_cast
    exact Int.emod_bmod _ _

theorem signed_immI (s : State) (imm : BitVec 12) : s.signed (immI imm) = imm.toInt := by
  have hlo := BitVec.le_toInt imm
  have hhi := BitVec.toInt_lt (x := imm)
  have hval : ((immI imm).toNat : Int) = imm.toInt % 2 ^ 64 := by
    change ((BitVec.ofInt 64 imm.toInt).toNat : Int) = _
    rw [BitVec.toNat_ofInt, Int.toNat_of_nonneg (Int.emod_nonneg _ (by decide))]
    rfl
  rw [State.signed, hval, Int.bmod_def]
  norm_num at hlo hhi
  obtain ⟨-, hx⟩ | ⟨-, hx⟩ := s.cfg.xlen_cases <;> rw [hx] <;> split <;> omega

theorem signedLess_iff (s : State) (a b : Word) : s.signedLess a b = true ↔ s.signed a < s.signed b := by
  rw [State.signedLess, BitVec.slt_iff_toInt_lt, sext_toInt, sext_toInt]

theorem unsignedLess_iff (s : State) (a b : Word) :
    s.unsignedLess a b = true ↔ (s.cfg.norm a).toNat < (s.cfg.norm b).toNat := by
  rw [State.unsignedLess, BitVec.ult_iff_toNat_lt]

/-- The result of a set-less-than is 1 or 0 as its condition holds. -/
theorem norm_boolWord (s : State) {b : Bool} {p : Prop} [Decidable p] (h : b = true ↔ p) :
    s.cfg.norm (boolWord b) = s.valueOf (if p then 1 else 0) := by
  rw [← norm_ofInt]
  by_cases hp : p
  · simp [boolWord, hp, h.2 hp]
  · have hb : b = false := by simpa [hp] using h
    simp [boolWord, hp, hb]

/-- Settles O51: bit by bit modulo 2^XLEN, and the comparisons as those of the values. -/
theorem logicAndCompareResults : Obligations.LogicAndCompareResults := by
  rintro s rd rs1 rs2 imm a b k h3 rfl rfl rfl
  obtain ⟨h2, -⟩ := hasRegs_init h3
  rw [← norm_immI_toNat]
  have h1 := s.norm_readX rs1
  have hr2 := s.norm_readX rs2
  refine ⟨?xori, ?ori, ?andi, ?xor, ?or, ?and, ?slti, ?sltiu, ?slt, ?sltu⟩
  case xori => exact computes_of_writeResult rfl rfl h2 (norm_eq_valueOf_nat (by rw [norm_xor_toNat, h1]))
  case ori => exact computes_of_writeResult rfl rfl h2 (norm_eq_valueOf_nat (by rw [norm_or_toNat, h1]))
  case andi => exact computes_of_writeResult rfl rfl h2 (norm_eq_valueOf_nat (by rw [norm_and_toNat, h1]))
  case xor => exact computes_of_writeResult rfl rfl h3 (norm_eq_valueOf_nat (by rw [norm_xor_toNat, h1, hr2]))
  case or => exact computes_of_writeResult rfl rfl h3 (norm_eq_valueOf_nat (by rw [norm_or_toNat, h1, hr2]))
  case and => exact computes_of_writeResult rfl rfl h3 (norm_eq_valueOf_nat (by rw [norm_and_toNat, h1, hr2]))
  case slti =>
    exact computes_of_writeResult rfl rfl h2 (norm_boolWord s (by rw [signedLess_iff, signed_immI]))
  case sltiu => exact computes_of_writeResult rfl rfl h2 (norm_boolWord s (by rw [unsignedLess_iff, h1]))
  case slt => exact computes_of_writeResult rfl rfl h3 (norm_boolWord s (signedLess_iff s _ _))
  case sltu => exact computes_of_writeResult rfl rfl h3 (norm_boolWord s (by rw [unsignedLess_iff, h1, hr2]))

/-! ## Shifts -/

section Shifts
variable (s : State) (x : Word) (n : Nat)

theorem norm_shiftLeft : s.cfg.norm (x <<< n) = s.valueOf (x.toNat * 2 ^ n) := by
  rw [← norm_ofInt]
  congr 1
  apply BitVec.eq_of_toNat_eq
  rw [BitVec.toNat_shiftLeft, BitVec.toNat_ofInt, Nat.shiftLeft_eq]
  norm_cast

theorem norm_shiftRight : s.cfg.norm (x >>> n) = s.valueOf (x.toNat / 2 ^ n) := by
  rw [norm_eq_valueOf_toNat, BitVec.toNat_ushiftRight, Nat.shiftRight_eq_div_pow]
  norm_cast

theorem norm_arithmeticRight : s.cfg.norm (s.arithmeticRight x n) = s.valueOf (s.signed x / 2 ^ n) := by
  rw [norm_eq_valueOf_toInt, State.arithmeticRight, BitVec.toInt_sshiftRight, sext_toInt, Int.shiftRight_eq_div_pow]
  norm_cast

end Shifts

/-- Settles O52: products and quotients by a power of two. -/
theorem shiftResults : Obligations.ShiftResults := by
  rintro s rd rs1 rs2 shamt a b h3 rfl rfl
  obtain ⟨h2, -⟩ := hasRegs_init h3
  refine ⟨fun hlt => ⟨?slli, ?srli, ?srai⟩, ?sll, ?srl, ?sra⟩
  case slli => exact computes_of_writeResult rfl (decide_eq_true hlt) h2 (norm_shiftLeft s _ _)
  case srli => exact computes_of_writeResult rfl (decide_eq_true hlt) h2 (norm_shiftRight s _ _)
  case srai => exact computes_of_writeResult rfl (decide_eq_true hlt) h2 (norm_arithmeticRight s _ _)
  case sll => exact computes_of_writeResult rfl rfl h3 (norm_shiftLeft s _ _)
  case srl => exact computes_of_writeResult rfl rfl h3 (norm_shiftRight s _ _)
  case sra => exact computes_of_writeResult rfl rfl h3 (norm_arithmeticRight s _ _)

/-! ## The word forms -/

/-- A word form's result is the signed value of its 32 bits. -/
theorem norm_sextWord (s : State) (w : BitVec 32) : s.cfg.norm (sextWord w) = s.valueOf w.toInt := by
  rw [norm_eq_valueOf_toInt, sextWord, toInt_signExtend_word (by decide)]

/-- The low word of an integer taken modulo 2^64, as a signed value. -/
theorem toInt_lowWord_ofInt (n : Int) : (lowWord (BitVec.ofInt 64 n)).toInt = Int.bmod n (2 ^ 32) := by
  have hlow : ((lowWord (BitVec.ofInt 64 n)).toNat : Int) = n % (2 ^ 32 : Nat) := by
    rw [lowWord, BitVec.toNat_setWidth, BitVec.toNat_ofInt]
    omega
  rw [BitVec.toInt_eq_toNat_bmod, hlow, Int.emod_bmod]

theorem toInt_lowWord (v : Word) : (lowWord v).toInt = Int.bmod v.toNat (2 ^ 32) := by
  conv_lhs => rw [eq_ofInt_toNat v]
  exact toInt_lowWord_ofInt _

theorem toInt_lowWord_shiftLeft (v : Word) (n : Nat) :
    (lowWord v <<< n).toInt = Int.bmod (v.toNat * 2 ^ n) (2 ^ 32) := by
  have hlow : (lowWord v <<< n).toNat = v.toNat * 2 ^ n % 2 ^ 32 := by
    rw [BitVec.toNat_shiftLeft, lowWord, BitVec.toNat_setWidth, Nat.shiftLeft_eq, Nat.mod_mul_mod]
  rw [BitVec.toInt_eq_toNat_bmod, hlow, Int.natCast_mod, Int.emod_bmod]
  push_cast
  rfl

theorem toInt_lowWord_shiftRight (v : Word) (n : Nat) :
    (lowWord v >>> n).toInt = Int.bmod (v.toNat % 2 ^ 32 / 2 ^ n) (2 ^ 32) := by
  rw [BitVec.toInt_eq_toNat_bmod, BitVec.toNat_ushiftRight, lowWord, BitVec.toNat_setWidth,
    Nat.shiftRight_eq_div_pow]
  norm_cast

theorem toInt_lowWord_sshiftRight (v : Word) (n : Nat) :
    ((lowWord v).sshiftRight n).toInt = Int.bmod v.toNat (2 ^ 32) / 2 ^ n := by
  rw [BitVec.toInt_sshiftRight, toInt_lowWord, Int.shiftRight_eq_div_pow]
  norm_cast

/-- Settles O53: the signed value of the low word of each result. -/
theorem wordResults : Obligations.WordResults := by
  rintro s rd rs1 rs2 imm shamt a b n h64 h3 rfl rfl rfl
  obtain ⟨h2, -⟩ := hasRegs_init h3
  refine ⟨?addiw, ?addw, ?subw, ?slliw, ?srliw, ?sraiw, ?sllw, ?srlw, ?sraw⟩
  case addiw =>
    refine computes_of_writeResult rfl h64 h2 ?_
    rw [norm_sextWord, immI, add_signExtend, toInt_lowWord_ofInt]
  case addw =>
    refine computes_of_writeResult rfl h64 h3 ?_
    rw [norm_sextWord, ← toInt_lowWord_ofInt, BitVec.ofInt_add, ← eq_ofInt_toNat, ← eq_ofInt_toNat]
  case subw => exact computes_of_writeResult rfl h64 h3 (by rw [norm_sextWord, sub_eq_ofInt, toInt_lowWord_ofInt])
  case slliw =>
    exact computes_of_writeResult rfl h64 h2 (by rw [norm_sextWord, toInt_lowWord_shiftLeft])
  case srliw =>
    exact computes_of_writeResult rfl h64 h2 (by rw [norm_sextWord, toInt_lowWord_shiftRight])
  case sraiw =>
    exact computes_of_writeResult rfl h64 h2 (by rw [norm_sextWord, toInt_lowWord_sshiftRight])
  case sllw => exact computes_of_writeResult rfl h64 h3 (by rw [norm_sextWord, toInt_lowWord_shiftLeft, wordShift])
  case srlw => exact computes_of_writeResult rfl h64 h3 (by rw [norm_sextWord, toInt_lowWord_shiftRight, wordShift])
  case sraw => exact computes_of_writeResult rfl h64 h3 (by rw [norm_sextWord, toInt_lowWord_sshiftRight, wordShift])

end Sys2Proof.Machine

/-! Jumps, branches, fences, loads and stores, the forms that do not exist, and what every instruction retires
(46_base_isa_general_knowledge.md sections 1 to 5, 8, 9; 12_supervisor_csrs.md R172). -/

namespace Sys2Proof.Machine

/-! ## Jumps and branches -/

/-- A target is 4-byte aligned before and after it is taken modulo 2^XLEN. -/
theorem aligned_norm_iff (c : Config) (v : Word) : (c.norm v).toNat % 4 = 0 ↔ v &&& 3 = 0 := by
  rw [and_three_eq_zero, lowZero]
  have hmod := c.norm_mod v 2 (by decide)
  norm_num at hmod ⊢
  rw [hmod]

section Jump
variable {i : Instr} {s : State} {rd : Reg} {sources : List Reg} {target w : Word}

theorem jump_aligned (h : exec i s = jumpAndLink rd sources target s) (hr : s.hasRegs (rd :: sources) = true)
    (hw : s.cfg.norm target = w) (ha : w.toNat % 4 = 0) : ∃ t, exec i s = .next t ∧ Wrote s t rd s.nextPc w := by
  have hlow : target &&& 3 = 0 := (aligned_norm_iff _ _).1 (hw ▸ ha)
  refine ⟨(s.setX rd (s.pc + 4)).complete target, ?_, wrote_setX_complete s rd (norm_add_four s) hw⟩
  rw [h, jumpAndLink, hr, if_neg (by decide), if_neg (not_not.2 hlow)]

theorem jump_misaligned (h : exec i s = jumpAndLink rd sources target s) (hr : s.hasRegs (rd :: sources) = true)
    (hw : s.cfg.norm target = w) (ha : w.toNat % 4 ≠ 0) : Raises i s 0 (some w) := by
  have hlow : target &&& 3 ≠ 0 := fun hz => ha (hw ▸ (aligned_norm_iff _ _).2 hz)
  apply raises_of_raise .instrMisaligned
  rw [h, jumpAndLink, hr, if_neg (by decide), if_pos hlow, hw]

end Jump

/-- JALR's target: the sum with its lowest bit cleared. -/
theorem norm_jalr_target (s : State) (x : Word) (imm : BitVec 12) :
    s.cfg.norm ((x + immI imm) &&& ~~~1#64) = s.valueOf ((x.toNat + imm.toInt) / 2 * 2) := by
  apply norm_eq_valueOf
  have hclear : ((x + immI imm) &&& ~~~1#64).toNat = (x + immI imm).toNat / 2 * 2 :=
    toNat_andNot_lowMask _ 1 (by decide)
  have hsum : ((x + immI imm).toNat : Int) = (x.toNat + imm.toInt) % 2 ^ 64 := by
    rw [immI, add_signExtend, BitVec.toNat_ofInt, Int.toNat_of_nonneg (Int.emod_nonneg _ (by decide))]
    rfl
  rw [hclear]
  push_cast
  rw [hsum]
  obtain ⟨-, hx⟩ | ⟨-, hx⟩ := s.cfg.xlen_cases <;> rw [hx] <;> omega

/-- The target of a jump relative to the pc. -/
theorem norm_pc_add {n : Nat} (s : State) (offset : BitVec n) :
    s.cfg.norm (s.pc + offset.signExtend 64) = s.valueOf (s.pc.toNat + offset.toInt) := by
  rw [add_signExtend, norm_ofInt]

/-- Settles O54: by the alignment of each target. -/
theorem jumpResults : Obligations.JumpResults := by
  rintro s rd rs1 offset imm near far h2 rfl rfl
  have h1 : s.hasRegs [rd] = true := by
    simp only [hasRegs_cons, hasRegs_nil, and_true] at h2 ⊢
    exact h2.1
  exact ⟨jump_aligned rfl h1 (norm_pc_add s offset), jump_misaligned rfl h1 (norm_pc_add s offset),
    jump_aligned rfl h2 (norm_jalr_target s _ imm), jump_misaligned rfl h2 (norm_jalr_target s _ imm)⟩

theorem moved_complete (s : State) {npc npc' : Word} (hn : s.cfg.norm npc = npc') : Moved s (s.complete npc) npc' where
  pc := hn
  retired := rfl
  memory _ := rfl
  frame := rfl

theorem moved_advance (s : State) : Moved s s.advance s.nextPc := moved_complete s (norm_add_four s)

section Branch
variable {i : Instr} {s : State} {rs1 rs2 : Reg} {offset : BitVec 13} {b : Bool} {target : Word}

/-- A branch whose registers exist, by whether it is taken and by the alignment of its target. -/
theorem branch_result (h : exec i s = branch b rs1 rs2 offset s) (hr : s.hasRegs [rs1, rs2] = true)
    (ht : target = s.valueOf (s.pc.toNat + offset.toInt)) :
    (b = false → ∃ t, exec i s = .next t ∧ Moved s t s.nextPc) ∧
    (b = true → target.toNat % 4 = 0 → ∃ t, exec i s = .next t ∧ Moved s t target) ∧
    (b = true → target.toNat % 4 ≠ 0 → Raises i s 0 (some target)) := by
  have hnorm : s.cfg.norm (s.pc + immB offset) = target := (norm_pc_add s offset).trans ht.symm
  refine ⟨?notTaken, ?aligned, ?misaligned⟩
  case notTaken =>
    rintro rfl
    exact ⟨s.advance, by rw [h, branch, hr]; rfl, moved_advance s⟩
  case aligned =>
    rintro rfl ha
    have hlow : s.pc + immB offset &&& 3 = 0 := (aligned_norm_iff _ _).1 (hnorm ▸ ha)
    refine ⟨s.complete (s.pc + immB offset), ?_, moved_complete s hnorm⟩
    simp only [h, branch, hr, Bool.not_true, Bool.false_eq_true, if_false, if_neg (not_not.2 hlow)]
  case misaligned =>
    rintro rfl ha
    have hlow : s.pc + immB offset &&& 3 ≠ 0 := fun hz => ha (hnorm ▸ (aligned_norm_iff _ _).2 hz)
    apply raises_of_raise .instrMisaligned
    simp only [h, branch, hr, Bool.not_true, Bool.false_eq_true, if_false, if_pos hlow, hnorm]

end Branch

/-- Settles O55: each branch with its condition. -/
theorem branchResults : Obligations.BranchResults := by
  rintro s rs1 rs2 offset target a b i taken hr ht rfl rfl hcond
  have h1 := s.norm_readX rs1
  have h2 := s.norm_readX rs2
  obtain ⟨taken', hexec, hiff⟩ : ∃ taken', exec i s = branch taken' rs1 rs2 offset s ∧ (taken' = true ↔ taken) := by
    rcases hcond with ⟨rfl, rfl⟩ | ⟨rfl, rfl⟩ | ⟨rfl, rfl⟩ | ⟨rfl, rfl⟩ | ⟨rfl, rfl⟩ | ⟨rfl, rfl⟩
    · exact ⟨_, rfl, by rw [decide_eq_true_eq, BitVec.toNat_eq]⟩
    · exact ⟨_, rfl, by rw [decide_eq_true_eq, ne_eq, ne_eq, BitVec.toNat_eq]⟩
    · exact ⟨_, rfl, signedLess_iff s _ _⟩
    · exact ⟨_, rfl, by rw [Bool.not_eq_true', ← Bool.not_eq_true, signedLess_iff, not_lt]⟩
    · exact ⟨_, rfl, by rw [unsignedLess_iff, h1, h2]⟩
    · exact ⟨_, rfl, by rw [Bool.not_eq_true', ← Bool.not_eq_true, unsignedLess_iff, h1, h2, not_lt]⟩
  obtain ⟨hnot, halign, hmis⟩ := branch_result hexec hr ht
  exact ⟨fun hn => hnot (by simpa [hn] using hiff), fun ht => halign (hiff.2 ht), fun ht => hmis (hiff.2 ht)⟩

/-- Settles O59: both go on to the next instruction. -/
theorem fencesMoveOn : Obligations.FencesMoveOn := fun s _ _ _ _ _ _ =>
  ⟨⟨_, rfl, moved_advance s⟩, ⟨_, rfl, moved_advance s⟩⟩

/-! ## Loads -/

theorem address_eq (s : State) (rs1 : Reg) (imm : BitVec 12) :
    s.address rs1 (imm.signExtend 64) = s.valueOf ((s.readX rs1).toNat + imm.toInt) := by
  rw [State.address, add_signExtend, norm_ofInt]

theorem misaligned_iff (s : State) (va : Word) (n : Nat) :
    s.misaligned va n = true ↔ va.toNat % n ≠ 0 ∧ s.cfg.misalignedOk = false := by
  simp [State.misaligned]

theorem not_misaligned {s : State} {va : Word} {n : Nat} (h : va.toNat % n = 0 ∨ s.cfg.misalignedOk = true) :
    s.misaligned va n = false := by
  rw [← Bool.not_eq_true, misaligned_iff]
  rcases h with h | h <;> simp [h]

section Load
variable {legal : Bool} {n pa : Nat} {extend : Word → Word} {rd rs1 : Reg} {imm : BitVec 12} {s u : State} {va : Word}

theorem loadOp_misaligned (hl : legal = true) (hr : s.hasRegs [rd, rs1] = true) (hva : va = s.address rs1 (immI imm))
    (h : s.misaligned va n = true) :
    loadOp legal n extend rd rs1 imm s = .next (s.raise .loadMisaligned (some va)) := by
  subst hva
  simp only [loadOp, hl, hr, State.memRead, h, Bool.and_self, if_true]

theorem loadOp_fail (hl : legal = true) (hr : s.hasRegs [rd, rs1] = true) (hva : va = s.address rs1 (immI imm))
    (h : s.misaligned va n = false) (ht : s.translate va .load n = .fail u) :
    loadOp legal n extend rd rs1 imm s = .next (u.raise .loadAccess (some va)) := by
  subst hva
  simp only [loadOp, hl, hr, State.memRead, h, ht, accessFault, Bool.and_self, if_true, Bool.false_eq_true, if_false]

theorem loadOp_found (hl : legal = true) (hr : s.hasRegs [rd, rs1] = true) (hva : va = s.address rs1 (immI imm))
    (h : s.misaligned va n = false) (ht : s.translate va .load n = .found u pa) :
    loadOp legal n extend rd rs1 imm s = .next (u.setX rd (extend (u.mem.readWord pa n))).advance := by
  subst hva
  simp only [loadOp, hl, hr, State.memRead, h, ht, Bool.and_self, if_true, Bool.false_eq_true, if_false]

end Load

/-- How `extend` makes a register value of `n` bytes. -/
def Extends (extend : Word → Word) (n : Nat) (isSigned : Bool) : Prop :=
  ∀ (s : State) (v : Word) (m : Nat), v.toNat = m → m < 256 ^ n →
    s.cfg.norm (extend v) = s.valueOf (if isSigned then Int.bmod m (256 ^ n) else m)

theorem extends_zext (n : Nat) : Extends zextLoaded n false := by
  rintro s v m rfl -
  exact norm_eq_valueOf_toNat s v

/-- The sign extension of the low `8 * n` bits. -/
theorem norm_signExtend_low (s : State) (v : Word) {n : Nat} (hn : 8 * n ≤ 64) :
    s.cfg.norm ((v.setWidth (8 * n)).signExtend 64) = s.valueOf (Int.bmod v.toNat (256 ^ n)) := by
  rw [norm_eq_valueOf_toInt, toInt_signExtend_word hn, BitVec.toInt_eq_toNat_bmod, BitVec.toNat_setWidth,
    Int.natCast_mod, Int.emod_bmod, Nat.pow_mul]

theorem extends_sextByte : Extends sextByte 1 true := by
  rintro s v m rfl -
  rw [if_pos rfl]
  exact norm_signExtend_low s v (n := 1) (by decide)

theorem extends_sextHalf : Extends sextHalf 2 true := by
  rintro s v m rfl -
  rw [if_pos rfl]
  exact norm_signExtend_low s v (n := 2) (by decide)

theorem extends_sextWord : Extends (fun v => sextWord (lowWord v)) 4 true := by
  rintro s v m rfl -
  rw [if_pos rfl]
  exact norm_signExtend_low s v (n := 4) (by decide)

/-- Up to 8 bytes fit a word. -/
theorem readWord_toNat (m : Memory) (a : Nat) {n : Nat} (hn : n ≤ 8) : (m.readWord a n).toNat = m.readNat a n := by
  have hlt := m.readNat_lt a n
  have hle : 256 ^ n ≤ 256 ^ 8 := Nat.pow_le_pow_right (by decide) hn
  rw [Memory.readWord, BitVec.toNat_ofNat, Nat.mod_eq_of_lt (by omega)]

theorem valueOf_congr {s t : State} (h : t.cfg = s.cfg) (n : Int) : t.valueOf n = s.valueOf n := by
  rw [State.valueOf, State.valueOf, h]

/-- What a translation keeps of what an instruction's outcome is stated with. -/
theorem Touched.keeps {s u : State} (h : Touched s u) : u.cfg = s.cfg ∧ u.pc = s.pc ∧ u.nextPc = s.nextPc := by
  obtain ⟨m, tc, rfl⟩ := h.eq
  exact ⟨rfl, rfl, rfl⟩

/-- A load that is not illegal: misaligned, a failed translation, or the value at the place. -/
theorem load_result {i : Instr} {s : State} {legal isSigned : Bool} {n : Nat} {extend : Word → Word} {rd rs1 : Reg}
    {imm : BitVec 12} {va : Word} (hexec : exec i s = loadOp legal n extend rd rs1 imm s) (hl : legal = true)
    (hr : s.hasRegs [rd, rs1] = true) (hva : va = s.address rs1 (immI imm)) (hn : n ≤ 8)
    (hext : Extends extend n isSigned) :
    va = s.valueOf ((s.readX rs1).toNat + imm.toInt) ∧
    (va.toNat % n ≠ 0 → s.cfg.misalignedOk = false → Raises i s 4 (some va)) ∧
    (va.toNat % n = 0 ∨ s.cfg.misalignedOk = true →
      (∀ u, s.translate va .load n = .fail u → ∃ t, exec i s = .next t ∧ Raised u t 5 (some va)) ∧
      (∀ u pa, s.translate va .load n = .found u pa →
        ∃ t, exec i s = .next t ∧
          Wrote u t rd (s.valueOf (if isSigned then Int.bmod (u.mem.readNat pa n) (256 ^ n) else u.mem.readNat pa n))
            s.nextPc)) := by
  refine ⟨hva.trans (address_eq s rs1 imm), fun hmis hno => ?misaligned, fun hok => ⟨fun u hu => ?fails, fun u pa hu => ?found⟩⟩
  case misaligned =>
    exact raises_of_raise .loadMisaligned
      (hexec.trans (loadOp_misaligned hl hr hva ((misaligned_iff _ _ _).2 ⟨hmis, hno⟩)))
  case fails =>
    exact ⟨_, hexec.trans (loadOp_fail hl hr hva (not_misaligned hok) hu), raise_raised u .loadAccess _⟩
  case found =>
    refine ⟨_, hexec.trans (loadOp_found hl hr hva (not_misaligned hok) hu), ?_⟩
    obtain ⟨hcfg, -, hpc⟩ := (touched_found hu).keeps
    rw [← hpc, ← valueOf_congr hcfg]
    exact wrote_setX_advance u rd (hext u _ _ (readWord_toNat _ _ hn) (Memory.readNat_lt _ _ _))

/-- Settles O56: the seven loads, by width and extension. -/
theorem loadResults : Obligations.LoadResults := by
  rintro s rd rs1 imm va i n isSigned hr hva hi
  rcases hi with ⟨rfl, rfl, rfl⟩ | ⟨rfl, rfl, rfl⟩ | ⟨rfl, rfl, rfl⟩ | ⟨rfl, rfl, rfl⟩ | ⟨rfl, rfl, rfl⟩ |
    ⟨rfl, rfl, rfl, h64⟩ | ⟨rfl, rfl, rfl, h64⟩
  · exact load_result rfl rfl hr hva (by decide) extends_sextByte
  · exact load_result rfl rfl hr hva (by decide) extends_sextHalf
  · exact load_result rfl rfl hr hva (by decide) extends_sextWord
  · exact load_result rfl rfl hr hva (by decide) (extends_zext 1)
  · exact load_result rfl rfl hr hva (by decide) (extends_zext 2)
  · exact load_result rfl h64 hr hva (by decide) (extends_zext 4)
  · exact load_result rfl h64 hr hva (by decide) (extends_zext 8)

/-! ## Stores -/

section Store
variable {legal : Bool} {n pa : Nat} {rs1 rs2 : Reg} {imm : BitVec 12} {s u : State} {va : Word}

theorem storeOp_misaligned (hl : legal = true) (hr : s.hasRegs [rs1, rs2] = true) (hva : va = s.address rs1 (immS imm))
    (h : s.misaligned va n = true) :
    storeOp legal n rs1 rs2 imm s = .next (s.raise .storeMisaligned (some va)) := by
  subst hva
  simp only [storeOp, hl, hr, State.memWrite, h, Bool.and_self, if_true]

theorem storeOp_fail (hl : legal = true) (hr : s.hasRegs [rs1, rs2] = true) (hva : va = s.address rs1 (immS imm))
    (h : s.misaligned va n = false) (ht : s.translate va .store n = .fail u) :
    storeOp legal n rs1 rs2 imm s = .next (u.raise .storeAccess (some va)) := by
  subst hva
  simp only [storeOp, hl, hr, State.memWrite, h, ht, accessFault, Bool.and_self, if_true, Bool.false_eq_true, if_false]

/-- The state a store leaves from the state its translation leaves. -/
def State.stored (u : State) (pa n : Nat) (v : Word) : State := (u.setMem (u.mem.writeWord pa n v)).advance

theorem storeOp_found (hl : legal = true) (hr : s.hasRegs [rs1, rs2] = true) (hva : va = s.address rs1 (immS imm))
    (h : s.misaligned va n = false) (ht : s.translate va .store n = .found u pa) :
    storeOp legal n rs1 rs2 imm s = .next (u.stored pa n (s.readX rs2)) := by
  subst hva
  simp only [storeOp, hl, hr, State.memWrite, h, ht, Bool.and_self, if_true, Bool.false_eq_true, if_false,
    State.stored]

end Store

theorem stored_stored (u : State) (pa n : Nat) (v : Word) (hwf : u.mem.wf = true) : Stored u (u.stored pa n v) pa n v where
  bytes k hk := Memory.read_writeWord_byte u.mem pa n k v hk hwf
  memory a ha := Memory.read_writeWord_other u.mem pa n a v ha
  pc := norm_add_four u
  retired := rfl
  frame := rfl

/-- A store that is not illegal: misaligned, a failed translation, or the bytes at the place. -/
theorem store_result {i : Instr} {s : State} {legal : Bool} {n : Nat} {rs1 rs2 : Reg} {imm : BitVec 12} {va : Word}
    (hexec : exec i s = storeOp legal n rs1 rs2 imm s) (hl : legal = true) (hwf : s.mem.wf = true)
    (hr : s.hasRegs [rs1, rs2] = true) (hva : va = s.address rs1 (immS imm)) :
    va = s.valueOf ((s.readX rs1).toNat + imm.toInt) ∧
    (va.toNat % n ≠ 0 → s.cfg.misalignedOk = false → Raises i s 6 (some va)) ∧
    (va.toNat % n = 0 ∨ s.cfg.misalignedOk = true →
      (∀ u, s.translate va .store n = .fail u → ∃ t, exec i s = .next t ∧ Raised u t 7 (some va)) ∧
      (∀ u pa, s.translate va .store n = .found u pa →
        ∃ t, exec i s = .next t ∧ Stored u t pa n (s.readX rs2) ∧ (∀ r, t.readX r = s.readX r) ∧
          t = { s with mem := t.mem, tc := u.tc, pc := t.pc, instret := t.instret } ∧
          ∀ a, (a < pa ∨ pa + n ≤ a) → s.unmarked va .store a → t.mem.read a = s.mem.read a)) := by
  refine ⟨hva.trans (address_eq s rs1 imm), fun hmis hno => ?misaligned, fun hok => ⟨fun u hu => ?fails, fun u pa hu => ?found⟩⟩
  case misaligned =>
    exact raises_of_raise .storeMisaligned
      (hexec.trans (storeOp_misaligned hl hr hva ((misaligned_iff _ _ _).2 ⟨hmis, hno⟩)))
  case fails =>
    exact ⟨_, hexec.trans (storeOp_fail hl hr hva (not_misaligned hok) hu), raise_raised u .storeAccess _⟩
  case found =>
    have htouched := touched_found hu
    refine ⟨_, hexec.trans (storeOp_found hl hr hva (not_misaligned hok) hu),
      stored_stored u pa n _ (htouched.wf hwf), fun r => htouched.readX r, ?_, fun a ha hun => ?_⟩
    · obtain ⟨m, tc, rfl⟩ := htouched.eq
      rfl
    · have hmem := translate_unmarked (n := n) hun
      rw [hu] at hmem
      exact (Memory.read_writeWord_other u.mem pa n a _ ha).trans hmem

/-- Settles O57: the four stores, by width. -/
theorem storeResults : Obligations.StoreResults := by
  rintro s rs1 rs2 imm va i n hwf hr hva hi
  rcases hi with ⟨rfl, rfl⟩ | ⟨rfl, rfl⟩ | ⟨rfl, rfl⟩ | ⟨rfl, rfl, h64⟩
  · exact store_result rfl rfl hwf hr hva
  · exact store_result rfl rfl hwf hr hva
  · exact store_result rfl rfl hwf hr hva
  · exact store_result rfl h64 hwf hr hva

/-! ## A load after a store -/

theorem readNat_congr {m m' : Memory} {pa n : Nat} (h : ∀ k < n, m'.read (pa + k) = m.read (pa + k)) :
    m'.readNat pa n = m.readNat pa n := by
  induction n generalizing pa with
  | zero => rfl
  | succ n ih =>
    have hfirst : m'.read pa = m.read pa := h 0 (by omega)
    have hrest : m'.readNat (pa + 1) n = m.readNat (pa + 1) n := ih fun k hk => by
      have hbyte := h (k + 1) (by omega)
      rwa [show pa + (k + 1) = pa + 1 + k by omega] at hbyte
    rw [Memory.readNat, Memory.readNat, hfirst, hrest]

/-- The number the bytes of a value make, read with either extension. -/
theorem valueOf_bytes (s : State) (n v : Nat) (isSigned : Bool) :
    s.valueOf (if isSigned then Int.bmod (v % 256 ^ n : Nat) (256 ^ n) else (v % 256 ^ n : Nat)) =
      s.valueOf (if isSigned then Int.bmod v (256 ^ n) else v % 256 ^ n) := by
  cases isSigned
  · simp
  · simp only [if_true, Int.natCast_mod, Int.emod_bmod]

section LoadStore
variable {s : State} {rd rs1 rs2 : Reg} {imm : BitVec 12} {st ld : Instr} {n : Nat} {isSigned legal : Bool}
variable {extend : Word → Word} {va v : Word}

/-- A store and a load of one width at one address. -/
theorem load_after_store (hst : exec st s = storeOp legal n rs1 rs2 imm s) (hl : legal = true)
    (hld : ∀ t, t.cfg = s.cfg → exec ld t = loadOp true n extend rd rs1 imm t) (hn : n ≤ 8)
    (hext : Extends extend n isSigned) (hwf : s.mem.wf = true) (hr : s.hasRegs [rd, rs1, rs2] = true)
    (hva : va = s.valueOf ((s.readX rs1).toNat + imm.toInt)) (hok : va.toNat % n = 0 ∨ s.cfg.misalignedOk = true)
    (hv : v = if rd = 0 then 0 else
      s.valueOf (if isSigned then Int.bmod (s.readX rs2).toNat (256 ^ n) else (s.readX rs2).toNat % 256 ^ n)) :
    ∀ u pa, s.translate va .store n = .found u pa →
      exec st s = .next (u.stored pa n (s.readX rs2)) ∧
        ∀ w, (u.stored pa n (s.readX rs2)).translate va .load n = .found w pa →
          (∀ k, k < n → (u.stored pa n (s.readX rs2)).unmarked va .load (pa + k)) →
          ∃ x, exec ld (u.stored pa n (s.readX rs2)) = .next x ∧ x.readX rd = v := by
  intro u pa hu
  simp only [hasRegs_cons, hasRegs_nil, and_true] at hr
  obtain ⟨hrd, hrs1, hrs2⟩ := hr
  have hstore : s.hasRegs [rs1, rs2] = true := by simp only [hasRegs_cons, hasRegs_nil, and_true]; exact ⟨hrs1, hrs2⟩
  have htouched := touched_found hu
  refine ⟨hst.trans (storeOp_found hl hstore (hva.trans (address_eq s rs1 imm).symm) (not_misaligned hok) hu), ?_⟩
  generalize ht : u.stored pa n (s.readX rs2) = t
  have hcfg : t.cfg = s.cfg := by rw [← ht]; exact htouched.keeps.1
  have hreg : t.readX rs1 = s.readX rs1 := by rw [← ht]; exact htouched.readX rs1
  have hmem : t.mem.readNat pa n = (s.readX rs2).toNat % 256 ^ n := by
    rw [← ht]
    exact Memory.readNat_writeWord u.mem pa n _ (htouched.wf hwf)
  intro w hw hun
  have hload : t.hasRegs [rd, rs1] = true := by
    simp only [hasRegs_cons, hasRegs_nil, and_true, hcfg]
    exact ⟨hrd, hrs1⟩
  have haddr : va = t.address rs1 (immI imm) := by
    rw [immI, address_eq, hreg, valueOf_congr hcfg]
    exact hva
  have hbytes : w.mem.readNat pa n = (s.readX rs2).toNat % 256 ^ n := by
    rw [← hmem]
    refine readNat_congr fun k hk => ?_
    have hbyte := translate_unmarked (n := n) (hun k hk)
    rwa [hw] at hbyte
  refine ⟨_, (hld t hcfg).trans (loadOp_found rfl hload haddr (not_misaligned (by rwa [hcfg])) hw), ?_⟩
  have hwcfg : w.cfg = s.cfg := (touched_found hw).keeps.1.trans hcfg
  refine (State.readX_setX_same w rd _).trans ?_
  rw [hext w _ _ (readWord_toNat _ _ hn) (Memory.readNat_lt _ _ _), hbytes, valueOf_bytes, valueOf_congr hwcfg, hv]

/-- Under Mbare both accesses end at the address itself, and no page-table entry is marked. -/
theorem load_after_store_bare (hst : exec st s = storeOp legal n rs1 rs2 imm s) (hl : legal = true)
    (hld : ∀ t, t.cfg = s.cfg → exec ld t = loadOp true n extend rd rs1 imm t) (hn : n ≤ 8)
    (hext : Extends extend n isSigned) (hwf : s.mem.wf = true) (hr : s.hasRegs [rd, rs1, rs2] = true)
    (hva : va = s.valueOf ((s.readX rs1).toNat + imm.toInt)) (hok : va.toNat % n = 0 ∨ s.cfg.misalignedOk = true)
    (hv : v = if rd = 0 then 0 else
      s.valueOf (if isSigned then Int.bmod (s.readX rs2).toNat (256 ^ n) else (s.readX rs2).toNat % 256 ^ n))
    {pa : Nat} (hbare : s.mstatus.vm = .mbare) (hpa : pa = va.toNat % 2 ^ s.cfg.palen)
    (hstore : physCheck s.cfg pa n .store (s.effPriv .store) (s.controlled .store) = true)
    (hload : physCheck s.cfg pa n .load (s.effPriv .load) (s.controlled .load) = true) :
    ∃ t x, exec st s = .next t ∧ exec ld t = .next x ∧ x.readX rd = v := by
  subst hpa
  have hfound : s.translate va .store n = .found s (s.bareAddress va) :=
    (translate_of_map_found (map_of_untranslated (.inl hbare))).trans (if_pos hstore)
  obtain ⟨hexec, hafter⟩ := load_after_store hst hl hld hn hext hwf hr hva hok hv s _ hfound
  have hfound' : (s.stored (s.bareAddress va) n (s.readX rs2)).translate va .load n =
      .found (s.stored (s.bareAddress va) n (s.readX rs2)) (s.bareAddress va) :=
    (translate_of_map_found
      (map_of_untranslated (s := s.stored (s.bareAddress va) n (s.readX rs2)) (.inl hbare))).trans (if_pos hload)
  obtain ⟨x, hx, hread⟩ := hafter _ hfound' fun k _ pte hpte => by
    have hlevels : (s.stored (s.bareAddress va) n (s.readX rs2)).mstatus.vm.levels = 0 := congrArg Scheme.levels hbare
    simp [State.walkedPte, hlevels] at hpte
  exact ⟨_, x, hexec, hx, hread⟩

end LoadStore

/-- Settles O58: the seven pairs of a store and a load of one width. -/
theorem loadAfterStore : Obligations.LoadAfterStore := by
  rintro s rd rs1 rs2 imm st ld n isSigned va v hwf hr hva hok hpair hv
  obtain ⟨legal, extend, hst, hl, hld, hn, hext⟩ : ∃ legal extend,
      exec st s = storeOp legal n rs1 rs2 imm s ∧ legal = true ∧
      (∀ t, t.cfg = s.cfg → exec ld t = loadOp true n extend rd rs1 imm t) ∧ n ≤ 8 ∧ Extends extend n isSigned := by
    rcases hpair with ⟨rfl, rfl, ⟨rfl, rfl⟩ | ⟨rfl, rfl⟩⟩ | ⟨rfl, rfl, ⟨rfl, rfl⟩ | ⟨rfl, rfl⟩⟩ |
      ⟨rfl, rfl, ⟨rfl, rfl⟩ | ⟨rfl, rfl, h64⟩⟩ | ⟨rfl, h64, rfl, rfl, rfl⟩
    · exact ⟨_, _, rfl, rfl, fun _ _ => rfl, by decide, extends_sextByte⟩
    · exact ⟨_, _, rfl, rfl, fun _ _ => rfl, by decide, extends_zext 1⟩
    · exact ⟨_, _, rfl, rfl, fun _ _ => rfl, by decide, extends_sextHalf⟩
    · exact ⟨_, _, rfl, rfl, fun _ _ => rfl, by decide, extends_zext 2⟩
    · exact ⟨_, _, rfl, rfl, fun _ _ => rfl, by decide, extends_sextWord⟩
    · exact ⟨_, _, rfl, rfl, fun t ht => by rw [← h64, ← ht]; rfl, by decide, extends_zext 4⟩
    · exact ⟨_, _, rfl, h64, fun t ht => by rw [← h64, ← ht]; rfl, by decide, extends_zext 8⟩
  refine ⟨fun u pa hu => ?_, fun pa hbare hpa hstore hload => ?_⟩
  · obtain ⟨hexec, hafter⟩ := load_after_store hst hl hld hn hext hwf hr hva hok hv u pa hu
    exact ⟨_, hexec, hafter⟩
  · exact load_after_store_bare hst hl hld hn hext hwf hr hva hok hv hbare hpa hstore hload

end Sys2Proof.Machine

/-! The forms that do not exist, and what every instruction retires (40_csr_instructions.md R298, R304;
46_base_isa_general_knowledge.md section 8; 60_exceptions.md section 2). -/

namespace Sys2Proof.Machine

/-! ## Forms that do not exist -/

section Illegal
variable {legal taken : Bool} {n : Nat} {rd rs1 rs2 : Reg} {sources : List Reg} {v target : Word} {s : State}
variable {imm : BitVec 12} {offset : BitVec 13} {extend : Word → Word}

theorem writeResult_illegal (h : legal = false ∨ s.hasRegs (rd :: sources) = false) :
    writeResult legal rd sources v s = .next s.illegal := by
  rcases h with h | h <;> simp [writeResult, h]

theorem jumpAndLink_illegal (h : s.hasRegs (rd :: sources) = false) :
    jumpAndLink rd sources target s = .next s.illegal := by
  simp [jumpAndLink, h]

theorem branch_illegal (h : s.hasRegs [rs1, rs2] = false) : branch taken rs1 rs2 offset s = .next s.illegal := by
  simp [branch, h]

theorem loadOp_illegal (h : legal = false ∨ s.hasRegs [rd, rs1] = false) :
    loadOp legal n extend rd rs1 imm s = .next s.illegal := by
  rcases h with h | h <;> simp [loadOp, h]

theorem storeOp_illegal (h : legal = false ∨ s.hasRegs [rs1, rs2] = false) :
    storeOp legal n rs1 rs2 imm s = .next s.illegal := by
  rcases h with h | h <;> simp [storeOp, h]

theorem execSfenceVm_illegal (h : s.hasRegs [rs1] = false) : execSfenceVm rs1 s = .next s.illegal := by
  simp [execSfenceVm, h]

end Illegal

/-- An instruction that names a register RV32E has not is illegal (log 12). -/
theorem exec_of_no_regs {i : Instr} {s : State} (h : s.hasRegs (namedRegs i) = false) : exec i s = .next s.illegal := by
  cases hform : csrForm s i with
  | some f =>
    have hf := formOf_csrForm hform
    rw [hf.regs] at h
    exact hf.exec.trans (csrInstr_of_no_regs h)
  | none =>
    cases i
    case csrrw | csrrs | csrrc | csrrwi | csrrsi | csrrci => cases hform
    case ecall | ebreak | eret | wfi | hrts | mrts | mrth | fence | fenceI => cases h
    case sfenceVm => exact execSfenceVm_illegal h
    case jal | jalr => exact jumpAndLink_illegal h
    case beq | bne | blt | bge | bltu | bgeu => exact branch_illegal h
    case lb | lh | lw | lbu | lhu | lwu | ld => exact loadOp_illegal (.inr h)
    case sb | sh | sw | sd => exact storeOp_illegal (.inr h)
    all_goals exact writeResult_illegal (.inr h)

theorem shamtOk_rv32 {s : State} {shamt : BitVec 6} (h : s.cfg.rv64 = false) (hsh : 32 ≤ shamt.toNat) :
    s.shamtOk shamt = false := by
  obtain ⟨h', -⟩ | ⟨-, hx⟩ := s.cfg.xlen_cases
  · simp [h] at h'
  · simpa [State.shamtOk, hx] using hsh

/-- Settles O60: a missing register, a row of RV64I with XLEN = 32, and a shift amount past it. -/
theorem absentFormsAreIllegal : Obligations.AbsentFormsAreIllegal := by
  refine fun i s => ⟨fun hr => raises_of_illegal (exec_of_no_regs hr), fun h32 rd rs1 rs2 imm sh5 sh6 hi => ?_⟩
  apply raises_of_illegal
  simp only [List.mem_cons, List.not_mem_nil, or_false] at hi
  rcases hi with (rfl | rfl | rfl | hword) | ⟨hsh, rfl | rfl | rfl⟩
  · exact loadOp_illegal (.inl h32)
  · exact loadOp_illegal (.inl h32)
  · exact storeOp_illegal (.inl h32)
  · rcases hword with rfl | rfl | rfl | rfl | rfl | rfl | rfl | rfl | rfl <;> exact writeResult_illegal (.inl h32)
  · exact writeResult_illegal (.inl (shamtOk_rv32 h32 hsh))
  · exact writeResult_illegal (.inl (shamtOk_rv32 h32 hsh))
  · exact writeResult_illegal (.inl (shamtOk_rv32 h32 hsh))

/-! ## What an instruction retires -/

theorem trapped_raise (i : Instr) (s : State) (e : Exc) (bad : Option Word) : Trapped i s (s.raise e bad) :=
  ⟨s, e.code, bad, raise_raised s e bad, .inl rfl⟩

/-- The failed translation of the instruction's own access is the one change a trap may find made (D39). -/
theorem trapped_fail {i : Instr} {s u : State} {va : Word} {acc : Access} {n : Nat} (e : Exc) (bad : Option Word)
    (hi : DataAccess i s va acc n) (h : s.translate va acc n = .fail u) :
    Trapped i s (u.raise e bad) ∧ (u.raise e bad).instret = s.instret := by
  have htouched := touched_fail h
  refine ⟨⟨u, e.code, bad, raise_raised u e bad, .inr ⟨va, acc, n, hi, h, htouched.frame, fun a ha => ?_⟩⟩, ?_⟩
  · have hmem := translate_unmarked (n := n) ha
    rwa [h] at hmem
  · obtain ⟨m, tc, rfl⟩ := htouched.eq
    rfl

/-- The instruction went on: counted, with every status and trap register as before. -/
structure GoesOn (s t : State) : Prop where
  retired : t.instret = s.instret + 1
  frame : t = { s with x := t.x, pc := t.pc, instret := t.instret, mem := t.mem, tc := t.tc, stalled := t.stalled }

/-- What an instruction does that is no CSR instruction, ERET or MRTS. -/
def TrapsOrGoesOn (i : Instr) (s t : State) : Prop := (Trapped i s t ∧ t.instret = s.instret) ∨ GoesOn s t

theorem Touched.goesOn {s u : State} (h : Touched s u) (rd : Reg) (v npc : Word) :
    GoesOn s ((u.setX rd v).complete npc) := by
  obtain ⟨m, tc, rfl⟩ := h.eq
  exact ⟨rfl, rfl⟩

theorem goesOn_complete (s : State) (npc : Word) : GoesOn s (s.complete npc) := ⟨rfl, rfl⟩

section Shapes
variable {i : Instr} {s t : State}

theorem trapsOrGoesOn_raise (e : Exc) (bad : Option Word) : TrapsOrGoesOn i s (s.raise e bad) :=
  .inl ⟨trapped_raise i s e bad, rfl⟩

theorem trapsOrGoesOn_writeResult {legal : Bool} {rd : Reg} {sources : List Reg} {v : Word}
    (h : writeResult legal rd sources v s = .next t) : TrapsOrGoesOn i s t := by
  obtain ⟨-, -, rfl⟩ | rfl := writeResult_next h
  · exact .inr ((Touched.refl s).goesOn rd v _)
  · exact trapsOrGoesOn_raise _ _

theorem trapsOrGoesOn_jumpAndLink {rd : Reg} {sources : List Reg} {target : Word}
    (h : jumpAndLink rd sources target s = .next t) : TrapsOrGoesOn i s t := by
  obtain rfl | ⟨-, rfl⟩ | ⟨-, rfl⟩ := jumpAndLink_next h
  · exact trapsOrGoesOn_raise _ _
  · exact trapsOrGoesOn_raise _ _
  · exact .inr ((Touched.refl s).goesOn rd _ _)

theorem trapsOrGoesOn_branch {taken : Bool} {rs1 rs2 : Reg} {offset : BitVec 13}
    (h : branch taken rs1 rs2 offset s = .next t) : TrapsOrGoesOn i s t := by
  obtain rfl | rfl | ⟨-, rfl⟩ | ⟨-, rfl⟩ := branch_next h
  · exact trapsOrGoesOn_raise _ _
  · exact .inr (goesOn_complete s _)
  · exact trapsOrGoesOn_raise _ _
  · exact .inr (goesOn_complete s _)

theorem trapsOrGoesOn_loadOp {legal : Bool} {n : Nat} {extend : Word → Word} {rd rs1 : Reg} {imm : BitVec 12}
    (hi : DataAccess i s (s.address rs1 (immI imm)) .load n)
    (h : loadOp legal n extend rd rs1 imm s = .next t) : TrapsOrGoesOn i s t := by
  cases hlegal : legal && s.hasRegs [rd, rs1] with
  | false =>
    rw [loadOp_illegal ((Bool.and_eq_false_iff).1 hlegal)] at h
    cases h
    exact trapsOrGoesOn_raise _ _
  | true =>
    obtain ⟨hl, hr⟩ := (Bool.and_eq_true_iff).1 hlegal
    cases hmis : s.misaligned (s.address rs1 (immI imm)) n with
    | true =>
      rw [loadOp_misaligned hl hr rfl hmis] at h
      cases h
      exact trapsOrGoesOn_raise _ _
    | false =>
      cases hu : s.translate (s.address rs1 (immI imm)) .load n with
      | fail u =>
        rw [loadOp_fail hl hr rfl hmis hu] at h
        cases h
        exact .inl (trapped_fail _ _ hi hu)
      | found u pa =>
        rw [loadOp_found hl hr rfl hmis hu] at h
        cases h
        exact .inr ((touched_found hu).goesOn rd _ _)

theorem trapsOrGoesOn_storeOp {legal : Bool} {n : Nat} {rs1 rs2 : Reg} {imm : BitVec 12}
    (hi : DataAccess i s (s.address rs1 (immS imm)) .store n)
    (h : storeOp legal n rs1 rs2 imm s = .next t) : TrapsOrGoesOn i s t := by
  cases hlegal : legal && s.hasRegs [rs1, rs2] with
  | false =>
    rw [storeOp_illegal ((Bool.and_eq_false_iff).1 hlegal)] at h
    cases h
    exact trapsOrGoesOn_raise _ _
  | true =>
    obtain ⟨hl, hr⟩ := (Bool.and_eq_true_iff).1 hlegal
    cases hmis : s.misaligned (s.address rs1 (immS imm)) n with
    | true =>
      rw [storeOp_misaligned hl hr rfl hmis] at h
      cases h
      exact trapsOrGoesOn_raise _ _
    | false =>
      cases hu : s.translate (s.address rs1 (immS imm)) .store n with
      | fail u =>
        rw [storeOp_fail hl hr rfl hmis hu] at h
        cases h
        exact .inl (trapped_fail _ _ hi hu)
      | found u pa =>
        rw [storeOp_found hl hr rfl hmis hu] at h
        cases h
        obtain ⟨m, tc, rfl⟩ := (touched_found hu).eq
        exact .inr ⟨rfl, rfl⟩

theorem trapsOrGoesOn_sfenceVm {rs1 : Reg} (h : execSfenceVm rs1 s = .next t) : TrapsOrGoesOn i s t := by
  unfold execSfenceVm at h
  split at h <;> cases h
  · exact trapsOrGoesOn_raise _ _
  · exact .inr ⟨rfl, rfl⟩

theorem trapsOrGoesOn_wfi (h : execWfi s = .next t) : TrapsOrGoesOn i s t := by
  unfold execWfi at h
  split at h <;> cases h
  · exact trapsOrGoesOn_raise _ _
  · exact .inr ⟨rfl, rfl⟩
  · exact .inr ⟨rfl, rfl⟩

end Shapes

/-- Every instruction but the CSR instructions, ERET and MRTS traps, or goes on. -/
theorem exec_trapsOrGoesOn {i : Instr} {s t : State} (hform : csrForm s i = none) (he : i ≠ .eret) (hm : i ≠ .mrts)
    (h : exec i s = .next t) : TrapsOrGoesOn i s t := by
  cases i
  case csrrw | csrrs | csrrc | csrrwi | csrrsi | csrrci => cases hform
  case eret => exact absurd rfl he
  case mrts => exact absurd rfl hm
  case ecall | ebreak | hrts | mrth => cases h; exact trapsOrGoesOn_raise _ _
  case fence | fenceI => cases h; exact .inr (goesOn_complete s _)
  case wfi => exact trapsOrGoesOn_wfi h
  case sfenceVm => exact trapsOrGoesOn_sfenceVm h
  case jal | jalr => exact trapsOrGoesOn_jumpAndLink h
  case beq | bne | blt | bge | bltu | bgeu => exact trapsOrGoesOn_branch h
  case lb rd rs1 imm | lh rd rs1 imm | lw rd rs1 imm | lbu rd rs1 imm | lhu rd rs1 imm | lwu rd rs1 imm | ld rd rs1 imm =>
    exact trapsOrGoesOn_loadOp ⟨rd, rs1, imm, address_eq s rs1 imm, by simp⟩ h
  case sb rs1 rs2 imm | sh rs1 rs2 imm | sw rs1 rs2 imm | sd rs1 rs2 imm =>
    exact trapsOrGoesOn_storeOp ⟨rs2, rs1, imm, address_eq s rs1 imm, by simp⟩ h
  all_goals exact trapsOrGoesOn_writeResult h

/-- ERET, where it is legal, and MRTS, where it is, are counted. -/
theorem eret_retires {s t : State} (h : execEret s = .next t) :
    t = s.illegal ∨ (s.prv ≠ .user ∧ t.instret = s.instret + 1) := by
  by_cases hp : s.prv = .user
  · rw [execEret_of_user hp] at h
    cases h
    exact .inl rfl
  · rw [execEret_of_not_user hp] at h
    cases h
    exact .inr ⟨hp, rfl⟩

theorem mrts_retires {s t : State} (h : execMrts s = .next t) :
    t = s.illegal ∨ (s.prv = .machine ∧ s.cfg.hasS = true ∧ t.instret = s.instret + 1) := by
  by_cases hm : s.prv = .machine ∧ s.cfg.hasS = true
  · obtain ⟨hp, hS⟩ := hm
    rw [execMrts_of_machine hp hS] at h
    cases h
    exact .inr ⟨hp, hS, rfl⟩
  · rw [execMrts_of_not_machine (by simpa [or_iff_not_imp_left] using hm)] at h
    cases h
    exact .inl rfl

/-- A CSR instruction whose registers exist is illegal, or completes and is counted but for a write of the counter. -/
theorem csr_retires {i : Instr} {s t : State} {f : CsrForm} (hf : FormOf s i f)
    (hregs : s.hasRegs (namedRegs i) = true) (h : exec i s = .next t) :
    t = s.illegal ∨
    (Completed i s t ∧ t.instret = s.instret + 1 ∧
      ∀ a r v, WritesValue i s a r v → s.csrCheck a true = some r → r ≠ .instret ∧ r ≠ .instreth) ∨
    (∃ a r v u, WritesValue i s a r v ∧ s.csrCheck a true = some r ∧ (r = .instret ∨ r = .instreth) ∧
      s.csrWrite r v = some u ∧ t.instret = u.instret) := by
  have hcompleted : ∀ r, s.csrCheck f.addr f.isWrite = some r → Completed i s t := fun r hr =>
    ⟨hregs, .inl ⟨f.addr, f.isWrite, r, hf.uses, hr⟩⟩
  rw [hf.exec] at h
  rcases csrInstr_next h with rfl | ⟨r, hw, hcheck, rfl⟩ | ⟨r, u, hw, hcheck, hu, rfl⟩
  · exact .inl rfl
  · refine .inr (.inl ⟨hcompleted r hcheck, rfl, fun a r' v hv _ => ?_⟩)
    obtain ⟨-, hw', -⟩ := (hf.writes _ _ _).1 hv
    simp [hw] at hw'
  · by_cases hr : r = .instret ∨ r = .instreth
    · exact .inr (.inr ⟨f.addr, r, _, u, (hf.writes _ _ _).2 ⟨rfl, hw, rfl⟩, hw ▸ hcheck, hr, hu,
        (csrFinish_instret _ _ _ _).trans (if_pos hr)⟩)
    · refine .inr (.inl ⟨hcompleted r hcheck, ?_, fun a r' v hv hcheck' => ?_⟩)
      · rw [csrFinish_instret, if_neg hr, csrWrite_instret hu hr]
      · obtain ⟨rfl, -, -⟩ := (hf.writes _ _ _).1 hv
        rw [hw, hcheck'] at hcheck
        cases hcheck
        exact not_or.1 hr

/-- Settles O41: by the kind of instruction, once its registers exist. -/
theorem retiresOrTraps : Obligations.RetiresOrTraps := by
  intro i s t h
  have hillegal : Trapped i s s.illegal ∧ s.illegal.instret = s.instret := ⟨trapped_raise i s _ _, rfl⟩
  cases hregs : s.hasRegs (namedRegs i) with
  | false =>
    rw [exec_of_no_regs hregs] at h
    cases h
    exact .inl hillegal
  | true =>
    cases hform : csrForm s i with
    | some f =>
      rcases csr_retires (formOf_csrForm hform) hregs h with rfl | hdone | hcount
      · exact .inl hillegal
      · exact .inr (.inl hdone)
      · exact .inr (.inr ⟨rfl, hcount⟩)
    | none =>
      obtain ⟨hno, hnowrite⟩ := no_form hform
      have hcounter : ∀ a r v, WritesValue i s a r v → s.csrCheck a true = some r → r ≠ .instret ∧ r ≠ .instreth :=
        fun a r v hv => absurd hv (hnowrite a r v)
      by_cases he : i = .eret
      · subst he
        rcases eret_retires h with rfl | ⟨hp, hcount⟩
        · exact .inl hillegal
        · exact .inr (.inl ⟨⟨hregs, .inr (.inl ⟨rfl, hp⟩)⟩, hcount, hcounter⟩)
      by_cases hm : i = .mrts
      · subst hm
        rcases mrts_retires h with rfl | ⟨hp, hS, hcount⟩
        · exact .inl hillegal
        · exact .inr (.inl ⟨⟨hregs, .inr (.inr (.inl ⟨rfl, hp, hS⟩))⟩, hcount, hcounter⟩)
      rcases exec_trapsOrGoesOn hform he hm h with htrap | hgoes
      · exact .inl htrap
      · exact .inr (.inl ⟨⟨hregs, .inr (.inr (.inr ⟨hno, he, hm, hgoes.frame⟩))⟩, hgoes.retired, hcounter⟩)

end Sys2Proof.Machine
